-- ==== Sys2Proof/Word.lean ====
section
/-! DEFINITION. The word, byte, symbol and node-id types of the HFIL core (rules R6, R90, R100). -/

namespace Sys2Proof

/-- A command or response word, 16 bits (R90, R95). -/
abbrev Word := BitVec 16

/-- A byte of the stream (R9). -/
abbrev Byte := BitVec 8

/-- A symbol, held as its leaf id: digit `d` is id `d`, `SEP` is id 10 (R100). -/
abbrev Sym := Fin 11

/-- A node id: 0 to 10 are leaves, 11 to 20 internal nodes (R6). The register value `NONE` (31) is `none` in `Option NodeId`. -/
abbrev NodeId := Fin 21

/-- The separator symbol (R100). -/
abbrev Sym.sep : Sym := 10

end Sys2Proof
end

