-- ==== Sys2Proof/Syntax.lean ====
section
/-! DEFINITION. The sixteen commands (rule R93), one constructor per row of spec/opcode_table.json. -/

namespace Sys2Proof

/-- A command. Operands are unsigned fields taken as they stand (R92). -/
inductive Instr where
  /-- `STAT`, status read (R250). -/
  | stat
  /-- `CLR`, begin a call (R251). -/
  | clr
  /-- `TOK t`, one token of a record (R133). -/
  | tok (t : BitVec 4)
  /-- `SYM s`, one raw symbol (R136). -/
  | sym (s : BitVec 4)
  /-- `CNT`, Frequency Counter (R151). -/
  | cnt
  /-- `BLD`, Tree Builder (R154). -/
  | bld
  /-- `DRV`, Code Table Deriver (R202). -/
  | drv
  /-- `SER`, header serializer (R173). -/
  | ser
  /-- `ENC`, Stream Encoder, body (R212). -/
  | enc
  /-- `FIN`, padding and backfill (R214). -/
  | fin
  /-- `BYT b`, one byte of a blob (R217). -/
  | byt (b : Byte)
  /-- `PAR`, tree decoder (R178). -/
  | par
  /-- `DEC`, Stream Decoder (R220). -/
  | dec
  /-- `RAS`, Integer Reassembler (R242). -/
  | ras
  /-- `RDB`, read one byte of the blob (R252). -/
  | rdb
  /-- `RDT`, read one token of the records (R253). -/
  | rdt
deriving DecidableEq, Repr

end Sys2Proof
end

