-- ==== Sys2Proof/WellFormed.lean ====
section
/-! DEFINITION. Which command words are well formed (rules R90, R91, R94). An `Instr` needs no check of its own: its operand
fields have the widths of R91. -/

namespace Sys2Proof

/-- The three command formats of R91. -/
inductive Format where
  /-- no operand -/
  | n
  /-- 4-bit operand in bits 3:0 -/
  | t
  /-- byte operand in bits 7:0 -/
  | b
deriving DecidableEq, Repr

/-- `OP = CMD[15:12]` (R90). -/
def opField (w : Word) : BitVec 4 := w.extractLsb' 12 4

/-- `RSV = CMD[11:8]` (R90). -/
def rsvField (w : Word) : BitVec 4 := w.extractLsb' 8 4

/-- `IMM = CMD[7:0]` (R90). -/
def immField (w : Word) : BitVec 8 := w.extractLsb' 0 8

/-- `IMM[7:4]`, which format `T` requires to be 0 (R91). -/
def immHiField (w : Word) : BitVec 4 := w.extractLsb' 4 4

/-- The format an opcode uses (R91): `T` for `TOK` and `SYM`, `B` for `BYT`, `N` for the other thirteen. -/
def formatOf (op : BitVec 4) : Format :=
  if op = 0x2 ∨ op = 0x3 then .t else if op = 0xA then .b else .n

/-- R94: a command word is well formed. -/
def wordWellFormed (w : Word) : Bool :=
  rsvField w == 0 &&
    match formatOf (opField w) with
    | .n => immField w == 0
    | .t => immHiField w == 0
    | .b => true

end Sys2Proof
end

