-- ==== Sys2Proof/Decode.lean ====
section
/-! DEFINITION. The decoder and the encoder of command words (rules R90 to R94, spec/opcode_table.json). -/

namespace Sys2Proof

/-- Why a word is no command. -/
inductive DecodeReject where
  /-- Some reserved bit is set (R94): the word spells no command. There is no other reason, since every opcode is assigned. -/
  | reservedBits
deriving DecidableEq, Repr

/-- One row of the opcode map: the word `w` selects it when `w AND mask = pattern` (R93). -/
structure OpcodeRow where
  mask : Word
  pattern : Word
  build : Word → Instr

/-- The opcode map of R93, in the table's order. -/
def opcodeMap : List OpcodeRow :=
  [ ⟨0xFFFF, 0x0000, fun _ => .stat⟩,
    ⟨0xFFFF, 0x1000, fun _ => .clr⟩,
    ⟨0xFFF0, 0x2000, fun w => .tok (w.extractLsb' 0 4)⟩,
    ⟨0xFFF0, 0x3000, fun w => .sym (w.extractLsb' 0 4)⟩,
    ⟨0xFFFF, 0x4000, fun _ => .cnt⟩,
    ⟨0xFFFF, 0x5000, fun _ => .bld⟩,
    ⟨0xFFFF, 0x6000, fun _ => .drv⟩,
    ⟨0xFFFF, 0x7000, fun _ => .ser⟩,
    ⟨0xFFFF, 0x8000, fun _ => .enc⟩,
    ⟨0xFFFF, 0x9000, fun _ => .fin⟩,
    ⟨0xFF00, 0xA000, fun w => .byt (w.extractLsb' 0 8)⟩,
    ⟨0xFFFF, 0xB000, fun _ => .par⟩,
    ⟨0xFFFF, 0xC000, fun _ => .dec⟩,
    ⟨0xFFFF, 0xD000, fun _ => .ras⟩,
    ⟨0xFFFF, 0xE000, fun _ => .rdb⟩,
    ⟨0xFFFF, 0xF000, fun _ => .rdt⟩ ]

/-- The command a word spells: the row it selects (R93); a word that selects none is rejected by name (R94). -/
def decode (w : Word) : Except DecodeReject Instr :=
  match opcodeMap.find? (fun r => w &&& r.mask == r.pattern) with
  | some r => .ok (r.build w)
  | none => .error .reservedBits

/-- The opcode of a command (R93). -/
def opcodeOf : Instr → BitVec 4
  | .stat => 0x0
  | .clr => 0x1
  | .tok _ => 0x2
  | .sym _ => 0x3
  | .cnt => 0x4
  | .bld => 0x5
  | .drv => 0x6
  | .ser => 0x7
  | .enc => 0x8
  | .fin => 0x9
  | .byt _ => 0xA
  | .par => 0xB
  | .dec => 0xC
  | .ras => 0xD
  | .rdb => 0xE
  | .rdt => 0xF

/-- The `IMM` byte of a command: its operand, or 0 where it has none (R91). -/
def operandOf : Instr → Byte
  | .tok t => 0#4 ++ t
  | .sym s => 0#4 ++ s
  | .byt b => b
  | .stat => 0
  | .clr => 0
  | .cnt => 0
  | .bld => 0
  | .drv => 0
  | .ser => 0
  | .enc => 0
  | .fin => 0
  | .par => 0
  | .dec => 0
  | .ras => 0
  | .rdb => 0
  | .rdt => 0

/-- The word of a command: `OP`, `RSV = 0`, `IMM` (R90, R91). -/
def encode (i : Instr) : Word := opcodeOf i ++ 0#4 ++ operandOf i

/-- The host's probe: the command read from `nbits` bits `w`, the bits above `nbits` being 0. Every command is one 16-bit word (R90). -/
def decodeTableWord (nbits w : Nat) : Option Instr :=
  match decode (BitVec.ofNat 16 (w % 2 ^ nbits)) with
  | .ok i => some i
  | .error _ => none

end Sys2Proof
end

