-- ==== Sys2Proof/Config.lean ====
section
/-! DEFINITION. The parameters the spec leaves to an implementation (rules R7, R65, R263 (a), decision D18). -/

namespace Sys2Proof

/-- The four open parameters of R7. `none` is unbounded, the default of each. They are parameters of the step function
(R13); `State.cfg` carries them unchanged, so a statement about every state holds for every implementation. -/
structure Config where
  /-- `SYMBUF_CAP`, in symbol cells. -/
  symbufCap : Option Nat
  /-- `BITBUF_CAP`, in bits. -/
  bitbufCap : Option Nat
  /-- `OTOK_CAP`, in token cells. -/
  otokCap : Option Nat
  /-- `FREQ_W`, the width of a frequency count in bits. -/
  freqW : Option Nat
deriving DecidableEq, Repr

/-- The reference model: every buffer and counter unbounded (R7, R65). -/
def Config.reference : Config := ⟨none, none, none, none⟩

/-- R263 (a): an implementation with a finite `FREQ_W` must take `SYMBUF_CAP <= 2^FREQ_W - 1`. -/
def Config.wellFormed (c : Config) : Bool :=
  match c.freqW, c.symbufCap with
  | none, _ => true
  | some w, some cap => cap ≤ 2 ^ w - 1
  | some _, none => false

end Sys2Proof
end

