-- ==== Sys2Proof/Machine/State.lean ====
section
/-! DEFINITION. The state of the HFIL core (10_state.md, rules R20 to R38), the model's own interface fields, and the reset state (R36). -/

namespace Sys2Proof.Machine

open Sys2Proof

/-- `PHASE`, the sequencer that stands in place of a program counter (R21). The values 12 to 14 are never taken. -/
inductive Phase where
  /-- 0: call begun, nothing entered yet -/
  | idle
  /-- 1: tokens or symbols are being entered -/
  | ingest
  /-- 2: `FREQ` holds the counts of `SYMBUF` -/
  | counted
  /-- 3: tree built -/
  | built
  /-- 4: code table derived -/
  | derived
  /-- 5: pad placeholder and header are in `BITBUF` -/
  | serialized
  /-- 6: body is in `BITBUF` -/
  | encoded
  /-- 7: `BITBUF` is the blob -/
  | doneEnc
  /-- 8: blob bytes are being entered -/
  | load
  /-- 9: pad-length and header parsed, tree rebuilt -/
  | parsed
  /-- 10: `SYMBUF` holds the decoded symbols -/
  | decoded
  /-- 11: `RECS` and `OTOK` hold the records -/
  | doneDec
  /-- 15: the call has failed; `ERR` says why -/
  | fault
deriving DecidableEq, Repr

/-- `VARIANT`, the tagged tree shape (R25): 0 `NONE`, 1 `EMPTY`, 2 `SINGLE`, 3 `FULL`. -/
inductive Variant where
  | none
  | empty
  | single
  | full
deriving DecidableEq, Repr

/-- A token of the record port (R101): a digit 0 to 9, `END` (10) or `MINUS` (11). -/
inductive Token where
  | digit (d : Fin 10)
  | endRec
  | minus
deriving DecidableEq, Repr

/-- The faults a command can raise, by kind and detail (R270 to R278). Raising one is a NEXT state (R280), not a stop. -/
inductive ErrCode where
  /-- `InputFormatError`: `TOK` operand 12 to 15 (R271) -/
  | badToken
  /-- `InputFormatError`: `TOK MINUS` while a record is open (R271) -/
  | minusNotLeading
  /-- `InputFormatError`: `TOK END` with no digit in the record (R271) -/
  | emptyRecord
  /-- `CorruptHeaderError`: a field value not legal in its place (R272) -/
  | reservedField
  /-- `CorruptHeaderError`: the symbol field of a `SINGLE` header is 11 to 15 (R272) -/
  | badSingleSym
  /-- `CorruptHeaderError`: a `FULL` header with fewer than two present leaves (R272) -/
  | tooFewLeaves
  /-- `CorruptHeaderError`: a field names a parent id above the root (R272) -/
  | noSuchNode
  /-- `CorruptHeaderError`: a third node names the same parent (R272) -/
  | thirdChild
  /-- `CorruptHeaderError`: an internal node does not reach the root (R272) -/
  | cycle
  /-- `CorruptHeaderError`: "node count exceeds 21"; raised by no rule (R183, R272) -/
  | nodeCount
  /-- `TruncatedStreamError`: the blob has no byte (R273) -/
  | noPadField
  /-- `TruncatedStreamError`: a header field would extend past `LIMIT` (R273) -/
  | header
  /-- `TruncatedStreamError`: the bit walk exhausts input mid-symbol (R273) -/
  | midSymbol
  /-- `TruncatedStreamError`: a `1` bit in a `SINGLE` body (R273) -/
  | badBit
  /-- `TruncatedStreamError`: body bits after an `EMPTY` header (R273) -/
  | bodyNotEmpty
  /-- `TruncatedStreamError`: the decoded stream does not end in `SEP` (R273) -/
  | unterminated
  /-- `TruncatedStreamError`: a `SEP` with no digit before it (R273) -/
  | emptyGroup
  /-- `UnsupportedAlphabetError`: `SYM` operand 11 to 15 (R274) -/
  | badSymbol
  /-- `UnsupportedAlphabetError`: `ENC` met a symbol without a code; unreachable (R212, R274) -/
  | noCode
  /-- `SequenceError`: the command is not legal in the current phase (R277) -/
  | wrongPhase
  /-- `SequenceError`: `SYM` or `CNT` while a record is open (R277) -/
  | recordOpen
  /-- `SequenceError`: `RDB` or `RDT` with nothing left to read (R277) -/
  | overread
  /-- `IllegalCommandError`: the command word is ill formed (R276) -/
  | reservedBits
  /-- `CapacityError`: an append to `SYMBUF` does not fit (R278) -/
  | symbufFull
  /-- `CapacityError`: an append to `BITBUF` does not fit (R278) -/
  | bitbufFull
  /-- `CapacityError`: an append to `OTOK` does not fit (R278) -/
  | outFull
deriving DecidableEq, Repr

/-- Where the MODEL stops although the machine has no stop (R14). Each is met only in states that no run reaches, where the
pseudocode reads something its registers do not hold (log 4); `PhaseHolds` in Safety.lean rules them out. All are safe. -/
inductive Fault where
  /-- `SER`, `DRV` and `DEC` raise it: the tree registers name a node, parent or child that does not exist, or a parent walk does
  not reach `ROOT`, so the pseudocode has no value to read (R170, R200, R220). Safe: the model stops, the machine cannot get there. -/
  | malformedTree
  /-- `DEC` and `FIN` raise it: a `BitRead` or `BitWrite` outside positions 0 to `BITLEN-1`, which R10 excludes. Safe, for the same reason. -/
  | bitOutOfRange
deriving DecidableEq, Repr

/-- Why the model gives an instruction no meaning. The hardware refuses nothing (R14). -/
inductive Refusal where
  /-- Raised by `exec` alone, for an instruction without a meaning yet; no arm does so now. Safe. -/
  | notModelled (mnemonic : String)
deriving DecidableEq, Repr

/-- What the host can do to the core: present a command word (R90), or assert the reset input (R310). -/
inductive HostInput where
  | command (w : Word)
  | reset
deriving DecidableEq, Repr

/-- The tree registers: the summary registers of R25 and the node files of R29 to R31. -/
structure Tree where
  /-- `VARIANT` -/
  variant : Variant
  /-- `K`, the number of distinct symbols in the tree, 4 bits -/
  k : BitVec 4
  /-- `ROOT`, `none` for `NONE` -/
  root : Option NodeId
  /-- `NEXT_ID`, the id the next merge will take, 5 bits -/
  nextId : BitVec 5
  /-- `WEIGHT[n]` -/
  weight : Vector Nat 21
  /-- `PARENT[n]`, `none` for `NONE` -/
  parent : Vector (Option NodeId) 21
  /-- `CHILD[p][0]` and `CHILD[p][1]` of internal node `p`, at index `p - 11` -/
  child : Vector (Option NodeId × Option NodeId) 10
deriving DecidableEq, Repr

/-- The tree registers after reset (R36). -/
def Tree.reset : Tree where
  variant := .none
  k := 0
  root := none
  nextId := 11
  weight := Vector.replicate 21 0
  parent := Vector.replicate 21 none
  child := Vector.replicate 10 (none, none)

/-- The state of the machine: every item of 10_state.md, then the model's three interface fields. -/
structure State where
  /-- `PHASE` (R21) -/
  phase : Phase
  /-- `ERR.CAUSE` (R24) -/
  errCause : BitVec 3
  /-- `ERR.DETAIL` (R24) -/
  errDetail : BitVec 4
  /-- `VARIANT`, `K`, `ROOT`, `NEXT_ID`, `WEIGHT`, `PARENT`, `CHILD` (R25, R29 to R31) -/
  tree : Tree
  /-- `REC_OPEN` (R26) -/
  recOpen : Bool
  /-- `REC_NEG` (R26) -/
  recNeg : Bool
  /-- `REC_ND` (R26) -/
  recNd : Bool
  /-- `REC_NZ` (R26) -/
  recNz : Bool
  /-- `CODE_VALID` (R26) -/
  codeValid : Bool
  /-- `PAD` (R27) -/
  pad : Nat
  /-- `HDR_END` (R27) -/
  hdrEnd : Nat
  /-- `LIMIT` (R27) -/
  limit : Nat
  /-- `ORD` (R27) -/
  ord : Nat
  /-- `FREQ[s]` (R28) -/
  freq : Vector Nat 11
  /-- `CODE[s].BITS`, first bit = the branch taken at the root; `CODE[s].LEN` is its length (R32) -/
  code : Vector (List Bool) 11
  /-- `SYMBUF`; `SYMLEN` is its length (R33) -/
  symbuf : List Sym
  /-- `BITBUF`, position 0 first; `BITLEN` is its length (R34) -/
  bitbuf : List Bool
  /-- `RECS` (R35) -/
  recs : List Int
  /-- `OTOK`; `OTOKLEN` is its length (R35) -/
  otok : List Token
  /-- Interface: `RSP`, the word the response port carries since the last command (R95; log 2) -/
  rsp : Word
  /-- Interface: what the host presents from now on, in order (R12, R316; log 1) -/
  inbox : List HostInput
  /-- Interface: the open parameters of R7, constant (log 3) -/
  cfg : Config
deriving DecidableEq, Repr

/-- The state after reset (R36); the interface fields as logs 1, 2 and 3 say. -/
def State.reset : State where
  phase := .idle
  errCause := 0
  errDetail := 0
  tree := Tree.reset
  recOpen := false
  recNeg := false
  recNd := false
  recNz := false
  codeValid := false
  pad := 0
  hdrEnd := 0
  limit := 0
  ord := 0
  freq := Vector.replicate 11 0
  code := Vector.replicate 11 []
  symbuf := []
  bitbuf := []
  recs := []
  otok := []
  rsp := 0
  inbox := []
  cfg := Config.reference

end Sys2Proof.Machine
end

