-- ==== Sys2Proof/Machine/Operands.lean ====
section
/-! DEFINITION. Operand forms and the pseudocode primitives: bits of the stream, symbols, tokens, nodes, decimal notation
(rules R8 to R11, R61, R62, R92, R100, R101, R130, R240, R244). -/

namespace Sys2Proof.Machine

open Sys2Proof

/-! ## Bits of the stream -/

/-- The `n` bits of `zext_n(v)`, most significant bit first (R10, R62). -/
def natBits : Nat → Nat → List Bool
  | 0, _ => []
  | n + 1, v => v.testBit n :: natBits n v

/-- A bit sequence as an unsigned integer, first bit most significant (R10, R32). -/
def bitsValue (bs : List Bool) : Nat := bs.foldl (fun a b => 2 * a + b.toNat) 0

/-- `BitRead(pos, n)` on the buffer `buf` (R10). -/
def bitRead (buf : List Bool) (pos n : Nat) : Nat := bitsValue ((buf.drop pos).take n)

/-- `BitWrite(pos, n, v)` on the buffer `buf`: those positions overwritten, the length unchanged (R10). -/
def bitWrite (buf : List Bool) (pos n v : Nat) : List Bool := buf.take pos ++ natBits n v ++ buf.drop (pos + n)

/-- The eight bits of a byte, bit 7 first (R61). -/
def byteBits (b : Byte) : List Bool := natBits 8 b.toNat

/-- Byte `i` of the stream: positions `8i` to `8i+7` (R9). -/
def byteAt (buf : List Bool) (i : Nat) : Byte := BitVec.ofNat 8 (bitRead buf (8 * i) 8)

/-- The byte view of a buffer: bytes 0 to `BITLEN div 8 - 1` (R60, R61). -/
def bytesOf (buf : List Bool) : List Byte := (List.range (buf.length / 8)).map (byteAt buf)

/-! ## Symbols and nodes -/

/-- The symbols in ascending order of leaf id (R100). -/
def allSyms : List Sym := List.finRange 11

/-- The node ids in ascending order (R6). -/
def allNodes : List NodeId := List.finRange 21

/-- The internal node ids, 11 to 20, in ascending order (R6). -/
def internalIds : List NodeId := [11, 12, 13, 14, 15, 16, 17, 18, 19, 20]

/-- The leaf of a symbol: ids 0 to 10 are bound 1:1 to symbols (R100). -/
def leafOf (s : Sym) : NodeId := s.castLE (by decide)

/-- The symbol of a leaf, `none` for an internal node. -/
def symOf (n : NodeId) : Option Sym := if h : n.val < 11 then some ⟨n.val, h⟩ else none

/-- The symbol an operand of `SYM` names, `none` for 11 to 15 (R92, R100). -/
def symOperand (s : BitVec 4) : Option Sym := if h : s.toNat < 11 then some ⟨s.toNat, h⟩ else none

/-- The symbol of a digit: digit `d` is id `d` (R100). -/
def symOfDigit (d : Fin 10) : Sym := d.castLE (by decide)

/-- The digit of a symbol, `none` for `SEP` (R100). -/
def digitOf (s : Sym) : Option (Fin 10) := if h : s.val < 10 then some ⟨s.val, h⟩ else none

/-- A node-id register as its 5 bits: the id, or 31 for `NONE` (R10, R25). -/
def nodeRegBits : Option NodeId → BitVec 5
  | some n => BitVec.ofNat 5 n.val
  | none => 31

/-! ## Tokens -/

/-- The token an operand of `TOK` names, `none` for 12 to 15 (R101). -/
def tokenOperand (t : BitVec 4) : Option Token :=
  if h : t.toNat < 10 then some (.digit ⟨t.toNat, h⟩)
  else if t = 10 then some .endRec
  else if t = 11 then some .minus
  else none

/-- The 4-bit code of a token (R101). -/
def tokenCode : Token → BitVec 4
  | .digit d => BitVec.ofNat 4 d.val
  | .endRec => 10
  | .minus => 11

/-! ## Decimal notation -/

/-- The last `fuel` decimal digits of `n` without leading zeros, in front of `acc`; `[]` in front of `acc` for `n = 0`. -/
def digitsGo : Nat → Nat → List (Fin 10) → List (Fin 10)
  | 0, _, acc => acc
  | fuel + 1, n, acc =>
    if n = 0 then acc else digitsGo fuel (n / 10) (⟨n % 10, Nat.mod_lt _ (by decide)⟩ :: acc)

/-- `digits(n)`: the minimal decimal digits, most significant first, `digits(0) = [0]` (R11). A number has at most
`log2 n + 1` decimal digits. -/
def digits (n : Nat) : List (Fin 10) := if n = 0 then [0] else digitsGo (n.log2 + 1) n []

/-- `value(g)`: the number a digit sequence writes, leading zeros allowed (R11). -/
def value (g : List (Fin 10)) : Nat := g.foldl (fun a d => 10 * a + d.val) 0

/-- `project(v)`: sign marker `0` if negative, minimal digits, `SEP` (R130). -/
def project (v : Int) : List Sym :=
  (if v < 0 then [0] else []) ++ (digits v.natAbs).map symOfDigit ++ [Sym.sep]

/-- `project_all(xs)` (R131). -/
def projectAll (xs : List Int) : List Sym := xs.flatMap project

/-- `group_value(g)` of a non-empty digit group (R240): a leading 0 of a longer group is the sign marker. -/
def groupValue : List (Fin 10) → Int
  | 0 :: d :: ds => -(value (d :: ds) : Int)
  | g => (value g : Int)

/-- `tokens(v)`, the port form of an integer (R244). -/
def tokens (v : Int) : List Token :=
  (if v < 0 then [Token.minus] else []) ++ (digits v.natAbs).map Token.digit ++ [Token.endRec]

end Sys2Proof.Machine
end

