-- ==== Sys2Proof/Machine/Flags.lean ====
section
/-! DEFINITION. Flag computations: the codes of `PHASE` and `ERR`, the response bits `FAULT` and `MORE`, the response word, and
the record flags (rules R21, R26, R95, R133, R250, R270 to R278). -/

namespace Sys2Proof.Machine

open Sys2Proof

/-- The 4-bit value of `PHASE` (R21). -/
def phaseCode : Phase → BitVec 4
  | .idle => 0
  | .ingest => 1
  | .counted => 2
  | .built => 3
  | .derived => 4
  | .serialized => 5
  | .encoded => 6
  | .doneEnc => 7
  | .load => 8
  | .parsed => 9
  | .decoded => 10
  | .doneDec => 11
  | .fault => 15

/-- The 2-bit value of `VARIANT` (R25). -/
def variantCode : Variant → BitVec 2
  | .none => 0
  | .empty => 1
  | .single => 2
  | .full => 3

/-- `ERR.CAUSE` of a fault (R270). -/
def causeCode : ErrCode → BitVec 3
  | .badToken => 1
  | .minusNotLeading => 1
  | .emptyRecord => 1
  | .reservedField => 2
  | .badSingleSym => 2
  | .tooFewLeaves => 2
  | .noSuchNode => 2
  | .thirdChild => 2
  | .cycle => 2
  | .nodeCount => 2
  | .noPadField => 3
  | .header => 3
  | .midSymbol => 3
  | .badBit => 3
  | .bodyNotEmpty => 3
  | .unterminated => 3
  | .emptyGroup => 3
  | .badSymbol => 4
  | .noCode => 4
  | .wrongPhase => 5
  | .recordOpen => 5
  | .overread => 5
  | .reservedBits => 6
  | .symbufFull => 7
  | .bitbufFull => 7
  | .outFull => 7

/-- `ERR.DETAIL` of a fault (R271 to R278). -/
def detailCode : ErrCode → BitVec 4
  | .badToken => 1
  | .minusNotLeading => 2
  | .emptyRecord => 3
  | .reservedField => 1
  | .badSingleSym => 2
  | .tooFewLeaves => 3
  | .noSuchNode => 4
  | .thirdChild => 5
  | .cycle => 6
  | .nodeCount => 7
  | .noPadField => 1
  | .header => 2
  | .midSymbol => 3
  | .badBit => 4
  | .bodyNotEmpty => 5
  | .unterminated => 6
  | .emptyGroup => 7
  | .badSymbol => 1
  | .noCode => 2
  | .wrongPhase => 1
  | .recordOpen => 2
  | .overread => 3
  | .reservedBits => 1
  | .symbufFull => 1
  | .bitbufFull => 2
  | .outFull => 3

/-- Response bit `FAULT` (R95). -/
def faultBit (s : State) : Bool := s.phase == .fault

/-- Response bit `MORE` (R95): a byte of the blob or a token of the records is left to read. -/
def moreBit (s : State) : Bool :=
  (s.phase == .doneEnc && s.ord < s.bitbuf.length / 8) || (s.phase == .doneDec && s.ord < s.otok.length)

/-- The response word of R95, from the state after the command and the command's data result. -/
def respWord (s : State) (data : Byte) : Word :=
  BitVec.ofBool (faultBit s) ++ BitVec.ofBool (moreBit s) ++ s.errCause ++ 0#3 ++ data

/-- `DATA` of a `STAT`: `ERR.DETAIL * 16 + PHASE` (R250). -/
def statData (s : State) : Byte := s.errDetail ++ phaseCode s.phase

/-- All four record flags 0 (R26). -/
def clearRecFlags (s : State) : State := { s with recOpen := false, recNeg := false, recNd := false, recNz := false }

/-- A record begun, with or without a leading minus, no digit yet (R133). -/
def openRecFlags (neg : Bool) (s : State) : State := { s with recOpen := true, recNeg := neg, recNd := false, recNz := false }

end Sys2Proof.Machine
end

