-- ==== Sys2Proof/Machine/Ops.lean ====
section
/-! DEFINITION. The named operations every command shares: clearing, fault entry, the response, the appends with their capacity
check, and the order of checks of one command (rules R10, R22, R65, R95, R96, R280 to R282). -/

namespace Sys2Proof.Machine

open Sys2Proof

/-- How a command's own rule ends before its last line. -/
inductive Stop where
  /-- `raise K(detail)` (R10) -/
  | raise (e : ErrCode)
  /-- the pseudocode has nothing to read; unreachable (log 4) -/
  | stuck (f : Fault)
deriving DecidableEq, Repr

/-- Put the response word on the response port (R95). -/
def State.respond (data : Byte) (s : State) : State := { s with rsp := respWord s data }

/-- Every item of 10_state.md to its reset value (R36): what `CLR` and reset do (R251, R310), and the only way out of
`FAULT` (R282). The interface fields stay. -/
def State.clear (s : State) : State := { State.reset with rsp := s.rsp, inbox := s.inbox, cfg := s.cfg }

/-- `raise K(detail)`, fault entry (R280): every item cleared, `PHASE <- FAULT`, `ERR` set, and the fault response. -/
def State.raise (e : ErrCode) (s : State) : State :=
  State.respond 0 { s.clear with phase := .fault, errCause := causeCode e, errDetail := detailCode e }

/-- An append of `n` cells to a buffer of `len` cells fits its capacity (R65). An append of no cell does nothing (R214: "nothing when
PAD == 0"), so it fits. -/
def fits (cap : Option Nat) (len n : Nat) : Bool :=
  match cap with
  | none => true
  | some c => n = 0 || len + n ≤ c

/-- `SymAppend(x)` (R10), with the capacity check of R65. -/
def symAppend (x : Sym) (s : State) : Except Stop State :=
  if fits s.cfg.symbufCap s.symbuf.length 1 then .ok { s with symbuf := s.symbuf ++ [x] }
  else .error (.raise .symbufFull)

/-- `BitAppend` of a bit sequence (R10), with the capacity check of R65. -/
def bitAppend (bs : List Bool) (s : State) : Except Stop State :=
  if fits s.cfg.bitbufCap s.bitbuf.length bs.length then .ok { s with bitbuf := s.bitbuf ++ bs }
  else .error (.raise .bitbufFull)

/-- The table of R22: the phases in which a command is legal. -/
def legalIn (i : Instr) (p : Phase) : Bool :=
  match i with
  | .stat => true
  | .clr => true
  | .tok _ => p == .idle || p == .ingest
  | .sym _ => p == .idle || p == .ingest
  | .cnt => p == .idle || p == .ingest
  | .bld => p == .counted
  | .drv => p == .built || p == .parsed
  | .ser => p == .derived
  | .enc => p == .serialized
  | .fin => p == .encoded
  | .byt _ => p == .idle || p == .load
  | .par => p == .idle || p == .load
  | .dec => p == .parsed
  | .ras => p == .decoded
  | .rdb => p == .doneEnc
  | .rdt => p == .doneDec

/-- The end of a command's own rule in state `s`: its next state with the response of its data result, or fault entry (R280). -/
def answer (r : Except Stop (State × Byte)) (s : State) : Host.Outcome State Fault Refusal :=
  match r with
  | .ok (t, data) => .next (t.respond data)
  | .error (.raise e) => .next (s.raise e)
  | .error (.stuck f) => .fault f

/-- Steps 4, 5 and 6 of R96 for a command other than `STAT` and `CLR`: sticky `FAULT` (R281), wrong phase (R22), its own rule. -/
def command (i : Instr) (rule : State → Except Stop (State × Byte)) (s : State) : Host.Outcome State Fault Refusal :=
  if s.phase = .fault then .next (s.respond 0)
  else if legalIn i s.phase then answer (rule s) s
  else .next (s.raise .wrongPhase)

/-- Steps 1 and 2 of R96: an ill-formed word changes nothing in `FAULT` and raises `RESERVED_BITS` elsewhere (R276, R281). -/
def illFormed (s : State) : State :=
  if s.phase = .fault then s.respond 0 else s.raise .reservedBits

/-- The reset input: exactly the effect of `CLR` (R310). The response port then shows `CLR`'s response (log 2). -/
def resetInput (s : State) : State := s.clear.respond 0

end Sys2Proof.Machine
end

