-- ==== Sys2Proof/Machine/Builder.lean ====
section
/-! DEFINITION. The Frequency Counter `CNT` (R150, R151) and the Tree Builder `BLD` (R153 to R156), with the tree accessors. -/

namespace Sys2Proof.Machine

open Sys2Proof

/-- `count(S)` (R150). -/
def countSyms (S : List Sym) : Vector Nat 11 := Vector.ofFn fun s => S.count s

/-- The own rule of `CNT` (R151). -/
def cntRule (s : State) : Except Stop (State × Byte) :=
  if s.recOpen then .error (.raise .recordOpen)
  else .ok ({ s with freq := countSyms s.symbuf, phase := .counted }, 0)

/-- `CNT` (R151). -/
def execCnt (s : State) : Host.Outcome State Fault Refusal := command .cnt cntRule s

/-! ## The node files -/

/-- `CHILD[p][b]` (R31); `none` too where `p` is a leaf, which has no entry. -/
def childOf (t : Tree) (p : NodeId) (b : Bool) : Option NodeId :=
  if h : 11 ≤ p.val then
    let c := t.child[p.val - 11]'(by omega)
    if b then c.2 else c.1
  else none

/-- `CHILD[p][0] <- c0; CHILD[p][1] <- c1`, of an internal node `p`. -/
def setChildren (t : Tree) (p : NodeId) (c0 c1 : Option NodeId) : Tree :=
  if h : 11 ≤ p.val then { t with child := t.child.set (p.val - 11) (c0, c1) (by omega) } else t

/-! ## The merge -/

/-- Node `a` is lower than node `b`: lexicographic on `(weight, id)` (R153). -/
def lower (w : Vector Nat 21) (a b : NodeId) : Bool := w[a] < w[b] || (w[a] == w[b] && a < b)

/-- The lowest node of a set of candidates (R153). -/
def lowest (w : Vector Nat 21) : List NodeId → Option NodeId
  | [] => none
  | a :: as =>
    match lowest w as with
    | none => some a
    | some b => if lower w a b then some a else some b

/-- One merge (R154): `n` becomes the parent of `a` and `b`, the child of smaller id in slot 0 (R156). -/
def mergeNodes (t : Tree) (a b n : NodeId) : Tree :=
  setChildren
    { t with
      nextId := BitVec.ofNat 5 (n.val + 1)
      weight := t.weight.set n (t.weight[a] + t.weight[b])
      parent := (t.parent.set a (some n)).set b (some n) }
    n (some (min a b)) (some (max a b))

/-- The loop of R154: while two candidates are left, the two lowest merge under the next unused id. `ids` are the ids not yet
used, ascending; the answer is the candidates left and the tree. -/
def buildLoop : List NodeId → List NodeId → Tree → List NodeId × Tree
  | [], active, t => (active, t)
  | n :: ids, active, t =>
    match lowest t.weight active with
    | none => (active, t)
    | some a =>
      match lowest t.weight (active.erase a) with
      | none => (active, t)
      | some b => buildLoop ids (((active.erase a).erase b) ++ [n]) (mergeNodes t a b n)

/-- The symbols that occur (R152). -/
def presentSyms (f : Vector Nat 11) : List Sym := allSyms.filter fun s => 0 < f[s]

/-- `WEIGHT[s] <- FREQ[s]` for the leaves of the given symbols (R154). -/
def loadWeights (f : Vector Nat 11) (w : Vector Nat 21) (syms : List Sym) : Vector Nat 21 :=
  syms.foldl (fun w s => w.set (leafOf s) f[s]) w

/-- The tree registers after `BLD` (R154), from `FREQ` and the registers before. -/
def buildTree (f : Vector Nat 11) (t : Tree) : Tree :=
  let syms := presentSyms f
  let t := { t with k := BitVec.ofNat 4 syms.length, nextId := 11, weight := loadWeights f t.weight syms }
  match syms with
  | [] => { t with variant := .empty, root := none }
  | [s] => { t with variant := .single, root := some (leafOf s) }
  | _ =>
    let r := buildLoop internalIds (syms.map leafOf) { t with variant := .full }
    { r.2 with root := r.1.head? }

/-- The own rule of `BLD` (R154). -/
def bldRule (s : State) : Except Stop (State × Byte) :=
  .ok ({ s with tree := buildTree s.freq s.tree, phase := .built }, 0)

/-- `BLD` (R154). -/
def execBld (s : State) : Host.Outcome State Fault Refusal := command .bld bldRule s

end Sys2Proof.Machine
end

