-- ==== Sys2Proof/Machine/CodeTable.lean ====
section
/-! DEFINITION. The Code Table Deriver `DRV` (R200 to R202) and the lookup walk of R205. -/

namespace Sys2Proof.Machine

open Sys2Proof

/-- The bit recorded when the parent chain steps from `n` to `p`: 0 if `n` is the first-registered child (R200). -/
def slotBit (t : Tree) (p n : NodeId) : Bool := !(childOf t p false == some n)

/-- The walk of R200 from node `n` up to `ROOT`; `acc` holds the bits recorded so far, last recorded first, so that the answer is
already reversed. A chain without a repeated node has at most 20 steps; one that has not reached `ROOT` by then never does. -/
def climbCode (t : Tree) : Nat → NodeId → List Bool → Option (List Bool)
  | 0, n, acc => if t.root = some n then some acc else none
  | fuel + 1, n, acc =>
    if t.root = some n then some acc
    else
      match t.parent[n] with
      | none => none
      | some p => if 11 ≤ p.val then climbCode t fuel p (slotBit t p n :: acc) else none

/-- `code(tree, s)` (R200). -/
def codeOf (t : Tree) (s : Sym) : Option (List Bool) := climbCode t 20 (leafOf s) []

/-- The codes of a `FULL` tree (R202), symbol by symbol: those without a parent keep `LEN` 0. -/
def deriveLoop (t : Tree) : List Sym → Vector (List Bool) 11 → Except Stop (Vector (List Bool) 11)
  | [], c => .ok c
  | s :: ss, c =>
    if t.parent[leafOf s] = none then deriveLoop t ss c
    else
      match codeOf t s with
      | none => .error (.stuck .malformedTree)
      | some w => deriveLoop t ss (c.set s w)

/-- The code table of a tree (R201, R202). -/
def deriveCodes (t : Tree) : Except Stop (Vector (List Bool) 11) :=
  let blank : Vector (List Bool) 11 := Vector.replicate 11 []
  match t.variant with
  | .none => .ok blank
  | .empty => .ok blank
  | .single =>
    match t.root.bind symOf with
    | none => .error (.stuck .malformedTree)
    | some s => .ok (blank.set s [false])
  | .full => deriveLoop t allSyms blank

/-- The own rule of `DRV` (R202): `BUILT` goes to `DERIVED`, `PARSED` stays. -/
def drvRule (s : State) : Except Stop (State × Byte) :=
  match deriveCodes s.tree with
  | .error e => .error e
  | .ok c =>
    .ok ({ s with code := c, codeValid := true, phase := if s.phase = .built then .derived else s.phase }, 0)

/-- `DRV` (R202). -/
def execDrv (s : State) : Host.Outcome State Fault Refusal := command .drv drvRule s

/-- The walk of R205 from node `n`: it stays on internal nodes until the last bit and ends at a leaf. -/
def walkFrom (t : Tree) : NodeId → List Bool → Option Sym
  | n, [] => symOf n
  | n, b :: bs =>
    match childOf t n b with
    | none => none
    | some m => walkFrom t m bs

/-- `lookup(w)` (R205): the leaf the bit sequence `w` leads to from `ROOT`. -/
def lookup (t : Tree) (w : List Bool) : Option Sym :=
  match t.root with
  | none => none
  | some r => walkFrom t r w

end Sys2Proof.Machine
end

