-- ==== Sys2Proof/Machine/Front.lean ====
section
/-! DEFINITION. The record front end: `TOK` (R133) and `SYM` (R136). -/

namespace Sys2Proof.Machine

open Sys2Proof

/-- `TOK MINUS` (R133): opens a negative record. -/
def tokMinus (s : State) : Except Stop State :=
  if s.recOpen then .error (.raise .minusNotLeading) else .ok (openRecFlags true s)

/-- A digit after the flags of its record are set up (R133): a leading zero appends nothing; the first non-zero digit of a
negative record is preceded by the sign marker. -/
def tokDigitAppend (d : Fin 10) (s : State) : Except Stop State :=
  if d = 0 ∧ s.recNz = false then .ok s
  else if s.recNz then symAppend (symOfDigit d) s
  else do
    let s ← if s.recNeg then symAppend 0 s else .ok s
    symAppend (symOfDigit d) { s with recNz := true }

/-- `TOK` with a digit (R133). -/
def tokDigit (d : Fin 10) (s : State) : Except Stop State :=
  let s := if s.recOpen then s else openRecFlags false s
  tokDigitAppend d { s with recNd := true }

/-- `TOK END` (R133): a zero value is written `0`, then `SEP`, and the record is closed. -/
def tokEnd (s : State) : Except Stop State :=
  if s.recOpen = false ∨ s.recNd = false then .error (.raise .emptyRecord)
  else do
    let s ← if s.recNz then .ok s else symAppend 0 s
    let s ← symAppend Sym.sep s
    .ok (clearRecFlags s)

/-- The own rule of `TOK t` (R133). -/
def tokRule (t : BitVec 4) (s : State) : Except Stop (State × Byte) := do
  let s ← match tokenOperand t with
    | none => .error (.raise .badToken)
    | some .minus => tokMinus s
    | some (.digit d) => tokDigit d s
    | some .endRec => tokEnd s
  .ok ({ s with phase := .ingest }, 0)

/-- `TOK t` (R133). -/
def execTok (t : BitVec 4) (s : State) : Host.Outcome State Fault Refusal := command (.tok t) (tokRule t) s

/-- The own rule of `SYM s` (R136): the open record is checked before the operand. -/
def symRule (x : BitVec 4) (s : State) : Except Stop (State × Byte) :=
  if s.recOpen then .error (.raise .recordOpen)
  else match symOperand x with
    | none => .error (.raise .badSymbol)
    | some y => do
      let s ← symAppend y s
      .ok ({ s with phase := .ingest }, 0)

/-- `SYM s` (R136). -/
def execSym (x : BitVec 4) (s : State) : Host.Outcome State Fault Refusal := command (.sym x) (symRule x) s

end Sys2Proof.Machine
end

