-- ==== Sys2Proof/Machine/Reassembler.lean ====
section
/-! DEFINITION. The Integer Reassembler `RAS` (R240 to R244). -/

namespace Sys2Proof.Machine

open Sys2Proof

/-- The loop of R242 over the symbols left: `g` is the group so far, then `RECS` and `OTOK` so far. `cap` is `OTOK_CAP`. -/
def reassembleLoop (cap : Option Nat) :
    List Sym → List (Fin 10) → List Int → List Token → Except Stop (List Int × List Token)
  | [], _, recs, otok => .ok (recs, otok)
  | x :: xs, g, recs, otok =>
    match digitOf x with
    | some d => reassembleLoop cap xs (g ++ [d]) recs otok
    | none =>
      if g = [] then .error (.raise .emptyGroup)
      else if fits cap otok.length (tokens (groupValue g)).length then
        reassembleLoop cap xs [] (recs ++ [groupValue g]) (otok ++ tokens (groupValue g))
      else .error (.raise .outFull)

/-- `RAS` as a function of the symbol stream (R241, R242): `RECS` and `OTOK`. -/
def reassemble (cap : Option Nat) (S : List Sym) : Except Stop (List Int × List Token) :=
  if S ≠ [] ∧ S.getLast? ≠ some Sym.sep then .error (.raise .unterminated)
  else reassembleLoop cap S [] [] []

/-- The own rule of `RAS` (R242). -/
def rasRule (s : State) : Except Stop (State × Byte) :=
  match reassemble s.cfg.otokCap s.symbuf with
  | .error e => .error e
  | .ok r => .ok ({ s with recs := r.1, otok := r.2, ord := 0, phase := .doneDec }, 0)

/-- `RAS` (R242). -/
def execRas (s : State) : Host.Outcome State Fault Refusal := command .ras rasRule s

end Sys2Proof.Machine
end

