-- ==== Sys2Proof/Machine/Stream.lean ====
section
/-! DEFINITION. The Stream Encoder `ENC`, `FIN` (R212 to R214), blob entry `BYT` (R217) and the Stream Decoder `DEC` (R220 to R223). -/

namespace Sys2Proof.Machine

open Sys2Proof

/-- The loop of `ENC` (R212): the code of every symbol, in stream order. -/
def appendCodes : List Sym → State → Except Stop State
  | [], s => .ok s
  | x :: xs, s =>
    if s.code[x] = [] then .error (.raise .noCode)
    else do
      let s ← bitAppend s.code[x] s
      appendCodes xs s

/-- The own rule of `ENC` (R212). -/
def encRule (s : State) : Except Stop (State × Byte) := do
  let s ← appendCodes s.symbuf s
  .ok ({ s with phase := .encoded }, 0)

/-- `ENC` (R212). -/
def execEnc (s : State) : Host.Outcome State Fault Refusal := command .enc encRule s

/-- `pad(n)` (R213). -/
def padLength (n : Nat) : Nat := (8 - n % 8) % 8

/-- The own rule of `FIN` (R214): pad bits, then the pad-length backfilled into positions 0 to 2. -/
def finRule (s : State) : Except Stop (State × Byte) := do
  let pad := padLength s.bitbuf.length
  let s ← bitAppend (natBits pad 0) { s with pad := pad }
  if s.bitbuf.length < 3 then .error (.stuck .bitOutOfRange)
  else .ok ({ s with bitbuf := bitWrite s.bitbuf 0 3 pad, ord := 0, phase := .doneEnc }, 0)

/-- `FIN` (R214). -/
def execFin (s : State) : Host.Outcome State Fault Refusal := command .fin finRule s

/-- The own rule of `BYT b` (R217). -/
def bytRule (b : Byte) (s : State) : Except Stop (State × Byte) := do
  let s ← bitAppend (byteBits b) s
  .ok ({ s with phase := .load }, 0)

/-- `BYT b` (R217). -/
def execByt (b : Byte) (s : State) : Host.Outcome State Fault Refusal := command (.byt b) (bytRule b) s

/-! ## The decoder -/

/-- The `SINGLE` body (R220, R223): each bit 0 is one more occurrence of the one symbol. `cap` is `SYMBUF_CAP`. -/
def decodeSingle (cap : Option Nat) (x : Option Sym) : List Bool → List Sym → Except Stop (List Sym)
  | [], out => .ok out
  | true :: _, _ => .error (.raise .badBit)
  | false :: bs, out =>
    match x with
    | none => .error (.stuck .malformedTree)
    | some y => if fits cap out.length 1 then decodeSingle cap x bs (out ++ [y]) else .error (.raise .symbufFull)

/-- The `FULL` body (R220, R221). `at?` is the internal node the walk stands on in the middle of a symbol, `none` between two
symbols (the next walk starts at `root`). -/
def decodeFull (cap : Option Nat) (t : Tree) (root : NodeId) : List Bool → Option NodeId → List Sym → Except Stop (List Sym)
  | [], none, out => .ok out
  | [], some _, _ => .error (.raise .midSymbol)
  | b :: bs, at?, out =>
    match childOf t (at?.getD root) b with
    | none => .error (.stuck .malformedTree)
    | some m =>
      match symOf m with
      | none => decodeFull cap t root bs (some m) out
      | some y => if fits cap out.length 1 then decodeFull cap t root bs none (out ++ [y]) else .error (.raise .symbufFull)

/-- The body bits, positions `HDR_END` to `LIMIT - 1` (R66). -/
def bodyBits (buf : List Bool) (hdrEnd limit : Nat) : List Bool := (buf.take limit).drop hdrEnd

/-- `DEC` as a function (R220): the symbols of the body. A body that would run past `BITLEN` cannot be read (R10). -/
def decodeBody (cap : Option Nat) (t : Tree) (buf : List Bool) (hdrEnd limit : Nat) : Except Stop (List Sym) :=
  match t.variant with
  | .none => .ok []
  | .empty => if hdrEnd = limit then .ok [] else .error (.raise .bodyNotEmpty)
  | .single =>
    if buf.length < limit then .error (.stuck .bitOutOfRange)
    else decodeSingle cap (t.root.bind symOf) (bodyBits buf hdrEnd limit) []
  | .full =>
    if buf.length < limit then .error (.stuck .bitOutOfRange)
    else
      match t.root with
      | none => .error (.stuck .malformedTree)
      | some r => decodeFull cap t r (bodyBits buf hdrEnd limit) none []

/-- The own rule of `DEC` (R220). -/
def decRule (s : State) : Except Stop (State × Byte) :=
  match decodeBody s.cfg.symbufCap s.tree s.bitbuf s.hdrEnd s.limit with
  | .error e => .error e
  | .ok S => .ok ({ s with symbuf := S, phase := .decoded }, 0)

/-- `DEC` (R220). -/
def execDec (s : State) : Host.Outcome State Fault Refusal := command .dec decRule s

end Sys2Proof.Machine
end

