-- ==== Sys2Proof/Machine/System.lean ====
section
/-! DEFINITION. The system commands `STAT`, `CLR`, `RDB`, `RDT` (R250 to R253). -/

namespace Sys2Proof.Machine

open Sys2Proof

/-- `STAT` (R250), executed in every phase (R96 step 3). -/
def execStat (s : State) : Host.Outcome State Fault Refusal := .next (s.respond (statData s))

/-- `CLR` (R251), executed in every phase (R96 step 3). -/
def execClr (s : State) : Host.Outcome State Fault Refusal := .next (s.clear.respond 0)

/-- The own rule of `RDB` (R252). -/
def rdbRule (s : State) : Except Stop (State × Byte) :=
  if s.bitbuf.length / 8 ≤ s.ord then .error (.raise .overread)
  else .ok ({ s with ord := s.ord + 1 }, byteAt s.bitbuf s.ord)

/-- `RDB` (R252). -/
def execRdb (s : State) : Host.Outcome State Fault Refusal := command .rdb rdbRule s

/-- The own rule of `RDT` (R253): the token in bits 3:0. -/
def rdtRule (s : State) : Except Stop (State × Byte) :=
  match s.otok[s.ord]? with
  | none => .error (.raise .overread)
  | some t => .ok ({ s with ord := s.ord + 1 }, 0#4 ++ tokenCode t)

/-- `RDT` (R253). -/
def execRdt (s : State) : Host.Outcome State Fault Refusal := command .rdt rdtRule s

end Sys2Proof.Machine
end

