-- ==== Sys2Proof/Machine/TreeCodec.lean ====
section
/-! DEFINITION. The Tree Codec: header serializer `SER` (R170, R173) and tree decoder `PAR` (R178 to R181). -/

namespace Sys2Proof.Machine

open Sys2Proof

/-! ## Serializer -/

/-- `f(n)` of R170: the header field of node `n` of a `FULL` tree. -/
def fieldOf (t : Tree) (n : NodeId) : Except Stop Nat :=
  match t.parent[n] with
  | none => if n.val ≤ 10 then .ok 10 else .error (.stuck .malformedTree)
  | some p => if 11 ≤ p.val then .ok (p.val - 11) else .error (.stuck .malformedTree)

/-- The fields of the listed nodes, in order. -/
def fieldsOf (t : Tree) : List NodeId → Except Stop (List Nat)
  | [] => .ok []
  | n :: ns => do
    let v ← fieldOf t n
    let vs ← fieldsOf t ns
    .ok (v :: vs)

/-- `fields(tree)` (R170). -/
def headerFields (t : Tree) : Except Stop (List Nat) :=
  match t.variant with
  | .none => .error (.stuck .malformedTree)
  | .empty => .ok [15]
  | .single =>
    match t.root.bind symOf with
    | none => .error (.stuck .malformedTree)
    | some s => .ok [14, s.val]
  | .full =>
    match t.root with
    | none => .error (.stuck .malformedTree)
    | some r => fieldsOf t (allNodes.filter (· < r))

/-- `for v in fs: BitAppend(4, v)` (R173). -/
def appendFields : List Nat → State → Except Stop State
  | [], s => .ok s
  | v :: vs, s => do
    let s ← bitAppend (natBits 4 v) s
    appendFields vs s

/-- The own rule of `SER` (R173). -/
def serRule (s : State) : Except Stop (State × Byte) := do
  let fs ← headerFields s.tree
  let s ← bitAppend (natBits 3 0) { s with bitbuf := [] }
  let s ← appendFields fs s
  .ok ({ s with hdrEnd := s.bitbuf.length, phase := .serialized }, 0)

/-- `SER` (R173). -/
def execSer (s : State) : Host.Outcome State Fault Refusal := command .ser serRule s

/-! ## Tree decoder -/

/-- `Read4()` of R178 at position `pos`: the field and the next position. -/
def read4 (buf : List Bool) (limit pos : Nat) : Except ErrCode (Nat × Nat) :=
  if limit < pos + 4 then .error .header else .ok (bitRead buf pos 4, pos + 4)

/-- `n` header fields in stream order, none above `top` (stages B and C of R178). -/
def readFields (buf : List Bool) (limit top : Nat) : Nat → Nat → Except ErrCode (List Nat × Nat)
  | 0, pos => .ok ([], pos)
  | n + 1, pos => do
    let (v, pos) ← read4 buf limit pos
    if top < v then .error .reservedField
    else do
      let (vs, pos) ← readFields buf limit top n pos
      .ok (v :: vs, pos)

/-- The leaves present in a list of eleven leaf fields: those whose field is not `ABSENT` (R178, stage B). -/
def presentLeaves (f : List Nat) : List Sym := allSyms.filter fun s => f.getD s.val 10 ≠ 10

/-- There are at most eleven leaves, so the root id `9 + k` is a node id. -/
theorem presentLeaves_length_le (f : List Nat) : (presentLeaves f).length ≤ 11 :=
  (List.length_filter_le _ _).trans (by decide)

/-- The root id `r = 9 + k` (R178, R263 f). -/
def rootOf (f : List Nat) : NodeId :=
  ⟨9 + (presentLeaves f).length, by have := presentLeaves_length_le f; omega⟩

/-- One turn of stage D of R178 (R180): node `n` with field `v` names its parent and takes the next child slot. -/
def linkNode (r n : NodeId) (v : Nat) (t : Tree) : Except ErrCode Tree :=
  if n.val ≤ 10 ∧ v = 10 then .ok t
  else if h : 11 + v ≤ r.val then
    let p : NodeId := ⟨11 + v, by omega⟩
    let t' := { t with parent := t.parent.set n (some p) }
    if childOf t p false = none then .ok (setChildren t' p (some n) (childOf t p true))
    else if childOf t p true = none then .ok (setChildren t' p (childOf t p false) (some n))
    else .error .thirdChild
  else .error .noSuchNode

/-- Stage D of R178: the nodes in ascending id, each with its field. -/
def linkAll (r : NodeId) : List (NodeId × Nat) → Tree → Except ErrCode Tree
  | [], t => .ok t
  | (n, v) :: rest, t => do
    let t ← linkNode r n v t
    linkAll r rest t

/-- `repeat k times: if m != r: m <- PARENT[m]` (R178, stage E). -/
def climbParents (t : Tree) (r : NodeId) : Nat → Option NodeId → Option NodeId
  | 0, m => m
  | k + 1, m => climbParents t r k (if m = some r then m else m.bind fun n => t.parent[n])

/-- Stage E of R178 (R181): every internal node below the root reaches it in `k - 1` steps. -/
def allReachRoot (t : Tree) (r : NodeId) (k : Nat) : Bool :=
  (internalIds.filter (· < r)).all fun n => climbParents t r (k - 1) (some n) == some r

/-- What `PAR` finds in a blob. -/
structure Parsed where
  pad : Nat
  limit : Nat
  hdrEnd : Nat
  tree : Tree
deriving DecidableEq, Repr

/-- Stages B to E of R178: a `FULL` header whose first field `f0` has been read; the tree and `HDR_END`. -/
def parseFull (buf : List Bool) (limit pos f0 : Nat) (t : Tree) : Except ErrCode (Tree × Nat) := do
  let (leaves, pos) ← readFields buf limit 10 10 pos
  let leaves := f0 :: leaves
  let k := (presentLeaves leaves).length
  let r := rootOf leaves
  if k < 2 then .error .tooFewLeaves
  else do
    let (inner, pos) ← readFields buf limit 9 (k - 2) pos
    let t ← linkAll r (allNodes.zip (leaves ++ inner)) t
    if allReachRoot t r k then
      .ok ({ t with variant := .full, k := BitVec.ofNat 4 k, root := some r, nextId := BitVec.ofNat 5 (r.val + 1) }, pos)
    else .error .cycle

/-- Stage A of R178: the first field and the degenerate forms; the tree and `HDR_END`. -/
def parseHeader (buf : List Bool) (limit : Nat) (t : Tree) : Except ErrCode (Tree × Nat) := do
  let (f0, pos) ← read4 buf limit 3
  if f0 = 15 then .ok ({ t with variant := .empty, k := 0, root := none }, pos)
  else if f0 = 14 then do
    let (x, pos) ← read4 buf limit pos
    if h : x < 11 then .ok ({ t with variant := .single, k := 1, root := some (leafOf ⟨x, h⟩) }, pos)
    else .error .badSingleSym
  else if 10 < f0 then .error .reservedField
  else parseFull buf limit pos f0 t

/-- `PAR` as a function of `BITBUF` and the tree registers before (R178). -/
def parseBlob (buf : List Bool) (t : Tree) : Except ErrCode Parsed :=
  if buf.length < 3 then .error .noPadField
  else do
    let pad := bitRead buf 0 3
    let limit := buf.length - pad
    let (t, hdrEnd) ← parseHeader buf limit t
    .ok ⟨pad, limit, hdrEnd, t⟩

/-- The own rule of `PAR` (R178). -/
def parRule (s : State) : Except Stop (State × Byte) :=
  match parseBlob s.bitbuf s.tree with
  | .error e => .error (.raise e)
  | .ok p => .ok ({ s with pad := p.pad, limit := p.limit, hdrEnd := p.hdrEnd, tree := p.tree, phase := .parsed }, 0)

/-- `PAR` (R178). -/
def execPar (s : State) : Host.Outcome State Fault Refusal := command .par parRule s

end Sys2Proof.Machine
end

