-- ==== Sys2Proof/Machine/Dispatch.lean ====
section
/-! DEFINITION. One arm per command: the direct call of its meaning. -/

namespace Sys2Proof.Machine

open Sys2Proof

/-- Steps 3 to 6 of R96: the effect of a well-formed command. -/
def exec (i : Instr) (s : State) : Host.Outcome State Fault Refusal :=
  match i with
  | .stat => Sys2Proof.Machine.execStat s
  | .clr => Sys2Proof.Machine.execClr s
  | .tok t => Sys2Proof.Machine.execTok t s
  | .sym x => Sys2Proof.Machine.execSym x s
  | .cnt => Sys2Proof.Machine.execCnt s
  | .bld => Sys2Proof.Machine.execBld s
  | .drv => Sys2Proof.Machine.execDrv s
  | .ser => Sys2Proof.Machine.execSer s
  | .enc => Sys2Proof.Machine.execEnc s
  | .fin => Sys2Proof.Machine.execFin s
  | .byt b => Sys2Proof.Machine.execByt b s
  | .par => Sys2Proof.Machine.execPar s
  | .dec => Sys2Proof.Machine.execDec s
  | .ras => Sys2Proof.Machine.execRas s
  | .rdb => Sys2Proof.Machine.execRdb s
  | .rdt => Sys2Proof.Machine.execRdt s

end Sys2Proof.Machine
end

