-- ==== Sys2Proof/Machine/Port.lean ====
section
/-! DEFINITION. What the core does with the input the host presents (rules R96, R310, R311). -/

namespace Sys2Proof.Machine

open Sys2Proof

/-- With nothing presented the core waits for its next command (R311, log 1). -/
def waitForHost (s : State) : Host.Outcome State Fault Refusal := .next s

/-- The reset input is asserted (R310). -/
def takeReset (s : State) : Host.Outcome State Fault Refusal := .next (resetInput s)

/-- The command word `w` is presented (R96): ill formed, steps 1 and 2; well formed, steps 3 to 6. -/
def takeCommand (w : Word) (s : State) : Host.Outcome State Fault Refusal :=
  match decode w with
  | .error .reservedBits => .next (illFormed s)
  | .ok i => exec i s

end Sys2Proof.Machine
end

