-- ==== Sys2Proof/Machine/Step.lean ====
section
/-! DEFINITION. One step: the core takes the host's next input (rules R12, R316; log 1). -/

namespace Sys2Proof.Machine

open Sys2Proof

/-- One step: the first input of `inbox` is taken and the core acts on it; the inputs behind it stay. -/
def step (s : State) : Host.Outcome State Fault Refusal :=
  match s.inbox with
  | [] => Sys2Proof.Machine.waitForHost s
  | .reset :: rest => Sys2Proof.Machine.takeReset { s with inbox := rest }
  | .command w :: rest => Sys2Proof.Machine.takeCommand w { s with inbox := rest }

/-- `s` with the command whose bits are `w` presented next on the command port. Every command is one 16-bit word (R90). -/
def State.withFetchWord (s : State) (nbits w : Nat) : State :=
  { s with inbox := .command (BitVec.ofNat 16 (w % 2 ^ nbits)) :: s.inbox }

end Sys2Proof.Machine
end

