-- ==== Sys2Proof/Machine/EntryPoints.lean ====
section
/-! DEFINITION. The pseudo-instructions of R98 with their expansions, the host's reading loop, and the two entry points as
functions (rules R98, R215, R256, R257). -/

namespace Sys2Proof.Machine

open Sys2Proof

/-! ## Pseudo-instructions (R98) -/

/-- `REC v` (R98). -/
def recCommands (v : Int) : List Instr :=
  (if v < 0 then [.tok 11] else []) ++ (digits v.natAbs).map (fun d => .tok (BitVec.ofNat 4 d.val)) ++ [.tok 10]

/-- `BLOB b0 ... bn` (R98). -/
def blobCommands (bs : List Byte) : List Instr := bs.map .byt

/-- `ENCODE` (R98). -/
def encodeCommands : List Instr := [.cnt, .bld, .drv, .ser, .enc, .fin]

/-- `DECODE` (R98), without the optional `DRV`. -/
def decodeCommands : List Instr := [.par, .dec, .ras]

/-- `encode([v1, ..., vn])` up to the reads (R98). -/
def encodeProgram (xs : List Int) : List Instr := .clr :: (xs.flatMap recCommands ++ encodeCommands)

/-- `decode(b0 ... bn)` up to the reads (R98). -/
def decodeProgram (bs : List Byte) : List Instr := .clr :: (blobCommands bs ++ decodeCommands)

/-- Commands one after the other, each issued after the response to the one before (R316). -/
def execAll : List Instr → State → Host.Outcome State Fault Refusal
  | [], s => .next s
  | i :: is, s =>
    match exec i s with
    | .next t => execAll is t
    | .fault f => .fault f
    | .refused r => .refused r

/-- `RDB` or `RDT` while `MORE` = 1, at most `fuel` times (R98): the `DATA` bytes read and the state after. -/
def readWhileMore (i : Instr) : Nat → State → List Byte × State
  | 0, s => ([], s)
  | fuel + 1, s =>
    if s.rsp.getLsbD 14 then
      match exec i s with
      | .next t =>
        let r := readWhileMore i fuel t
        (t.rsp.extractLsb' 0 8 :: r.1, r.2)
      | _ => ([], s)
    else ([], s)

/-- `encode([v1, ..., vn])` whole (R98): the bytes the host reads. -/
def hostEncode (xs : List Int) (s : State) : Option (List Byte) :=
  match execAll (encodeProgram xs) s with
  | .next t => some (readWhileMore .rdb (t.bitbuf.length / 8) t).1
  | _ => none

/-- `decode(b0 ... bn)` whole (R98): the token codes the host reads. -/
def hostDecode (bs : List Byte) (s : State) : Option (List Byte) :=
  match execAll (decodeProgram bs) s with
  | .next t => some (readWhileMore .rdt t.otok.length t).1
  | _ => none

/-! ## The entry points as functions -/

/-- The blob of a symbol stream as bits: the steps of R256 from `FREQ` on. -/
def encodeSymbols (S : List Sym) : Except Stop (List Bool) := do
  let t := buildTree (countSyms S) Tree.reset
  let codes ← deriveCodes t
  let fs ← headerFields t
  let bits := natBits 3 0 ++ fs.flatMap (natBits 4) ++ S.flatMap (fun s => codes[s])
  let pad := padLength bits.length
  .ok (bitWrite (bits ++ natBits pad 0) 0 3 pad)

/-- `encode(xs)` (R256). -/
def encodeRecords (xs : List Int) : Except Stop (List Byte) := do
  let bits ← encodeSymbols (projectAll xs)
  .ok (bytesOf bits)

/-- The symbol stream of a blob: `PAR` then `DEC` (R257), with unbounded buffers. -/
def decodeSymbols (blob : List Byte) : Except Stop (List Sym) :=
  match parseBlob (blob.flatMap byteBits) Tree.reset with
  | .error e => .error (.raise e)
  | .ok p => decodeBody none p.tree (blob.flatMap byteBits) p.hdrEnd p.limit

/-- `decode(blob)` (R257): the first fault met, or `RECS`. -/
def decodeRecords (blob : List Byte) : Except Stop (List Int) := do
  let S ← decodeSymbols blob
  let r ← reassemble none S
  .ok r.1

/-- The number of body bits: the sum over `s` of `FREQ[s] * CODE[s].LEN` (R212). -/
def bodyLength (f : Vector Nat 11) (codes : Vector (List Bool) 11) : Nat :=
  (allSyms.map fun s => f[s] * codes[s].length).sum

/-- The size of a blob in bytes (R215), from the field count `F`. -/
def blobSize (F : Nat) (f : Vector Nat 11) (codes : Vector (List Bool) 11) : Nat := (3 + 4 * F + bodyLength f codes + 7) / 8

end Sys2Proof.Machine
end

