-- ==== Sys2Proof/Safety.lean ====
section
/-! DEFINITION. What the statements speak of: the faulted state, the phase table, the finished tree, the path of a node, and the
invariants of a run (rules R22, R24, R26, R30, R31, R37, R65, R200, R280). -/

namespace Sys2Proof.Safety

open Sys2Proof Sys2Proof.Machine

/-! ## Faults and phases -/

/-- The response word of a fault with the given cause: `0x8000 + CAUSE * 2048` (R280). -/
def faultWord (cause : BitVec 3) : Word := BitVec.ofNat 16 (0x8000 + cause.toNat * 2048)

/-- The faulted state of R280: every item at its reset value, `PHASE = FAULT`, `ERR` and the response of the fault `e`; the
interface fields `inbox` and `cfg` as in `s`. -/
def faulted (e : ErrCode) (s : State) : State :=
  { State.reset with
    phase := .fault
    errCause := causeCode e
    errDetail := detailCode e
    rsp := faultWord (causeCode e)
    inbox := s.inbox
    cfg := s.cfg }

/-- The table of R22: each command with the phases it is legal in and its phase after success. -/
def phaseTable : Instr → List (Phase × Phase)
  | .stat => []
  | .clr => []
  | .tok _ => [(.idle, .ingest), (.ingest, .ingest)]
  | .sym _ => [(.idle, .ingest), (.ingest, .ingest)]
  | .cnt => [(.idle, .counted), (.ingest, .counted)]
  | .bld => [(.counted, .built)]
  | .drv => [(.built, .derived), (.parsed, .parsed)]
  | .ser => [(.derived, .serialized)]
  | .enc => [(.serialized, .encoded)]
  | .fin => [(.encoded, .doneEnc)]
  | .byt _ => [(.idle, .load), (.load, .load)]
  | .par => [(.idle, .parsed), (.load, .parsed)]
  | .dec => [(.parsed, .decoded)]
  | .ras => [(.decoded, .doneDec)]
  | .rdb => [(.doneEnc, .doneEnc)]
  | .rdt => [(.doneDec, .doneDec)]

/-- What the head of every command rule says: the command's word (R93), and that in a phase the rule does not name, other than
`FAULT`, it raises `WRONG_PHASE` (R22, R96 step 5). -/
def RuleHead (i : Instr) (word : Word) (legal : List Phase) : Prop :=
  decode word = .ok i ∧ ∀ s : State, s.phase ≠ .fault → s.phase ∉ legal → exec i s = .next (faulted .wrongPhase s)

/-- The table of R36, item by item, with the response `0x0000` of `CLR` (R251); the interface fields `inbox` and `cfg` as in `s`. -/
def resetItems (s : State) : State where
  phase := .idle
  errCause := 0
  errDetail := 0
  tree :=
    { variant := .none
      k := 0
      root := none
      nextId := 11
      weight := Vector.replicate 21 0
      parent := Vector.replicate 21 none
      child := Vector.replicate 10 (none, none) }
  recOpen := false
  recNeg := false
  recNd := false
  recNz := false
  codeValid := false
  pad := 0
  hdrEnd := 0
  limit := 0
  ord := 0
  freq := Vector.replicate 11 0
  code := Vector.replicate 11 []
  symbuf := []
  bitbuf := []
  recs := []
  otok := []
  rsp := 0
  inbox := s.inbox
  cfg := s.cfg

/-- A record as text: an optional minus, then digits with leading zeros allowed. The commands that enter it (R133). -/
def textCommands (r : Bool × List (Fin 10)) : List Instr :=
  (if r.1 then [.tok 11] else []) ++ r.2.map (fun d => .tok (BitVec.ofNat 4 d.val)) ++ [.tok 10]

/-- The integer a record's text writes (R134). -/
def textValue (r : Bool × List (Fin 10)) : Int := if r.1 then -(value r.2 : Int) else value r.2

/-! ## Trees -/

/-- The tree of variant `FULL` with root `r` that R37 describes, with the unused entries `NONE` (R30, R31). -/
structure FullTree (t : Tree) (r : NodeId) : Prop where
  variant_full : t.variant = .full
  root_eq : t.root = some r
  /-- `2 <= K <= 11` and `ROOT = 9 + K` -/
  root_val : 2 ≤ t.k.toNat ∧ r.val = 9 + t.k.toNat
  nextId_eq : t.nextId.toNat = r.val + 1
  /-- `K` leaves have a parent -/
  leaf_count : (allSyms.filter fun s => t.parent[leafOf s].isSome).length = t.k.toNat
  /-- the internal nodes of the tree below the root, and no other, have a parent -/
  inner_parent : ∀ n : NodeId, 11 ≤ n.val → (t.parent[n].isSome ↔ n < r)
  /-- every parent is in 11 to `ROOT` -/
  parent_range : ∀ n p : NodeId, t.parent[n] = some p → 11 ≤ p.val ∧ p ≤ r
  /-- every internal node 11 to `ROOT` has both child slots filled, the smaller id in slot 0 -/
  children : ∀ p : NodeId, 11 ≤ p.val → p ≤ r →
    ∃ a b, childOf t p false = some a ∧ childOf t p true = some b ∧ a < b
  /-- the slots of the other internal ids are `NONE` -/
  no_children : ∀ p : NodeId, r < p → childOf t p false = none ∧ childOf t p true = none
  /-- `CHILD[p][b] = n` for some `b` exactly when `PARENT[n] = p` -/
  child_iff : ∀ n p : NodeId, (childOf t p false = some n ∨ childOf t p true = some n) ↔ t.parent[n] = some p
  /-- following `PARENT` from any node of the tree reaches `ROOT` in at most `K - 1` steps -/
  reaches_root : ∀ n : NodeId, (n = r ∨ t.parent[n].isSome) → climbParents t r (t.k.toNat - 1) (some n) = some r

/-- No internal node: `NEXT_ID`, `PARENT` and `CHILD` at their reset values (R155). -/
def NoInner (t : Tree) : Prop :=
  t.nextId = 11 ∧ t.parent = Vector.replicate 21 none ∧ t.child = Vector.replicate 10 (none, none)

/-- The legal values of the tree registers, by variant (R25, R37, R155). -/
def TreeWf (t : Tree) : Prop :=
  match t.variant with
  | .none => t = Tree.reset
  | .empty => t.k = 0 ∧ t.root = none ∧ NoInner t
  | .single => t.k = 1 ∧ (∃ x, t.root = some (leafOf x)) ∧ NoInner t
  | .full => ∃ r, FullTree t r

/-- The bits of the path from `ROOT` down to a node, as R200 records and reverses them: 0 if the node is the first-registered
child of its parent. -/
inductive CodePath (t : Tree) : NodeId → List Bool → Prop where
  | root (r : NodeId) (h : t.root = some r) : CodePath t r []
  | step (n p : NodeId) (w : List Bool) (hn : t.root ≠ some n) (hp : t.parent[n] = some p) (hw : CodePath t p w) :
      CodePath t n (w ++ [if childOf t p false = some n then false else true])

/-- A code table belongs to a tree (R201, R202): the path of every leaf of a `FULL` tree, `"0"` for the one symbol of a `SINGLE`
tree, `LEN` 0 for every other symbol. -/
def CodesOf (t : Tree) (codes : Vector (List Bool) 11) : Prop :=
  match t.variant with
  | .none => ∀ x : Sym, codes[x] = []
  | .empty => ∀ x : Sym, codes[x] = []
  | .single => ∀ x : Sym, codes[x] = if t.root = some (leafOf x) then [false] else []
  | .full => ∀ x : Sym, if t.parent[leafOf x] = none then codes[x] = [] else CodePath t (leafOf x) codes[x]

/-! ## What a command meets in its input -/

/-- R133: the symbols a digit appends: none for a leading zero, the sign marker first before the first non-zero digit of a negative
record. The flags of a record that is not open count as 0. -/
def digitSymbols (s : State) (d : Fin 10) : List Sym :=
  if s.recOpen = true ∧ s.recNz = true then [symOfDigit d]
  else if d = 0 then []
  else if s.recOpen = true ∧ s.recNeg = true then [0, symOfDigit d]
  else [symOfDigit d]

/-- Field `i` of a header, at positions `3 + 4i` to `6 + 4i` (R66, R104). -/
def fieldAt (s : State) (i : Nat) : Nat := bitRead s.bitbuf (3 + 4 * i) 4

/-- `BITLEN - PAD` as `PAR` reads it (R178). -/
def limitOf (s : State) : Nat := s.bitbuf.length - bitRead s.bitbuf 0 3

/-- The number of leaf fields that are not `ABSENT` (R178, stage B). -/
def leavesPresent (s : State) : Nat := ((List.range 11).filter fun i => fieldAt s i ≠ 10).length

/-- The largest legal value of field `i` of a `FULL` header (R106). -/
def fieldTop (i : Nat) : Nat := if i ≤ 10 then 10 else 9

/-- Field `i` names a parent: it is not an `ABSENT` leaf field (R105). -/
def namesParent (s : State) (i : Nat) : Bool := !(i ≤ 10 && fieldAt s i == 10)

/-- Field `i` breaks stage D of R178: its parent is above the root, or two smaller nodes have named that parent. -/
def breaksLinking (s : State) (i : Nat) : Prop :=
  namesParent s i = true ∧
    (9 + leavesPresent s < 11 + fieldAt s i ∨
      2 ≤ ((List.range i).filter fun j => namesParent s j && fieldAt s j == fieldAt s i).length)

/-- `k` parent steps from node `n` by the header's fields, staying at the root once there (R178, stage E). -/
def climbFields (s : State) : Nat → Nat → Nat
  | 0, n => n
  | k + 1, n => climbFields s k (if n = 9 + leavesPresent s then n else 11 + fieldAt s n)

/-! ## Invariants -/

/-- R24: `ERR` is 0 whenever `PHASE != FAULT` and both fields are non-zero whenever `PHASE = FAULT`. -/
abbrev ErrWf (s : State) : Prop :=
  if s.phase = .fault then s.errCause ≠ 0 ∧ s.errDetail ≠ 0 else s.errCause = 0 ∧ s.errDetail = 0

/-- R26: all four record flags are 0 whenever `REC_OPEN` is 0; a non-zero digit is a digit; a record is open only in `INGEST`. -/
abbrev RecFlagsWf (s : State) : Prop :=
  (s.recOpen = false → s.recNeg = false ∧ s.recNd = false ∧ s.recNz = false) ∧
    (s.recNz = true → s.recNd = true) ∧ (s.recOpen = true → s.phase = .ingest)

/-- A length is within a capacity. -/
def inCap (cap : Option Nat) (n : Nat) : Prop := ∀ c, cap = some c → n ≤ c

/-- R65 and R263 (a): every buffer is within its capacity and every count within `FREQ_W`, in a well-formed configuration. -/
def WithinCapacity (s : State) : Prop :=
  s.cfg.wellFormed = true ∧ inCap s.cfg.symbufCap s.symbuf.length ∧ inCap s.cfg.bitbufCap s.bitbuf.length ∧
    inCap s.cfg.otokCap s.otok.length ∧ ∀ w, s.cfg.freqW = some w → ∀ x : Sym, s.freq[x] < 2 ^ w

/-- The reset values with the phase and the interface fields of `s`. -/
def blankOf (s : State) : State := { State.reset with phase := s.phase, rsp := s.rsp, inbox := s.inbox, cfg := s.cfg }

/-- What the encode path holds once the tree is built: the symbols, their counts, the tree of the counts. -/
def builtOf (s : State) : State :=
  { blankOf s with
    symbuf := s.symbuf
    freq := countSyms s.symbuf
    tree := buildTree (countSyms s.symbuf) Tree.reset }

/-- What the decode path holds once the header is parsed; the code table only after the optional `DRV`. -/
def parsedOf (s : State) : State :=
  { blankOf s with
    bitbuf := s.bitbuf
    pad := s.pad
    limit := s.limit
    hdrEnd := s.hdrEnd
    tree := s.tree
    code := s.code
    codeValid := s.codeValid }

/-- The header is parsed, and the code table is the tree's or blank. -/
def ParsedWell (s : State) : Prop :=
  s.bitbuf.length % 8 = 0 ∧ parseBlob s.bitbuf Tree.reset = .ok ⟨s.pad, s.limit, s.hdrEnd, s.tree⟩ ∧
    (if s.codeValid then deriveCodes s.tree = .ok s.code else s.code = Vector.replicate 11 [])

/-- Every register holds exactly what the phase promises (R21, R22, R36, R280): the invariant of every run from reset. -/
def PhaseHolds (s : State) : Prop :=
  match s.phase with
  | .idle => s = blankOf s
  | .fault => s = { blankOf s with errCause := s.errCause, errDetail := s.errDetail }
  | .ingest =>
    s = { blankOf s with
          symbuf := s.symbuf, recOpen := s.recOpen, recNeg := s.recNeg, recNd := s.recNd, recNz := s.recNz } ∧
      RecFlagsWf s
  | .counted => s = { blankOf s with symbuf := s.symbuf, freq := countSyms s.symbuf }
  | .built => s = builtOf s
  | .derived => s = { builtOf s with code := s.code, codeValid := true } ∧ deriveCodes s.tree = .ok s.code
  | .serialized =>
    s = { builtOf s with code := s.code, codeValid := true, bitbuf := s.bitbuf, hdrEnd := s.hdrEnd } ∧
      deriveCodes s.tree = .ok s.code ∧
      ∃ fs, headerFields s.tree = .ok fs ∧ s.hdrEnd = 3 + 4 * fs.length ∧
        s.bitbuf = natBits 3 0 ++ fs.flatMap (natBits 4)
  | .encoded =>
    s = { builtOf s with code := s.code, codeValid := true, bitbuf := s.bitbuf, hdrEnd := s.hdrEnd } ∧
      deriveCodes s.tree = .ok s.code ∧
      ∃ fs, headerFields s.tree = .ok fs ∧ s.hdrEnd = 3 + 4 * fs.length ∧
        s.bitbuf = natBits 3 0 ++ fs.flatMap (natBits 4) ++ s.symbuf.flatMap fun x => s.code[x]
  | .doneEnc =>
    s = { builtOf s with
          code := s.code, codeValid := true, bitbuf := s.bitbuf, hdrEnd := s.hdrEnd, pad := s.pad, ord := s.ord } ∧
      deriveCodes s.tree = .ok s.code ∧ encodeSymbols s.symbuf = .ok s.bitbuf ∧
      s.pad = bitRead s.bitbuf 0 3 ∧ s.ord ≤ s.bitbuf.length / 8
  | .load => s = { blankOf s with bitbuf := s.bitbuf } ∧ s.bitbuf ≠ [] ∧ s.bitbuf.length % 8 = 0
  | .parsed => s = parsedOf s ∧ ParsedWell s
  | .decoded =>
    s = { parsedOf s with symbuf := s.symbuf } ∧ ParsedWell s ∧
      decodeBody s.cfg.symbufCap s.tree s.bitbuf s.hdrEnd s.limit = .ok s.symbuf
  | .doneDec =>
    s = { parsedOf s with symbuf := s.symbuf, recs := s.recs, otok := s.otok, ord := s.ord } ∧ ParsedWell s ∧
      decodeBody s.cfg.symbufCap s.tree s.bitbuf s.hdrEnd s.limit = .ok s.symbuf ∧
      reassemble s.cfg.otokCap s.symbuf = .ok (s.recs, s.otok) ∧ s.ord ≤ s.otok.length

end Sys2Proof.Safety
end

