-- ==== Sys2Proof/Certificates/Slice0/Obligations.lean ====
section
/-! DEFINITION. The statements for the provers, each from a numbered rule of spec/ (OBLIGATIONS.json gives title, rule and quote). -/

open Sys2Proof Sys2Proof.Machine Sys2Proof.Safety

/-! ## Command words -/

/-- R90 to R94: the decoder reads back every command the encoder writes; no operand bit is dropped. -/
def Obligations.DecodeInvertsEncode : Prop := ∀ i : Instr, decode (encode i) = .ok i

/-- R94: the well-formed words are exactly the words of commands; every other word is rejected. -/
def Obligations.DecodeAcceptsExactlyTheWellFormedWords : Prop :=
  ∀ w : Word, (wordWellFormed w = true → ∃ i, decode w = .ok i ∧ encode i = w) ∧
    (wordWellFormed w = false → decode w = .error .reservedBits)

/-- R93: a well-formed word selects one row of the opcode map, every other word none. -/
def Obligations.OpcodeMapSelectsOneRow : Prop :=
  ∀ w : Word, (opcodeMap.filter fun r => w &&& r.mask == r.pattern).length = if wordWellFormed w then 1 else 0

/-- R97: the word of a command is `OP * 4096 + operand`. -/
def Obligations.WordIsOpcodeTimes4096PlusOperand : Prop :=
  ∀ i : Instr, (encode i).toNat = (opcodeOf i).toNat * 4096 + (operandOf i).toNat

/-- 95_test_vectors.md 2.14 and R91: words written out from the encoding. -/
def Obligations.SpecWordsDecode : Prop :=
  decode 0b0000_0000_0000_0000 = .ok .stat ∧ decode 0b0010_0000_0000_1011 = .ok (.tok 11) ∧
    decode 0b0011_0000_0000_0111 = .ok (.sym 7) ∧ decode 0b1010_0000_0011_1110 = .ok (.byt 0x3E) ∧
    decode 0b1111_0000_0000_0000 = .ok .rdt ∧ decode 0b0001_0001_0000_0000 = .error .reservedBits ∧
    decode 0b0010_0000_0001_0000 = .error .reservedBits ∧ decode 0b0100_0000_0000_0001 = .error .reservedBits

/-! ## One step -/

/-- R12, R96: a presented word is what the step acts on; if it decodes to `i`, the step is `exec i` on the state with that input taken
(log 1). -/
def Obligations.StepRunsTheDecodedCommand : Prop :=
  ∀ (s : State) (w : Word) (rest : List HostInput), s.inbox = .command w :: rest →
    step s = takeCommand w { s with inbox := rest } ∧ ∀ i : Instr, decode w = .ok i → step s = exec i { s with inbox := rest }

/-- R276, R96 steps 1 and 2: an ill-formed word raises `RESERVED_BITS`, cause 6 and detail 1, in every phase but `FAULT`, where it changes
nothing. -/
def Obligations.IllFormedWordRaisesReservedBits : Prop :=
  (causeCode .reservedBits = 6 ∧ detailCode .reservedBits = 1) ∧
    ∀ (s : State) (w : Word), wordWellFormed w = false →
      takeCommand w s = .next (if s.phase = .fault then { s with rsp := faultWord s.errCause } else faulted .reservedBits s)

/-- R310, R311: the reset input has the effect of `CLR`; with nothing presented the core waits (log 1; the response port after the reset
input is log 2). -/
def Obligations.ResetInputClearsAndEmptyPortWaits : Prop :=
  ∀ s : State,
    (∀ rest, s.inbox = .reset :: rest → step s = .next (resetItems { s with inbox := rest })) ∧ (s.inbox = [] → step s = .next s)

/-! ## Faults -/

/-- R280: fault entry gives every item its reset value, sets `PHASE` and `ERR`, and answers `0x8000 + CAUSE * 2048`. -/
def Obligations.FaultEntryClearsEveryItem : Prop := ∀ (e : ErrCode) (s : State), s.raise e = faulted e s

/-- R281: in `FAULT` every command but `STAT` and `CLR`, well formed or not, changes nothing and answers the kept fault; `STAT` does not
change it either. -/
def Obligations.FaultIsSticky : Prop :=
  ∀ s : State, s.phase = .fault →
    (∀ i : Instr, i ≠ .stat → i ≠ .clr → exec i s = .next { s with rsp := faultWord s.errCause }) ∧
    (∀ w : Word, wordWellFormed w = false → takeCommand w s = .next { s with rsp := faultWord s.errCause }) ∧
    ∃ t, exec .stat s = .next t ∧ t = { s with rsp := t.rsp }

/-- R22, R277: a command in a phase its row of the table does not list raises `WRONG_PHASE`. -/
def Obligations.WrongPhaseRaisesSequenceError : Prop :=
  ∀ (i : Instr) (s : State), i ≠ .stat → i ≠ .clr → s.phase ≠ .fault → s.phase ∉ (phaseTable i).map Prod.fst →
    exec i s = .next (faulted .wrongPhase s)

/-- R22, R23: after a command `PHASE` is the table's next phase, or `FAULT`, or unchanged by `STAT`, or `IDLE` after `CLR`; no command
touches the host's inputs or the parameters. -/
def Obligations.PhaseAfterEachCommand : Prop :=
  ∀ (i : Instr) (s t : State), exec i s = .next t →
    t.inbox = s.inbox ∧ t.cfg = s.cfg ∧
      ((i = .stat ∧ t.phase = s.phase) ∨ (i = .clr ∧ t.phase = .idle) ∨
        (i ≠ .stat ∧ i ≠ .clr ∧ (t.phase = .fault ∨ (s.phase, t.phase) ∈ phaseTable i)))

/-- R282: the only exits from `FAULT` are `CLR` and reset, and they keep nothing of the call (inputs as log 1 says, the response after
reset as log 2). -/
def Obligations.FaultIsLeftOnlyByClear : Prop :=
  ∀ s t : State, s.phase = .fault → step s = .next t → t.phase ≠ .fault →
    ∃ rest, (s.inbox = .command 0x1000 :: rest ∨ s.inbox = .reset :: rest) ∧ t = resetItems { s with inbox := rest }

/-! ## System commands -/

/-- R250, R95: `STAT` changes no item, in every phase, and answers the status bits with `DETAIL * 16 + PHASE`. -/
def Obligations.StatReportsStatus : Prop :=
  decode 0x0000 = .ok .stat ∧
    ∀ s : State, ∃ t, exec .stat s = .next t ∧ t = { s with rsp := t.rsp } ∧
      t.rsp.toNat = (if s.phase = .fault then 0x8000 else 0) +
        (if (s.phase = .doneEnc ∧ s.ord < s.bitbuf.length / 8) ∨ (s.phase = .doneDec ∧ s.ord < s.otok.length) then 0x4000 else 0) +
        s.errCause.toNat * 2048 + s.errDetail.toNat * 16 + (phaseCode s.phase).toNat

/-- R251: `CLR` gives every item its reset value of R36, in every phase, and answers `0x0000`. -/
def Obligations.ClrRestoresTheResetState : Prop :=
  decode 0x1000 = .ok .clr ∧ ∀ s : State, exec .clr s = .next (resetItems s)

/-- R252: `RDB` answers byte `ORD` of the blob and advances `ORD`; past the end it raises `OVERREAD`. -/
def Obligations.RdbReadsTheNextByte : Prop :=
  RuleHead .rdb 0xE000 [.doneEnc] ∧
    ∀ s : State, s.phase = .doneEnc → ErrWf s →
      exec .rdb s = .next (if s.ord < s.bitbuf.length / 8 then
        { s with
          ord := s.ord + 1
          rsp := BitVec.ofNat 16 ((if s.ord + 1 < s.bitbuf.length / 8 then 0x4000 else 0) + bitRead s.bitbuf (8 * s.ord) 8) }
        else faulted .overread s)

/-- R253: `RDT` answers token `ORD` and advances `ORD`; past the end it raises `OVERREAD`. -/
def Obligations.RdtReadsTheNextToken : Prop :=
  RuleHead .rdt 0xF000 [.doneDec] ∧
    ∀ s : State, s.phase = .doneDec → ErrWf s →
      (∀ k, s.otok[s.ord]? = some k →
        exec .rdt s = .next { s with
          ord := s.ord + 1
          rsp := BitVec.ofNat 16 ((if s.ord + 1 < s.otok.length then 0x4000 else 0) + (tokenCode k).toNat) }) ∧
        (s.otok.length ≤ s.ord → exec .rdt s = .next (faulted .overread s))

/-- R95: the response word of every command is the status bits of the state after it, with the data result the rule gives. -/
def Obligations.ResponseWordTellsTheStateAfter : Prop :=
  ∀ (i : Instr) (s t : State), exec i s = .next t →
    ∃ d, d < 256 ∧
      t.rsp.toNat = (if t.phase = .fault then 0x8000 else 0) +
        (if (t.phase = .doneEnc ∧ t.ord < t.bitbuf.length / 8) ∨ (t.phase = .doneDec ∧ t.ord < t.otok.length) then 0x4000 else 0) +
        t.errCause.toNat * 2048 + d ∧
      (i = .stat → d = t.errDetail.toNat * 16 + (phaseCode t.phase).toNat) ∧
      (i = .rdb → t.phase ≠ .fault → d = bitRead t.bitbuf (8 * s.ord) 8) ∧
      (i = .rdt → t.phase ≠ .fault → ∃ k, t.otok[s.ord]? = some k ∧ d = (tokenCode k).toNat) ∧
      (i ≠ .stat → (i ≠ .rdb ∧ i ≠ .rdt) ∨ t.phase = .fault → d = 0)

/-! ## Record front end -/

/-- R133: `MINUS` opens a negative record. -/
def Obligations.TokMinusOpensANegativeRecord : Prop :=
  ∀ s : State, (s.phase = .idle ∨ s.phase = .ingest) → ErrWf s → s.recOpen = false →
    exec (.tok 11) s = .next { s with
      recOpen := true, recNeg := true, recNd := false, recNz := false, phase := .ingest, rsp := 0 }

/-- R133: a digit. -/
def Obligations.TokDigitAppendsItsSymbols : Prop :=
  ∀ (s : State) (d : Fin 10), (s.phase = .idle ∨ s.phase = .ingest) → ErrWf s →
    exec (.tok (BitVec.ofNat 4 d.val)) s = .next (if fits s.cfg.symbufCap s.symbuf.length (digitSymbols s d).length then
      { s with
        symbuf := s.symbuf ++ digitSymbols s d
        recOpen := true
        recNeg := s.recOpen && s.recNeg
        recNd := true
        recNz := (s.recOpen && s.recNz) || d != 0
        phase := .ingest
        rsp := 0 }
      else faulted .symbufFull s)

/-- R133: `END` of a record with a digit; a record of zeros only is the symbol `0`. -/
def Obligations.TokEndClosesTheRecord : Prop :=
  ∀ s : State, (s.phase = .idle ∨ s.phase = .ingest) → ErrWf s → s.recOpen = true → s.recNd = true →
    exec (.tok 10) s = .next (if fits s.cfg.symbufCap s.symbuf.length (if s.recNz then 1 else 2) then
      { s with
        symbuf := s.symbuf ++ if s.recNz then [Sym.sep] else [0, Sym.sep]
        recOpen := false
        recNeg := false
        recNd := false
        recNz := false
        phase := .ingest
        rsp := 0 }
      else faulted .symbufFull s)

/-- R136: `SYM` appends its symbol between records; `RECORD_OPEN` is checked before `BAD_SYMBOL`. -/
def Obligations.SymAppendsOneSymbol : Prop :=
  (∀ x : BitVec 4, RuleHead (.sym x) (0x3000 + x.setWidth 16) [.idle, .ingest]) ∧
    ∀ s : State, (s.phase = .idle ∨ s.phase = .ingest) → ErrWf s →
      (s.recOpen = true → ∀ x : BitVec 4, exec (.sym x) s = .next (faulted .recordOpen s)) ∧
      (s.recOpen = false → ∀ x : BitVec 4, 11 ≤ x.toNat → exec (.sym x) s = .next (faulted .badSymbol s)) ∧
      (s.recOpen = false → ∀ x : Sym, exec (.sym (BitVec.ofNat 4 x.val)) s =
        .next (if fits s.cfg.symbufCap s.symbuf.length 1 then { s with symbuf := s.symbuf ++ [x], phase := .ingest, rsp := 0 }
          else faulted .symbufFull s))

/-- R133, R283: the faults of `TOK`; each leaves nothing of the command. -/
def Obligations.TokFaults : Prop :=
  (∀ t : BitVec 4, RuleHead (.tok t) (0x2000 + t.setWidth 16) [.idle, .ingest]) ∧
    ∀ s : State, (s.phase = .idle ∨ s.phase = .ingest) →
      (∀ t : BitVec 4, 12 ≤ t.toNat → exec (.tok t) s = .next (faulted .badToken s)) ∧
      (s.recOpen = true → exec (.tok 11) s = .next (faulted .minusNotLeading s)) ∧
      (s.recOpen = false ∨ s.recNd = false → exec (.tok 10) s = .next (faulted .emptyRecord s))

/-- R134: a record entered as an optional `MINUS`, digits and `END` appends the projection of its value, or does not fit. -/
def Obligations.RecordEntryProjectsItsValue : Prop :=
  ∀ (s : State) (r : Bool × List (Fin 10)),
    (s.phase = .idle ∨ s.phase = .ingest) → ErrWf s → s.recOpen = false → r.2 ≠ [] →
      execAll (textCommands r) s = .next (if fits s.cfg.symbufCap s.symbuf.length (project (textValue r)).length then
        { s with
          symbuf := s.symbuf ++ project (textValue r)
          recOpen := false
          recNeg := false
          recNd := false
          recNz := false
          phase := .ingest
          rsp := 0 }
        else faulted .symbufFull s)

/-- R11: `digits(n)` is the one decimal digit sequence of `n` without a leading zero, `[0]` for 0; `value(g)` is the sum of `g_i` times
ten to its place. -/
def Obligations.DigitsAreMinimal : Prop :=
  (∀ g : List (Fin 10), value g = (g.zipIdx.map fun p => p.1.val * 10 ^ (g.length - 1 - p.2)).sum) ∧
    ∀ n : Nat, value (digits n) = n ∧ digits 0 = [0] ∧ (n ≠ 0 → (digits n).head? ≠ some 0) ∧
      ∀ g : List (Fin 10), g ≠ [] → g.head? ≠ some 0 → value g = n → g = digits n

/-! ## Counter and tree builder -/

/-- R150, R151: `CNT` counts every symbol of the stream; the counts add up to its length; an open record is `RECORD_OPEN`. -/
def Obligations.CntCountsEverySymbol : Prop :=
  RuleHead .cnt 0x4000 [.idle, .ingest] ∧
    ∀ s : State, (s.phase = .idle ∨ s.phase = .ingest) → ErrWf s →
      (s.recOpen = true → exec .cnt s = .next (faulted .recordOpen s)) ∧
      (s.recOpen = false →
        ∃ t, exec .cnt s = .next t ∧ t = { s with freq := t.freq, phase := .counted, rsp := 0 } ∧
          (∀ x : Sym, t.freq[x] = (s.symbuf.filter (· = x)).length) ∧ (allSyms.map fun x => t.freq[x]).sum = s.symbuf.length)

/-- R154, R155: `BLD` with no symbol or one symbol makes the tagged shape and no internal node. -/
def Obligations.BldMakesTheDegenerateShapes : Prop :=
  RuleHead .bld 0x5000 [.counted] ∧ ∀ s : State, s.phase = .counted → ErrWf s →
    ((∀ y : Sym, s.freq[y] = 0) →
      exec .bld s = .next { s with
        tree := { s.tree with variant := .empty, k := 0, root := none, nextId := 11 }, phase := .built, rsp := 0 }) ∧
    (∀ x : Sym, 0 < s.freq[x] → (∀ y : Sym, y ≠ x → s.freq[y] = 0) →
      exec .bld s = .next { s with
        tree := { s.tree with
          variant := .single, k := 1, root := some (leafOf x), nextId := 11, weight := s.tree.weight.set (leafOf x) s.freq[x] }
        phase := .built
        rsp := 0 })

/-- R37, R154, R157: with two or more symbols `BLD` makes a finished tree over exactly the symbols that occur, with the counts as leaf
weights, sums above them, and every parent created after its children. -/
def Obligations.BldBuildsAFinishedTree : Prop :=
  ∀ s : State, s.phase = .counted → ErrWf s → s.tree = Tree.reset →
    2 ≤ (allSyms.filter fun x => 0 < s.freq[x]).length →
    ∃ T r, exec .bld s = .next { s with tree := T, phase := .built, rsp := 0 } ∧ FullTree T r ∧
      T.k.toNat = (allSyms.filter fun x => 0 < s.freq[x]).length ∧
      (∀ x : Sym, T.weight[leafOf x] = s.freq[x] ∧ (T.parent[leafOf x].isSome ↔ 0 < s.freq[x])) ∧
      (∀ n a b : NodeId, childOf T n false = some a → childOf T n true = some b →
        T.weight[n] = T.weight[a] + T.weight[b]) ∧
      (∀ n : NodeId, r < n → T.weight[n] = 0) ∧
      T.weight[r] = (allSyms.map fun x => s.freq[x]).sum ∧
      ∀ n p : NodeId, T.parent[n] = some p → n < p

/-- R153, R154: every merge takes the two lowest candidates on `(weight, id)`: a node that is still undecided when `n` is made (a leaf or
an older internal node whose own parent is made later) is higher than both children of `n`. -/
def Obligations.BldMergesTheTwoLowest : Prop :=
  ∀ (f : Vector Nat 11) (n a b u q : NodeId),
    childOf (buildTree f Tree.reset) n false = some a → childOf (buildTree f Tree.reset) n true = some b →
    u ≠ a → u ≠ b → u < n → (buildTree f Tree.reset).parent[u] = some q → n < q →
      let w := (buildTree f Tree.reset).weight
      (w[a] < w[u] ∨ (w[a] = w[u] ∧ a < u)) ∧ (w[b] < w[u] ∨ (w[b] = w[u] ∧ b < u))

/-! ## Code table -/

/-- R201, R202: `DRV` writes the code table of the tree and sets `CODE_VALID`; from `BUILT` it goes on to `DERIVED`. -/
def Obligations.DrvDerivesTheCodes : Prop :=
  RuleHead .drv 0x6000 [.built, .parsed] ∧
    ∀ s : State, (s.phase = .built ∨ s.phase = .parsed) → ErrWf s → TreeWf s.tree →
      ∃ codes, exec .drv s = .next { s with
        code := codes
        codeValid := true
        phase := if s.phase = .built then .derived else .parsed
        rsp := 0 } ∧ CodesOf s.tree codes

/-- R200, R204: the codes of a finished tree are 1 to `K - 1` bits long, none is a prefix of another, and their Kraft sum is 1. -/
def Obligations.CodesArePrefixFreeAndComplete : Prop :=
  ∀ (t : Tree) (r : NodeId) (codes : Vector (List Bool) 11), FullTree t r → CodesOf t codes →
    (∀ x : Sym, t.parent[leafOf x].isSome → 1 ≤ codes[x].length ∧ codes[x].length ≤ t.k.toNat - 1) ∧
    (∀ x y : Sym, x ≠ y → codes[x] ≠ [] → codes[y] ≠ [] → ¬ codes[x] <+: codes[y]) ∧
    ((allSyms.filter fun x => codes[x] ≠ []).map fun x => (1 : ℚ) / 2 ^ codes[x].length).sum = 1

/-- R205: a bit sequence is the code of a symbol exactly when the walk from the root ends at its leaf. -/
def Obligations.LookupInvertsTheCodeTable : Prop :=
  ∀ (t : Tree) (r : NodeId) (codes : Vector (List Bool) 11), FullTree t r → CodesOf t codes →
    ∀ (w : List Bool) (x : Sym), lookup t w = some x ↔ codes[x] = w ∧ w ≠ []

/-! ## Tree codec -/

/-- R170, R173: `SER` writes the placeholder and the header fields of the tree. -/
def Obligations.SerWritesPlaceholderAndFields : Prop :=
  RuleHead .ser 0x7000 [.derived] ∧
    ∀ s : State, s.phase = .derived → ErrWf s → TreeWf s.tree → s.tree.variant ≠ .none →
      ∃ fs : List Nat,
        exec .ser s = .next (if fits s.cfg.bitbufCap 0 (3 + 4 * fs.length) then
          { s with
            bitbuf := [false, false, false] ++ fs.flatMap (natBits 4)
            hdrEnd := 3 + 4 * fs.length
            phase := .serialized
            rsp := 0 }
          else faulted .bitbufFull s) ∧
        (s.tree.variant = .empty → fs = [15]) ∧
        (∀ x : Sym, s.tree.variant = .single → s.tree.root = some (leafOf x) → fs = [14, x.val]) ∧
        (∀ r : NodeId, s.tree.variant = .full → s.tree.root = some r →
          fs.length = r.val ∧
            ∀ n : NodeId, n < r → fs[n.val]? = some (match s.tree.parent[n] with | none => 10 | some p => p.val - 11))

/-- R178, stage 0 and stage A: `PAR` of an `EMPTY` and of a `SINGLE` header. -/
def Obligations.ParReadsTheDegenerateHeaders : Prop :=
  ∀ (s : State) (p : Nat) (rest : List Bool), (s.phase = .idle ∨ s.phase = .load) → ErrWf s → p < 8 →
    (s.bitbuf = natBits 3 p ++ natBits 4 15 ++ rest → 7 + p ≤ s.bitbuf.length →
      exec .par s = .next { s with
        pad := p, limit := s.bitbuf.length - p, hdrEnd := 7
        tree := { s.tree with variant := .empty, k := 0, root := none }, phase := .parsed, rsp := 0 }) ∧
    (∀ x : Sym, s.bitbuf = natBits 3 p ++ natBits 4 14 ++ natBits 4 x.val ++ rest → 11 + p ≤ s.bitbuf.length →
      exec .par s = .next { s with
        pad := p, limit := s.bitbuf.length - p, hdrEnd := 11
        tree := { s.tree with variant := .single, k := 1, root := some (leafOf x) }, phase := .parsed, rsp := 0 })

/-- R178, R182, R184: `PAR` rebuilds every finished tree, one that `BLD` makes or not, from the fields `SER` writes for it. -/
def Obligations.ParRebuildsEveryFinishedTree : Prop :=
  ∀ (s : State) (T : Tree) (r : NodeId) (fs : List Nat) (p : Nat) (rest : List Bool),
    (s.phase = .idle ∨ s.phase = .load) → ErrWf s → s.tree = Tree.reset →
    FullTree T r → T.weight = Vector.replicate 21 0 → headerFields T = .ok fs →
    p < 8 → s.bitbuf = natBits 3 p ++ fs.flatMap (natBits 4) ++ rest → 3 + 4 * fs.length + p ≤ s.bitbuf.length →
      exec .par s = .next { s with
        pad := p, limit := s.bitbuf.length - p, hdrEnd := 3 + 4 * fs.length, tree := T, phase := .parsed, rsp := 0 }

/-- R37, R178 to R181: what `PAR` accepts is a finished tree, a `SINGLE` or an `EMPTY` one, and the header it read is that tree's. -/
def Obligations.ParAcceptsOnlyFinishedTrees : Prop :=
  ∀ s t : State, s.tree = Tree.reset → exec .par s = .next t → t.phase = .parsed →
    TreeWf t.tree ∧ t.tree.variant ≠ .none ∧ t.tree.weight = Vector.replicate 21 0 ∧
      t.bitbuf = s.bitbuf ∧ t.pad = bitRead s.bitbuf 0 3 ∧ t.limit = s.bitbuf.length - t.pad ∧ t.hdrEnd ≤ t.limit ∧
      ∃ fs, headerFields t.tree = .ok fs ∧ t.hdrEnd = 3 + 4 * fs.length ∧
        (s.bitbuf.drop 3).take (4 * fs.length) = fs.flatMap (natBits 4)

/-- R178, R179: the faults of the pad-length, of the first field and of a `SINGLE` header. -/
def Obligations.ParFirstFieldFaults : Prop :=
  RuleHead .par 0xB000 [.idle, .load] ∧ ∀ s : State, (s.phase = .idle ∨ s.phase = .load) →
    (s.bitbuf.length < 3 → exec .par s = .next (faulted .noPadField s)) ∧
    (3 ≤ s.bitbuf.length → limitOf s < 7 → exec .par s = .next (faulted .header s)) ∧
    (7 ≤ limitOf s → 11 ≤ fieldAt s 0 → fieldAt s 0 ≤ 13 → exec .par s = .next (faulted .reservedField s)) ∧
    (7 ≤ limitOf s → limitOf s < 11 → fieldAt s 0 = 14 → exec .par s = .next (faulted .header s)) ∧
    (11 ≤ limitOf s → fieldAt s 0 = 14 → 11 ≤ fieldAt s 1 → exec .par s = .next (faulted .badSingleSym s))

/-- R178, R179: the fields of a `FULL` header are examined in stream order, availability before value; the leaf count comes after the
eleventh leaf field. -/
def Obligations.ParFieldFaultsInStreamOrder : Prop :=
  ∀ s : State, (s.phase = .idle ∨ s.phase = .load) → 7 ≤ limitOf s → fieldAt s 0 ≤ 10 →
    (∀ i : Nat, 1 ≤ i → (∀ j, j < i → 7 + 4 * j ≤ limitOf s ∧ fieldAt s j ≤ fieldTop j) →
      (i ≤ 10 ∨ (2 ≤ leavesPresent s ∧ i < 9 + leavesPresent s)) →
      (limitOf s < 7 + 4 * i → exec .par s = .next (faulted .header s)) ∧
      (7 + 4 * i ≤ limitOf s → fieldTop i < fieldAt s i → exec .par s = .next (faulted .reservedField s))) ∧
    ((∀ j, j ≤ 10 → 7 + 4 * j ≤ limitOf s ∧ fieldAt s j ≤ 10) → leavesPresent s < 2 →
      exec .par s = .next (faulted .tooFewLeaves s))

/-- R178 stages D and E, R179: with every field present and in range, the first node that breaks the linking is reported, `NO_SUCH_NODE`
before `THIRD_CHILD`; if none does, a node that does not reach the root is `CYCLE`. -/
def Obligations.ParStructureFaults : Prop :=
  ∀ s : State, (s.phase = .idle ∨ s.phase = .load) → s.tree = Tree.reset → 2 ≤ leavesPresent s →
    (∀ j, j < 9 + leavesPresent s → 7 + 4 * j ≤ limitOf s ∧ fieldAt s j ≤ fieldTop j) →
    (∀ i, i < 9 + leavesPresent s → breaksLinking s i → (∀ j, j < i → ¬ breaksLinking s j) →
      exec .par s = .next (faulted (if 9 + leavesPresent s < 11 + fieldAt s i then .noSuchNode else .thirdChild) s)) ∧
    ((∀ i, i < 9 + leavesPresent s → ¬ breaksLinking s i) →
      ∀ n, 11 ≤ n → n < 9 + leavesPresent s → climbFields s (leavesPresent s - 1) n ≠ 9 + leavesPresent s →
        exec .par s = .next (faulted .cycle s))

/-! ## Stream codec -/

/-- R212: `ENC` appends the code of every symbol in stream order; the first symbol without a code is `NO_CODE`. -/
def Obligations.EncAppendsTheCodes : Prop :=
  RuleHead .enc 0x8000 [.serialized] ∧
    ∀ s : State, s.phase = .serialized → ErrWf s →
      ((∀ x ∈ s.symbuf, s.code[x] ≠ []) →
        exec .enc s = .next (if fits s.cfg.bitbufCap s.bitbuf.length (s.symbuf.flatMap fun x => s.code[x]).length then
          { s with bitbuf := s.bitbuf ++ s.symbuf.flatMap (fun x => s.code[x]), phase := .encoded, rsp := 0 }
          else faulted .bitbufFull s)) ∧
      ∀ (before after : List Sym) (x : Sym), s.symbuf = before ++ x :: after → (∀ y ∈ before, s.code[y] ≠ []) → s.code[x] = [] →
        exec .enc s = .next (faulted
          (if fits s.cfg.bitbufCap s.bitbuf.length (before.flatMap fun y => s.code[y]).length then .noCode else .bitbufFull) s)

/-- R213, R214: `FIN` appends the 0 to 7 zero bits to the next byte boundary and backfills their number into positions 0 to 2. -/
def Obligations.FinPadsAndBackfills : Prop :=
  RuleHead .fin 0x9000 [.encoded] ∧
    ∀ s : State, s.phase = .encoded → ErrWf s → 3 ≤ s.bitbuf.length →
      ∃ p : Nat, p = (8 - s.bitbuf.length % 8) % 8 ∧ p < 8 ∧ (s.bitbuf.length + p) % 8 = 0 ∧
        exec .fin s = .next (if fits s.cfg.bitbufCap s.bitbuf.length p then
          { s with
            pad := p
            bitbuf := [p.testBit 2, p.testBit 1, p.testBit 0] ++ s.bitbuf.drop 3 ++ List.replicate p false
            ord := 0
            phase := .doneEnc
            rsp := 0x4000 }
          else faulted .bitbufFull s)

/-- R217, R61: `BYT` appends the eight bits of its byte, bit 7 first. -/
def Obligations.BytAppendsEightBits : Prop :=
  (∀ b : Byte, RuleHead (.byt b) (0xA000 + b.setWidth 16) [.idle, .load]) ∧
    ∀ (s : State) (b : Byte), (s.phase = .idle ∨ s.phase = .load) → ErrWf s →
      exec (.byt b) s = .next (if fits s.cfg.bitbufCap s.bitbuf.length 8 then
        { s with
          bitbuf := s.bitbuf ++
            [b.getLsbD 7, b.getLsbD 6, b.getLsbD 5, b.getLsbD 4, b.getLsbD 3, b.getLsbD 2, b.getLsbD 1, b.getLsbD 0]
          phase := .load
          rsp := 0 }
        else faulted .bitbufFull s)

/-- R220, R221, R222: `DEC` of a `FULL` body: whole codes give their symbols; a rest that ends inside a code is `MID_SYMBOL`. -/
def Obligations.DecWalksTheFullBody : Prop :=
  ∀ (s : State) (r : NodeId) (codes : Vector (List Bool) 11) (S : List Sym) (rest : List Bool),
    s.phase = .parsed → ErrWf s → FullTree s.tree r → CodesOf s.tree codes → s.limit ≤ s.bitbuf.length →
    (∀ x ∈ S, codes[x] ≠ []) →
    (s.bitbuf.take s.limit).drop s.hdrEnd = S.flatMap (fun x => codes[x]) ++ rest →
    (rest = [] → fits s.cfg.symbufCap 0 S.length = true →
      exec .dec s = .next { s with symbuf := S, phase := .decoded, rsp := 0 }) ∧
    (∀ y : Sym, rest ≠ [] → rest <+: codes[y] → rest ≠ codes[y] → fits s.cfg.symbufCap 0 S.length = true →
      exec .dec s = .next (faulted .midSymbol s)) ∧
    (fits s.cfg.symbufCap 0 S.length = false → exec .dec s = .next (faulted .symbufFull s))

/-- R220, R223: `DEC` of an `EMPTY` body, which must have no bit, and of a `SINGLE` body, whose bits must be 0. -/
def Obligations.DecOfTheDegenerateBodies : Prop :=
  RuleHead .dec 0xC000 [.parsed] ∧ ∀ s : State, s.phase = .parsed → ErrWf s →
    (s.tree.variant = .empty →
      exec .dec s = .next (if s.hdrEnd = s.limit then { s with symbuf := [], phase := .decoded, rsp := 0 }
        else faulted .bodyNotEmpty s)) ∧
    (∀ (x : Sym) (n : Nat) (rest : List Bool),
      s.tree.variant = .single → s.tree.root = some (leafOf x) → s.limit ≤ s.bitbuf.length →
      (s.bitbuf.take s.limit).drop s.hdrEnd = List.replicate n false ++ rest →
      (rest = [] → fits s.cfg.symbufCap 0 n = true →
        exec .dec s = .next { s with symbuf := List.replicate n x, phase := .decoded, rsp := 0 }) ∧
      (rest.head? = some true → fits s.cfg.symbufCap 0 n = true → exec .dec s = .next (faulted .badBit s)) ∧
      (fits s.cfg.symbufCap 0 n = false → exec .dec s = .next (faulted .symbufFull s)))

/-! ## Reassembler -/

/-- R240, R242, R244: `RAS` of a stream of non-empty groups, each ended by `SEP`, gives the values of the groups and their tokens. -/
def Obligations.RasReassemblesTheGroups : Prop :=
  RuleHead .ras 0xD000 [.decoded] ∧
    ∀ (s : State) (gs : List (List (Fin 10))), s.phase = .decoded → ErrWf s → (∀ g ∈ gs, g ≠ []) →
      s.symbuf = gs.flatMap (fun g => g.map symOfDigit ++ [Sym.sep]) →
      exec .ras s = .next (
        if fits s.cfg.otokCap 0 ((gs.map groupValue).flatMap tokens).length then
          { s with
            recs := gs.map groupValue
            otok := (gs.map groupValue).flatMap tokens
            ord := 0
            phase := .doneDec
            rsp := if gs = [] then 0 else 0x4000 }
        else faulted .outFull s)

/-- R241, R242, R283: a stream that does not end in `SEP` is `UNTERMINATED`, checked first; then the first group without a digit is
`EMPTY_GROUP`, unless the tokens of the groups before it did not fit. -/
def Obligations.RasRefusesBrokenStreams : Prop :=
  ∀ s : State, s.phase = .decoded →
    (s.symbuf ≠ [] → s.symbuf.getLast? ≠ some Sym.sep → exec .ras s = .next (faulted .unterminated s)) ∧
    (∀ (gs : List (List (Fin 10))) (rest : List Sym), (∀ g ∈ gs, g ≠ []) →
      s.symbuf = gs.flatMap (fun g => g.map symOfDigit ++ [Sym.sep]) ++ Sym.sep :: rest →
      s.symbuf.getLast? = some Sym.sep →
        exec .ras s = .next (faulted
          (if fits s.cfg.otokCap 0 ((gs.map groupValue).flatMap tokens).length then .emptyGroup else .outFull) s))

/-- R245: reassembling a projection gives the integers back, with their tokens; the converse fails for `[0, 0, SEP]`. -/
def Obligations.ReassembleInvertsProjection : Prop :=
  (∀ xs : List Int, reassemble none (projectAll xs) = .ok (xs, xs.flatMap tokens)) ∧
    (∀ v : Int, reassemble none (project v) = .ok ([v], tokens v)) ∧
    reassemble none [0, 0, Sym.sep] = .ok ([0], tokens 0) ∧ projectAll [0] = [0, Sym.sep]

/-! ## The entry points -/

/-- R261, R137: a non-empty list of records gives a `FULL` tree with two or more symbols; the empty list gives the `EMPTY` tree and the
one byte `3E`. -/
def Obligations.RecordsGiveAFullTree : Prop :=
  (∀ xs : List Int, xs ≠ [] →
    (buildTree (countSyms (projectAll xs)) Tree.reset).variant = .full ∧
      2 ≤ (buildTree (countSyms (projectAll xs)) Tree.reset).k.toNat) ∧
    (buildTree (countSyms (projectAll [])) Tree.reset).variant = .empty ∧ encodeRecords [] = .ok [0x3E]

/-- R66, R215: the layout and the size of a blob. -/
def Obligations.BlobLayoutAndSize : Prop :=
  ∀ (S : List Sym) (bits : List Bool), encodeSymbols S = .ok bits →
    ∃ (fs : List Nat) (codes : Vector (List Bool) 11) (p : Nat),
      headerFields (buildTree (countSyms S) Tree.reset) = .ok fs ∧ deriveCodes (buildTree (countSyms S) Tree.reset) = .ok codes ∧
      p < 8 ∧ bits.length % 8 = 0 ∧
      bits = natBits 3 p ++ fs.flatMap (natBits 4) ++ S.flatMap (fun x => codes[x]) ++ List.replicate p false ∧
      (bytesOf bits).length = blobSize fs.length (countSyms S) codes

/-- R224: every symbol stream comes back from its blob, as functions and through the commands. -/
def Obligations.SymbolRoundTrip : Prop :=
  (∀ S : List Sym, ∃ bits, encodeSymbols S = .ok bits ∧ decodeSymbols (bytesOf bits) = .ok S) ∧
    ∀ (S : List Sym) (s : State), s.cfg = Config.reference →
      ∃ t u, execAll (.clr :: (S.map (fun x => .sym (BitVec.ofNat 4 x.val)) ++ encodeCommands)) s = .next t ∧ t.phase = .doneEnc ∧
        execAll (.clr :: (blobCommands (bytesOf t.bitbuf) ++ [.par, .dec])) t = .next u ∧ u.phase = .decoded ∧ u.symbuf = S

/-- R258: every list of integers comes back from its blob; a list of records entered as text comes back as its integers. -/
def Obligations.RecordRoundTrip : Prop :=
  (∀ xs : List Int, ∃ blob, encodeRecords xs = .ok blob ∧ decodeRecords blob = .ok xs) ∧
    ∀ (txt : List (Bool × List (Fin 10))) (s : State), (∀ r ∈ txt, r.2 ≠ []) → s.cfg = Config.reference →
      ∃ t, execAll (.clr :: (txt.flatMap textCommands ++ encodeCommands)) s = .next t ∧ t.phase = .doneEnc ∧
        decodeRecords (bytesOf t.bitbuf) = .ok (txt.map textValue)

/-- R256: in the reference model the bytes the host reads after the commands of `encode(xs)` are the function `encode(xs)`,
whatever call came before. -/
def Obligations.EncodeCommandsComputeTheBlob : Prop :=
  ∀ (xs : List Int) (s : State), s.cfg = Config.reference →
    ∃ blob, encodeRecords xs = .ok blob ∧ hostEncode xs s = some blob

/-- R257: in the reference model the commands of `decode(blob)` end the call with the records of the function `decode(blob)`, which the
host reads as tokens, or with its fault. -/
def Obligations.DecodeCommandsComputeTheRecords : Prop :=
  ∀ (blob : List Byte) (s : State), s.cfg = Config.reference →
    (∃ xs t, decodeRecords blob = .ok xs ∧ execAll (decodeProgram blob) s = .next t ∧ t.phase = .doneDec ∧ t.recs = xs ∧
      hostDecode blob s = some ((xs.flatMap tokens).map fun k => 0#4 ++ tokenCode k)) ∨
    (∃ e, decodeRecords blob = .error (.raise e) ∧ execAll (decodeProgram blob) s = .next (faulted e s))

/-! ## Invariants of a run -/

/-- R36: the reset state meets every invariant below. -/
def Obligations.ResetMeetsTheInvariants : Prop :=
  ErrWf State.reset ∧ RecFlagsWf State.reset ∧ WithinCapacity State.reset ∧ PhaseHolds State.reset

/-- R24: every step keeps `ERR` zero outside `FAULT` and non-zero in it. -/
def Obligations.StepKeepsErrWellFormed : Prop := ∀ s t : State, ErrWf s → step s = .next t → ErrWf t

/-- R26: every step keeps the record flags 0 while no record is open. -/
def Obligations.StepKeepsRecordFlags : Prop := ∀ s t : State, RecFlagsWf s → step s = .next t → RecFlagsWf t

/-- R65, R263 (a): every step keeps every buffer within its capacity and every count within `FREQ_W`. -/
def Obligations.StepKeepsCapacity : Prop := ∀ s t : State, WithinCapacity s → step s = .next t → WithinCapacity t

/-- R20 to R22, R36, R280: every step keeps the registers at what the phase promises. -/
def Obligations.StepKeepsPhaseContents : Prop := ∀ s t : State, PhaseHolds s → step s = .next t → PhaseHolds t

/-- R14, R279: where the registers hold what the phase promises, every step has a next state: no stop, hang or refusal. -/
def Obligations.StepNeverStops : Prop := ∀ s : State, PhaseHolds s → ∃ t, step s = .next t

/-- R183, R212, R278: no step raises `NODE_COUNT` or `NO_CODE`, nor, in the reference model, a `CapacityError`. -/
def Obligations.UnreachableFaultsAreNeverRaised : Prop :=
  ∀ s t : State, PhaseHolds s → s.phase ≠ .fault → step s = .next t →
    (t.errCause, t.errDetail) ≠ (causeCode .nodeCount, detailCode .nodeCount) ∧
      (t.errCause, t.errDetail) ≠ (causeCode .noCode, detailCode .noCode) ∧
      (s.cfg = Config.reference → t.errCause ≠ 7)
end

