-- ==== Sys2Proof/Laws/State.lean ====
section
/-! SUPPORT. One lemma per field for every named update of the state, each true by `rfl`. -/

namespace Sys2Proof.Machine

@[simp] theorem State.respond_phase (d : Byte) (s : State) : (s.respond d).phase = s.phase := rfl
@[simp] theorem State.respond_errCause (d : Byte) (s : State) : (s.respond d).errCause = s.errCause := rfl
@[simp] theorem State.respond_errDetail (d : Byte) (s : State) : (s.respond d).errDetail = s.errDetail := rfl
@[simp] theorem State.respond_tree (d : Byte) (s : State) : (s.respond d).tree = s.tree := rfl
@[simp] theorem State.respond_recOpen (d : Byte) (s : State) : (s.respond d).recOpen = s.recOpen := rfl
@[simp] theorem State.respond_recNeg (d : Byte) (s : State) : (s.respond d).recNeg = s.recNeg := rfl
@[simp] theorem State.respond_recNd (d : Byte) (s : State) : (s.respond d).recNd = s.recNd := rfl
@[simp] theorem State.respond_recNz (d : Byte) (s : State) : (s.respond d).recNz = s.recNz := rfl
@[simp] theorem State.respond_codeValid (d : Byte) (s : State) : (s.respond d).codeValid = s.codeValid := rfl
@[simp] theorem State.respond_pad (d : Byte) (s : State) : (s.respond d).pad = s.pad := rfl
@[simp] theorem State.respond_hdrEnd (d : Byte) (s : State) : (s.respond d).hdrEnd = s.hdrEnd := rfl
@[simp] theorem State.respond_limit (d : Byte) (s : State) : (s.respond d).limit = s.limit := rfl
@[simp] theorem State.respond_ord (d : Byte) (s : State) : (s.respond d).ord = s.ord := rfl
@[simp] theorem State.respond_freq (d : Byte) (s : State) : (s.respond d).freq = s.freq := rfl
@[simp] theorem State.respond_code (d : Byte) (s : State) : (s.respond d).code = s.code := rfl
@[simp] theorem State.respond_symbuf (d : Byte) (s : State) : (s.respond d).symbuf = s.symbuf := rfl
@[simp] theorem State.respond_bitbuf (d : Byte) (s : State) : (s.respond d).bitbuf = s.bitbuf := rfl
@[simp] theorem State.respond_recs (d : Byte) (s : State) : (s.respond d).recs = s.recs := rfl
@[simp] theorem State.respond_otok (d : Byte) (s : State) : (s.respond d).otok = s.otok := rfl
@[simp] theorem State.respond_rsp (d : Byte) (s : State) : (s.respond d).rsp = respWord s d := rfl
@[simp] theorem State.respond_inbox (d : Byte) (s : State) : (s.respond d).inbox = s.inbox := rfl
@[simp] theorem State.respond_cfg (d : Byte) (s : State) : (s.respond d).cfg = s.cfg := rfl

@[simp] theorem State.clear_phase (s : State) : s.clear.phase = State.reset.phase := rfl
@[simp] theorem State.clear_errCause (s : State) : s.clear.errCause = State.reset.errCause := rfl
@[simp] theorem State.clear_errDetail (s : State) : s.clear.errDetail = State.reset.errDetail := rfl
@[simp] theorem State.clear_tree (s : State) : s.clear.tree = State.reset.tree := rfl
@[simp] theorem State.clear_recOpen (s : State) : s.clear.recOpen = State.reset.recOpen := rfl
@[simp] theorem State.clear_recNeg (s : State) : s.clear.recNeg = State.reset.recNeg := rfl
@[simp] theorem State.clear_recNd (s : State) : s.clear.recNd = State.reset.recNd := rfl
@[simp] theorem State.clear_recNz (s : State) : s.clear.recNz = State.reset.recNz := rfl
@[simp] theorem State.clear_codeValid (s : State) : s.clear.codeValid = State.reset.codeValid := rfl
@[simp] theorem State.clear_pad (s : State) : s.clear.pad = State.reset.pad := rfl
@[simp] theorem State.clear_hdrEnd (s : State) : s.clear.hdrEnd = State.reset.hdrEnd := rfl
@[simp] theorem State.clear_limit (s : State) : s.clear.limit = State.reset.limit := rfl
@[simp] theorem State.clear_ord (s : State) : s.clear.ord = State.reset.ord := rfl
@[simp] theorem State.clear_freq (s : State) : s.clear.freq = State.reset.freq := rfl
@[simp] theorem State.clear_code (s : State) : s.clear.code = State.reset.code := rfl
@[simp] theorem State.clear_symbuf (s : State) : s.clear.symbuf = State.reset.symbuf := rfl
@[simp] theorem State.clear_bitbuf (s : State) : s.clear.bitbuf = State.reset.bitbuf := rfl
@[simp] theorem State.clear_recs (s : State) : s.clear.recs = State.reset.recs := rfl
@[simp] theorem State.clear_otok (s : State) : s.clear.otok = State.reset.otok := rfl
@[simp] theorem State.clear_rsp (s : State) : s.clear.rsp = s.rsp := rfl
@[simp] theorem State.clear_inbox (s : State) : s.clear.inbox = s.inbox := rfl
@[simp] theorem State.clear_cfg (s : State) : s.clear.cfg = s.cfg := rfl

@[simp] theorem State.raise_phase (e : ErrCode) (s : State) : (s.raise e).phase = .fault := rfl
@[simp] theorem State.raise_errCause (e : ErrCode) (s : State) : (s.raise e).errCause = causeCode e := rfl
@[simp] theorem State.raise_errDetail (e : ErrCode) (s : State) : (s.raise e).errDetail = detailCode e := rfl
@[simp] theorem State.raise_tree (e : ErrCode) (s : State) : (s.raise e).tree = State.reset.tree := rfl
@[simp] theorem State.raise_recOpen (e : ErrCode) (s : State) : (s.raise e).recOpen = State.reset.recOpen := rfl
@[simp] theorem State.raise_recNeg (e : ErrCode) (s : State) : (s.raise e).recNeg = State.reset.recNeg := rfl
@[simp] theorem State.raise_recNd (e : ErrCode) (s : State) : (s.raise e).recNd = State.reset.recNd := rfl
@[simp] theorem State.raise_recNz (e : ErrCode) (s : State) : (s.raise e).recNz = State.reset.recNz := rfl
@[simp] theorem State.raise_codeValid (e : ErrCode) (s : State) : (s.raise e).codeValid = State.reset.codeValid := rfl
@[simp] theorem State.raise_pad (e : ErrCode) (s : State) : (s.raise e).pad = State.reset.pad := rfl
@[simp] theorem State.raise_hdrEnd (e : ErrCode) (s : State) : (s.raise e).hdrEnd = State.reset.hdrEnd := rfl
@[simp] theorem State.raise_limit (e : ErrCode) (s : State) : (s.raise e).limit = State.reset.limit := rfl
@[simp] theorem State.raise_ord (e : ErrCode) (s : State) : (s.raise e).ord = State.reset.ord := rfl
@[simp] theorem State.raise_freq (e : ErrCode) (s : State) : (s.raise e).freq = State.reset.freq := rfl
@[simp] theorem State.raise_code (e : ErrCode) (s : State) : (s.raise e).code = State.reset.code := rfl
@[simp] theorem State.raise_symbuf (e : ErrCode) (s : State) : (s.raise e).symbuf = State.reset.symbuf := rfl
@[simp] theorem State.raise_bitbuf (e : ErrCode) (s : State) : (s.raise e).bitbuf = State.reset.bitbuf := rfl
@[simp] theorem State.raise_recs (e : ErrCode) (s : State) : (s.raise e).recs = State.reset.recs := rfl
@[simp] theorem State.raise_otok (e : ErrCode) (s : State) : (s.raise e).otok = State.reset.otok := rfl
@[simp] theorem State.raise_inbox (e : ErrCode) (s : State) : (s.raise e).inbox = s.inbox := rfl
@[simp] theorem State.raise_cfg (e : ErrCode) (s : State) : (s.raise e).cfg = s.cfg := rfl

@[simp] theorem clearRecFlags_phase (s : State) : (clearRecFlags s).phase = s.phase := rfl
@[simp] theorem clearRecFlags_errCause (s : State) : (clearRecFlags s).errCause = s.errCause := rfl
@[simp] theorem clearRecFlags_errDetail (s : State) : (clearRecFlags s).errDetail = s.errDetail := rfl
@[simp] theorem clearRecFlags_tree (s : State) : (clearRecFlags s).tree = s.tree := rfl
@[simp] theorem clearRecFlags_recOpen (s : State) : (clearRecFlags s).recOpen = false := rfl
@[simp] theorem clearRecFlags_recNeg (s : State) : (clearRecFlags s).recNeg = false := rfl
@[simp] theorem clearRecFlags_recNd (s : State) : (clearRecFlags s).recNd = false := rfl
@[simp] theorem clearRecFlags_recNz (s : State) : (clearRecFlags s).recNz = false := rfl
@[simp] theorem clearRecFlags_codeValid (s : State) : (clearRecFlags s).codeValid = s.codeValid := rfl
@[simp] theorem clearRecFlags_pad (s : State) : (clearRecFlags s).pad = s.pad := rfl
@[simp] theorem clearRecFlags_hdrEnd (s : State) : (clearRecFlags s).hdrEnd = s.hdrEnd := rfl
@[simp] theorem clearRecFlags_limit (s : State) : (clearRecFlags s).limit = s.limit := rfl
@[simp] theorem clearRecFlags_ord (s : State) : (clearRecFlags s).ord = s.ord := rfl
@[simp] theorem clearRecFlags_freq (s : State) : (clearRecFlags s).freq = s.freq := rfl
@[simp] theorem clearRecFlags_code (s : State) : (clearRecFlags s).code = s.code := rfl
@[simp] theorem clearRecFlags_symbuf (s : State) : (clearRecFlags s).symbuf = s.symbuf := rfl
@[simp] theorem clearRecFlags_bitbuf (s : State) : (clearRecFlags s).bitbuf = s.bitbuf := rfl
@[simp] theorem clearRecFlags_recs (s : State) : (clearRecFlags s).recs = s.recs := rfl
@[simp] theorem clearRecFlags_otok (s : State) : (clearRecFlags s).otok = s.otok := rfl
@[simp] theorem clearRecFlags_rsp (s : State) : (clearRecFlags s).rsp = s.rsp := rfl
@[simp] theorem clearRecFlags_inbox (s : State) : (clearRecFlags s).inbox = s.inbox := rfl
@[simp] theorem clearRecFlags_cfg (s : State) : (clearRecFlags s).cfg = s.cfg := rfl

@[simp] theorem openRecFlags_phase (neg : Bool) (s : State) : (openRecFlags neg s).phase = s.phase := rfl
@[simp] theorem openRecFlags_errCause (neg : Bool) (s : State) : (openRecFlags neg s).errCause = s.errCause := rfl
@[simp] theorem openRecFlags_errDetail (neg : Bool) (s : State) : (openRecFlags neg s).errDetail = s.errDetail := rfl
@[simp] theorem openRecFlags_tree (neg : Bool) (s : State) : (openRecFlags neg s).tree = s.tree := rfl
@[simp] theorem openRecFlags_recOpen (neg : Bool) (s : State) : (openRecFlags neg s).recOpen = true := rfl
@[simp] theorem openRecFlags_recNeg (neg : Bool) (s : State) : (openRecFlags neg s).recNeg = neg := rfl
@[simp] theorem openRecFlags_recNd (neg : Bool) (s : State) : (openRecFlags neg s).recNd = false := rfl
@[simp] theorem openRecFlags_recNz (neg : Bool) (s : State) : (openRecFlags neg s).recNz = false := rfl
@[simp] theorem openRecFlags_codeValid (neg : Bool) (s : State) : (openRecFlags neg s).codeValid = s.codeValid := rfl
@[simp] theorem openRecFlags_pad (neg : Bool) (s : State) : (openRecFlags neg s).pad = s.pad := rfl
@[simp] theorem openRecFlags_hdrEnd (neg : Bool) (s : State) : (openRecFlags neg s).hdrEnd = s.hdrEnd := rfl
@[simp] theorem openRecFlags_limit (neg : Bool) (s : State) : (openRecFlags neg s).limit = s.limit := rfl
@[simp] theorem openRecFlags_ord (neg : Bool) (s : State) : (openRecFlags neg s).ord = s.ord := rfl
@[simp] theorem openRecFlags_freq (neg : Bool) (s : State) : (openRecFlags neg s).freq = s.freq := rfl
@[simp] theorem openRecFlags_code (neg : Bool) (s : State) : (openRecFlags neg s).code = s.code := rfl
@[simp] theorem openRecFlags_symbuf (neg : Bool) (s : State) : (openRecFlags neg s).symbuf = s.symbuf := rfl
@[simp] theorem openRecFlags_bitbuf (neg : Bool) (s : State) : (openRecFlags neg s).bitbuf = s.bitbuf := rfl
@[simp] theorem openRecFlags_recs (neg : Bool) (s : State) : (openRecFlags neg s).recs = s.recs := rfl
@[simp] theorem openRecFlags_otok (neg : Bool) (s : State) : (openRecFlags neg s).otok = s.otok := rfl
@[simp] theorem openRecFlags_rsp (neg : Bool) (s : State) : (openRecFlags neg s).rsp = s.rsp := rfl
@[simp] theorem openRecFlags_inbox (neg : Bool) (s : State) : (openRecFlags neg s).inbox = s.inbox := rfl
@[simp] theorem openRecFlags_cfg (neg : Bool) (s : State) : (openRecFlags neg s).cfg = s.cfg := rfl

end Sys2Proof.Machine
end

