-- ==== Sys2Proof/Laws/Ops.lean ====
section
/-! SUPPORT. What each shared operation can do, said once: the appends, the order of checks of one command, and `exec` as a command
with its own rule. -/

namespace Sys2Proof.Machine

open Sys2Proof

/-! ## Appends -/

@[simp] theorem fits_none (len n : Nat) : fits none len n = true := rfl

@[simp] theorem fits_zero (cap : Option Nat) (len : Nat) : fits cap len 0 = true := by cases cap <;> simp [fits]

theorem fits_some {c len n : Nat} : fits (some c) len n = true ↔ n = 0 ∨ len + n ≤ c := by simp [fits]

/-- Two appends fit one after the other exactly when they fit together. -/
theorem fits_add {cap : Option Nat} {len m n : Nat} :
    fits cap len (m + n) = true ↔ fits cap len m = true ∧ fits cap (len + m) n = true := by
  cases cap with
  | none => simp
  | some c => simp only [fits_some]; omega

theorem symAppend_ok {x : Sym} {s t : State} :
    symAppend x s = .ok t ↔ fits s.cfg.symbufCap s.symbuf.length 1 = true ∧ t = { s with symbuf := s.symbuf ++ [x] } := by
  unfold symAppend; by_cases h : fits s.cfg.symbufCap s.symbuf.length 1 = true <;> simp [h, @eq_comm _ t]

theorem symAppend_error {x : Sym} {s : State} {e : Stop} :
    symAppend x s = .error e ↔ fits s.cfg.symbufCap s.symbuf.length 1 = false ∧ e = .raise .symbufFull := by
  unfold symAppend; by_cases h : fits s.cfg.symbufCap s.symbuf.length 1 = true <;> simp [h, @eq_comm _ e]

theorem bitAppend_ok {bs : List Bool} {s t : State} :
    bitAppend bs s = .ok t ↔
      fits s.cfg.bitbufCap s.bitbuf.length bs.length = true ∧ t = { s with bitbuf := s.bitbuf ++ bs } := by
  unfold bitAppend; by_cases h : fits s.cfg.bitbufCap s.bitbuf.length bs.length = true <;> simp [h, @eq_comm _ t]

theorem bitAppend_error {bs : List Bool} {s : State} {e : Stop} :
    bitAppend bs s = .error e ↔ fits s.cfg.bitbufCap s.bitbuf.length bs.length = false ∧ e = .raise .bitbufFull := by
  unfold bitAppend; by_cases h : fits s.cfg.bitbufCap s.bitbuf.length bs.length = true <;> simp [h, @eq_comm _ e]

/-! ## One command -/

/-- The three ways a command's answer comes about. -/
theorem answer_next {r : Except Stop (State × Byte)} {s t : State} (h : answer r s = .next t) :
    (∃ u d, r = .ok (u, d) ∧ t = u.respond d) ∨ ∃ e, r = .error (.raise e) ∧ t = s.raise e := by
  rcases r with (e | f) | ⟨u, d⟩
  · exact .inr ⟨e, rfl, by simpa [answer] using h.symm⟩
  · simp [answer] at h
  · exact .inl ⟨u, d, rfl, by simpa [answer] using h.symm⟩

theorem command_in_fault {i : Instr} {rule : State → Except Stop (State × Byte)} {s : State} (h : s.phase = .fault) :
    command i rule s = .next (s.respond 0) := by simp [command, h]

theorem command_legal {i : Instr} {rule : State → Except Stop (State × Byte)} {s : State} (hf : s.phase ≠ .fault)
    (hl : legalIn i s.phase = true) : command i rule s = answer (rule s) s := by simp [command, hf, hl]

theorem command_illegal {i : Instr} {rule : State → Except Stop (State × Byte)} {s : State} (hf : s.phase ≠ .fault)
    (hl : legalIn i s.phase = false) : command i rule s = .next (s.raise .wrongPhase) := by simp [command, hf, hl]

/-- Everything a command with an own rule can do: nothing in `FAULT`; its rule's effect; its rule's fault; `WRONG_PHASE`. -/
theorem command_next {i : Instr} {rule : State → Except Stop (State × Byte)} {s t : State}
    (h : command i rule s = .next t) :
    (s.phase = .fault ∧ t = s.respond 0) ∨
      (s.phase ≠ .fault ∧ legalIn i s.phase = true ∧ ∃ u d, rule s = .ok (u, d) ∧ t = u.respond d) ∨
      (s.phase ≠ .fault ∧ ∃ e, t = s.raise e ∧
        (rule s = .error (.raise e) ∧ legalIn i s.phase = true ∨ e = .wrongPhase ∧ legalIn i s.phase = false)) := by
  unfold command at h
  split at h
  · next hf => exact .inl ⟨hf, by simpa using h.symm⟩
  · next hf =>
    split at h
    · next hl =>
      rcases answer_next h with ⟨u, d, hr, rfl⟩ | ⟨e, hr, rfl⟩
      · exact .inr (.inl ⟨hf, hl, u, d, hr, rfl⟩)
      · exact .inr (.inr ⟨hf, e, rfl, .inl ⟨hr, hl⟩⟩)
    · next hl => exact .inr (.inr ⟨hf, .wrongPhase, by simpa using h.symm, .inr ⟨rfl, by simpa using hl⟩⟩)

/-- A command stops the model only where its own rule has nothing to read. -/
theorem command_fault {i : Instr} {rule : State → Except Stop (State × Byte)} {s : State} {f : Fault}
    (h : command i rule s = .fault f) :
    s.phase ≠ .fault ∧ legalIn i s.phase = true ∧ rule s = .error (.stuck f) := by
  unfold command at h
  split at h
  · cases h
  · next hf =>
    split at h
    · next hl =>
      refine ⟨hf, hl, ?_⟩
      rcases hr : rule s with (e | g) | ⟨u, d⟩ <;> simp_all [answer]
    · cases h

/-! ## `exec` -/

/-- The own rule of each command but `STAT` and `CLR`, which have none. -/
def ruleOf : Instr → State → Except Stop (State × Byte)
  | .stat, s => .ok (s, statData s)
  | .clr, s => .ok (s.clear, 0)
  | .tok t, s => tokRule t s
  | .sym x, s => symRule x s
  | .cnt, s => cntRule s
  | .bld, s => bldRule s
  | .drv, s => drvRule s
  | .ser, s => serRule s
  | .enc, s => encRule s
  | .fin, s => finRule s
  | .byt b, s => bytRule b s
  | .par, s => parRule s
  | .dec, s => decRule s
  | .ras, s => rasRule s
  | .rdb, s => rdbRule s
  | .rdt, s => rdtRule s

/-- Every command but `STAT` and `CLR` goes through the shared order of checks. -/
theorem exec_eq_command {i : Instr} {s : State} (h1 : i ≠ .stat) (h2 : i ≠ .clr) : exec i s = command i (ruleOf i) s := by
  cases i <;> first | rfl | contradiction

/-- No command is refused. -/
theorem exec_not_refused {i : Instr} {s : State} {r : Refusal} : exec i s ≠ .refused r := by
  have hc : ∀ (j : Instr) (rule : State → Except Stop (State × Byte)), command j rule s ≠ .refused r := by
    intro j rule
    unfold command
    split
    · simp
    · split
      · rcases hr : rule s with (e | g) | ⟨u, d⟩ <;> simp [answer]
      · simp
  cases i
  case stat => simp [exec, execStat]
  case clr => simp [exec, execClr]
  all_goals exact hc _ _

end Sys2Proof.Machine
end

