-- ==== Sys2Proof/Laws/Rules.lean ====
section
/-! SUPPORT. What the loops of the own rules do when they complete: the next state, with every field they leave alone; and the bits
and the response word the commands answer with. -/

namespace Sys2Proof.Machine

open Sys2Proof

/-! ## Bits and the response word -/

@[simp] theorem natBits_length (n v : Nat) : (natBits n v).length = n := by
  induction n with
  | zero => rfl
  | succ n ih => simp [natBits, ih]

@[simp] theorem byteBits_length (b : Byte) : (byteBits b).length = 8 := natBits_length 8 _

theorem natBits_zero (n : Nat) : natBits n 0 = List.replicate n false := by
  induction n with
  | zero => rfl
  | succ n ih => simp [natBits, ih, List.replicate_succ]

/-- The fields of the response word, as a number (R95). -/
theorem respWord_toNat (s : State) (d : Byte) :
    (respWord s d).toNat =
      (faultBit s).toNat * 0x8000 + (moreBit s).toNat * 0x4000 + s.errCause.toNat * 2048 + d.toNat := by
  have hb : ∀ b : Bool, (BitVec.ofBool b).toNat = b.toNat := by decide
  simp only [respWord, BitVec.toNat_append, hb, BitVec.toNat_ofNat, Nat.zero_mod, Nat.or_zero]
  have h1 := s.errCause.isLt
  have h2 := d.isLt
  rw [← Nat.shiftLeft_add_eq_or_of_lt h2, Nat.shiftLeft_eq, Nat.shiftLeft_eq,
    ← Nat.shiftLeft_add_eq_or_of_lt h1, Nat.shiftLeft_eq, ← Nat.shiftLeft_add_eq_or_of_lt (Bool.toNat_lt _), Nat.shiftLeft_eq]
  omega

/-! ## The loops -/

/-- Two symbol appends in a row are one append of both. -/
theorem symAppend_two {x y : Sym} {s t u : State} (h1 : symAppend x s = .ok t) (h2 : symAppend y t = .ok u) :
    fits s.cfg.symbufCap s.symbuf.length 2 = true ∧ u = { s with symbuf := s.symbuf ++ [x, y] } := by
  obtain ⟨f1, rfl⟩ := symAppend_ok.1 h1
  obtain ⟨f2, rfl⟩ := symAppend_ok.1 h2
  exact ⟨fits_add (m := 1) (n := 1) |>.2 ⟨f1, by simpa using f2⟩, by simp⟩

/-- `TOK MINUS` opens a negative record (R133). -/
theorem tokMinus_ok {s u : State} (h : tokMinus s = .ok u) : s.recOpen = false ∧ u = openRecFlags true s := by
  unfold tokMinus at h
  split at h
  · cases h
  · next ho => exact ⟨by simpa using ho, by simpa using h.symm⟩

/-- A digit appends at most two symbols and changes only `REC_NZ` beside (R133). -/
theorem tokDigitAppend_ok {d : Fin 10} {s u : State} (h : tokDigitAppend d s = .ok u) :
    ∃ syms nz, syms.length ≤ 2 ∧ fits s.cfg.symbufCap s.symbuf.length syms.length = true ∧
      u = { s with symbuf := s.symbuf ++ syms, recNz := nz } := by
  unfold tokDigitAppend at h
  split at h
  · cases h; exact ⟨[], s.recNz, by simp, by simp, by simp⟩
  · split at h
    · obtain ⟨f, rfl⟩ := symAppend_ok.1 h
      exact ⟨[symOfDigit d], s.recNz, by simp, f, rfl⟩
    · by_cases hn : s.recNeg = true
      case neg =>
        simp only [if_neg hn, bind, Except.bind] at h
        obtain ⟨f, rfl⟩ := symAppend_ok.1 h
        exact ⟨[symOfDigit d], true, by simp, f, rfl⟩
      case pos =>
        simp only [if_pos hn, bind, Except.bind] at h
        rcases h1 : symAppend 0 s with e | t
        · simp [h1] at h
        · simp only [h1] at h
          obtain ⟨f1, rfl⟩ := symAppend_ok.1 h1
          obtain ⟨f2, rfl⟩ := symAppend_ok.1 h
          refine ⟨[0, symOfDigit d], true, by simp, fits_add (m := 1) (n := 1) |>.2 ⟨f1, ?_⟩, ?_⟩
          · simpa using f2
          · rw [show s.symbuf ++ [0, symOfDigit d] = s.symbuf ++ [0] ++ [symOfDigit d] by simp]

/-- `SER`'s loop appends the fields, four bits each (R173). -/
theorem appendFields_ok {fs : List Nat} {s u : State} (h : appendFields fs s = .ok u) :
    fits s.cfg.bitbufCap s.bitbuf.length (4 * fs.length) = true ∧
      u = { s with bitbuf := s.bitbuf ++ fs.flatMap (natBits 4) } := by
  induction fs generalizing s with
  | nil => cases h; simp
  | cons v vs ih =>
    simp only [appendFields, bind, Except.bind] at h
    rcases h1 : bitAppend (natBits 4 v) s with e | t
    · simp [h1] at h
    · simp only [h1] at h
      obtain ⟨f1, rfl⟩ := bitAppend_ok.1 h1
      obtain ⟨f2, rfl⟩ := ih h
      refine ⟨?_, by simp⟩
      rw [List.length_cons, Nat.mul_succ, Nat.add_comm]
      exact fits_add.2 ⟨by simpa using f1, by simpa using f2⟩

/-- `ENC`'s loop appends the codes, each non-empty (R212). -/
theorem appendCodes_ok {S : List Sym} {s u : State} (h : appendCodes S s = .ok u) :
    (∀ x ∈ S, s.code[x] ≠ []) ∧ fits s.cfg.bitbufCap s.bitbuf.length (S.flatMap fun x => s.code[x]).length = true ∧
      u = { s with bitbuf := s.bitbuf ++ S.flatMap fun x => s.code[x] } := by
  induction S generalizing s with
  | nil => cases h; simp
  | cons x xs ih =>
    unfold appendCodes at h
    split at h
    · cases h
    · next hx =>
      rcases h1 : bitAppend s.code[x] s with e | t
      · rw [h1] at h; cases h
      · rw [h1] at h
        replace h : appendCodes xs t = .ok u := h
        obtain ⟨f1, rfl⟩ := bitAppend_ok.1 h1
        obtain ⟨f0, f2, rfl⟩ := ih h
        refine ⟨?_, ?_, by simp⟩
        · intro y hy
          rcases List.mem_cons.1 hy with rfl | hy
          · exact hx
          · exact f0 y hy
        · rw [List.flatMap_cons, List.length_append]
          exact fits_add.2 ⟨f1, by simpa using f2⟩

/-- One header field read leaves it available (R178). -/
theorem read4_ok {buf : List Bool} {limit pos : Nat} {r : Nat × Nat} (h : read4 buf limit pos = .ok r) :
    pos + 4 ≤ limit ∧ r = (bitRead buf pos 4, pos + 4) := by
  unfold read4 at h
  split at h
  · cases h
  · next hl => exact ⟨by omega, by simpa using h.symm⟩

/-- `n` header fields read move the position on by `4 n`; every field is within its range (R178, R106). -/
theorem readFields_ok {buf : List Bool} {limit top n pos : Nat} {r : List Nat × Nat}
    (h : readFields buf limit top n pos = .ok r) :
    r.1.length = n ∧ r.2 = pos + 4 * n ∧ (∀ v ∈ r.1, v ≤ top) := by
  induction n generalizing pos r with
  | zero => simp only [readFields, Except.ok.injEq] at h; subst h; simp
  | succ n ih =>
    simp only [readFields, bind, Except.bind] at h
    rcases h1 : read4 buf limit pos with e | ⟨v, p⟩
    · simp [h1] at h
    · simp only [h1] at h
      split at h
      · cases h
      · next hv =>
        rcases h2 : readFields buf limit top n p with e | ⟨vs, q⟩
        · simp [h2] at h
        · simp only [h2, Except.ok.injEq] at h
          obtain ⟨_, hp⟩ := read4_ok h1
          obtain ⟨i1, i2, i3⟩ := ih h2
          cases hp
          subst h
          refine ⟨by simp [i1], by simp at i2 ⊢; omega, ?_⟩
          intro w hw
          rcases List.mem_cons.1 hw with rfl | hw
          · omega
          · exact i3 w hw

end Sys2Proof.Machine
end

