-- ==== Sys2Proof/Laws/Bits.lean ====
section
/-! SUPPORT. Bit sequences: `natBits` and `bitsValue` are inverse, reads past a prefix, and the byte view of a buffer. -/

namespace Sys2Proof.Machine

open Sys2Proof

theorem bitsValue_foldl (bs : List Bool) (a : Nat) :
    bs.foldl (fun a b => 2 * a + b.toNat) a = a * 2 ^ bs.length + bitsValue bs := by
  induction bs generalizing a with
  | nil => simp [bitsValue]
  | cons b bs ih =>
    have h : bitsValue (b :: bs) = b.toNat * 2 ^ bs.length + bitsValue bs := by
      show bs.foldl _ (2 * 0 + b.toNat) = _
      rw [ih]; ring
    rw [List.foldl_cons, ih, List.length_cons, h]
    ring

@[simp] theorem bitsValue_nil : bitsValue [] = 0 := rfl

theorem bitsValue_cons (b : Bool) (bs : List Bool) : bitsValue (b :: bs) = b.toNat * 2 ^ bs.length + bitsValue bs := by
  rw [bitsValue, List.foldl_cons, bitsValue_foldl]; simp

theorem bitsValue_append (as bs : List Bool) : bitsValue (as ++ bs) = bitsValue as * 2 ^ bs.length + bitsValue bs := by
  rw [bitsValue, List.foldl_append, bitsValue_foldl]; rfl

theorem bitsValue_lt (bs : List Bool) : bitsValue bs < 2 ^ bs.length := by
  induction bs with
  | nil => simp
  | cons b bs ih =>
    rw [bitsValue_cons, List.length_cons, Nat.pow_succ]
    cases b <;> simp <;> omega

/-- The value of the `n` bits of `v` is `v` modulo `2^n`. -/
@[simp] theorem bitsValue_natBits (n v : Nat) : bitsValue (natBits n v) = v % 2 ^ n := by
  induction n with
  | zero => simp [natBits, Nat.mod_one]
  | succ n ih =>
    rw [natBits, bitsValue_cons, ih, natBits_length, Nat.pow_succ, Nat.mod_mul, Nat.testBit_eq_decide_div_mod_eq]
    rcases Nat.mod_two_eq_zero_or_one (v / 2 ^ n) with h | h <;> simp [h, Nat.add_comm]

theorem natBits_mod (n v : Nat) : ∀ m, n ≤ m → natBits n (v % 2 ^ m) = natBits n v := by
  induction n with
  | zero => intro m _; rfl
  | succ n ih =>
    intro m h
    rw [natBits, natBits, ih m (by omega), Nat.testBit_mod_two_pow]
    simp [show n < m by omega]

theorem bitsValue_inj {as bs : List Bool} (hl : as.length = bs.length) (h : bitsValue as = bitsValue bs) : as = bs := by
  induction as generalizing bs with
  | nil => exact (List.length_eq_zero_iff.1 hl.symm).symm
  | cons a as ih =>
    cases bs with
    | nil => simp at hl
    | cons b bs =>
      have hl' : as.length = bs.length := by simpa using hl
      rw [bitsValue_cons, bitsValue_cons, hl'] at h
      have h1 := bitsValue_lt as
      have h2 := bitsValue_lt bs
      rw [hl'] at h1
      cases a <;> cases b <;> simp at h
      · rw [ih hl' h]
      · omega
      · omega
      · rw [ih hl' h]

/-- The bits of the value of a sequence are the sequence. -/
theorem natBits_bitsValue (bs : List Bool) : natBits bs.length (bitsValue bs) = bs :=
  bitsValue_inj (natBits_length _ _) (by rw [bitsValue_natBits, Nat.mod_eq_of_lt (bitsValue_lt bs)])

/-! ## Reads -/

theorem bitRead_lt (buf : List Bool) (pos n : Nat) : bitRead buf pos n < 2 ^ n :=
  (bitsValue_lt _).trans_le (Nat.pow_le_pow_right (by decide) (by simp))

/-- A read that starts after a prefix reads the rest. -/
theorem bitRead_append_right (as bs : List Bool) (n : Nat) : bitRead (as ++ bs) as.length n = bitRead bs 0 n := by
  simp [bitRead]

/-- A field written with its width is read back. -/
theorem bitRead_natBits (n v : Nat) (rest : List Bool) : bitRead (natBits n v ++ rest) 0 n = v % 2 ^ n := by
  simp [bitRead]

/-! ## Bytes -/

@[simp] theorem bytesOf_length (buf : List Bool) : (bytesOf buf).length = buf.length / 8 := by simp [bytesOf]

/-- The bits of the byte at index `i` are positions `8i` to `8i + 7`. -/
theorem byteBits_byteAt {buf : List Bool} {i : Nat} (h : 8 * i + 8 ≤ buf.length) :
    byteBits (byteAt buf i) = (buf.drop (8 * i)).take 8 := by
  have hl : ((buf.drop (8 * i)).take 8).length = 8 := by simp; omega
  have hlt : bitRead buf (8 * i) 8 < 2 ^ 8 := bitRead_lt _ _ _
  rw [byteBits, byteAt, BitVec.toNat_ofNat, Nat.mod_eq_of_lt hlt, bitRead]
  conv_rhs => rw [← natBits_bitsValue ((buf.drop (8 * i)).take 8), hl]

/-- A buffer of whole bytes is the bits of its bytes. -/
theorem flatMap_byteBits_bytesOf {buf : List Bool} (h : buf.length % 8 = 0) : (bytesOf buf).flatMap byteBits = buf := by
  obtain ⟨m, hm⟩ : ∃ m, buf.length = 8 * m := ⟨buf.length / 8, by omega⟩
  have key : ∀ k, k ≤ m → ((List.range k).map (byteAt buf)).flatMap byteBits = buf.take (8 * k) := by
    intro k hk
    induction k with
    | zero => simp
    | succ k ih =>
      rw [List.range_succ, List.map_append, List.flatMap_append, ih (by omega)]
      simp only [List.map_cons, List.map_nil, List.flatMap_cons, List.flatMap_nil, List.append_nil]
      rw [byteBits_byteAt (by omega), Nat.mul_succ, List.take_add]
  rw [bytesOf, show buf.length / 8 = m by omega, key m le_rfl, ← hm, List.take_length]

end Sys2Proof.Machine
end

