-- ==== Sys2Proof/Laws/PerInstr.lean ====
section
/-! SUPPORT. A statement made per constructor: the encoder writes only well-formed words (rules R91, R94). -/

namespace Sys2Proof.Laws.Encodes

open Sys2Proof

/-- The word of the command is well formed and carries its opcode in bits 15:12. -/
def Statement (i : Instr) : Prop := wordWellFormed (encode i) = true ∧ opField (encode i) = opcodeOf i

theorem stat : Statement .stat := by unfold Statement; decide
theorem clr : Statement .clr := by unfold Statement; decide
theorem tok (t : BitVec 4) : Statement (.tok t) := by unfold Statement; revert t; decide
theorem sym (s : BitVec 4) : Statement (.sym s) := by unfold Statement; revert s; decide
theorem cnt : Statement .cnt := by unfold Statement; decide
theorem bld : Statement .bld := by unfold Statement; decide
theorem drv : Statement .drv := by unfold Statement; decide
theorem ser : Statement .ser := by unfold Statement; decide
theorem enc : Statement .enc := by unfold Statement; decide
theorem fin : Statement .fin := by unfold Statement; decide
theorem byt (b : Byte) : Statement (.byt b) := by unfold Statement; revert b; decide
theorem par : Statement .par := by unfold Statement; decide
theorem dec : Statement .dec := by unfold Statement; decide
theorem ras : Statement .ras := by unfold Statement; decide
theorem rdb : Statement .rdb := by unfold Statement; decide
theorem rdt : Statement .rdt := by unfold Statement; decide

end Sys2Proof.Laws.Encodes
end

