-- ==== Sys2Proof/Laws/Tree.lean ====
section
/-! SUPPORT. The node files: what reading a child gives after a write, what a merge and a link change, and that `lowest` is the least
candidate. -/

namespace Sys2Proof.Machine

open Sys2Proof

/-! ## Children -/

theorem childOf_leaf {t : Tree} {p : NodeId} (b : Bool) (h : p.val < 11) : childOf t p b = none := by
  simp [childOf, Nat.not_le.2 h]

theorem childOf_setChildren_self {t : Tree} {p : NodeId} {c0 c1 : Option NodeId} (b : Bool) (h : 11 ≤ p.val) :
    childOf (setChildren t p c0 c1) p b = if b then c1 else c0 := by simp [childOf, setChildren, h]

theorem childOf_setChildren_ne {t : Tree} {p q : NodeId} {c0 c1 : Option NodeId} (b : Bool) (h : q ≠ p) :
    childOf (setChildren t p c0 c1) q b = childOf t q b := by
  have hv : q.val ≠ p.val := fun e => h (Fin.ext e)
  unfold childOf setChildren
  split
  · split
    · rw [Vector.getElem_set_ne _ _ (by omega)]
    · rfl
  · rfl

@[simp] theorem setChildren_variant (t : Tree) (p : NodeId) (a b : Option NodeId) : (setChildren t p a b).variant = t.variant := by
  unfold setChildren; split <;> rfl
@[simp] theorem setChildren_k (t : Tree) (p : NodeId) (a b : Option NodeId) : (setChildren t p a b).k = t.k := by
  unfold setChildren; split <;> rfl
@[simp] theorem setChildren_root (t : Tree) (p : NodeId) (a b : Option NodeId) : (setChildren t p a b).root = t.root := by
  unfold setChildren; split <;> rfl
@[simp] theorem setChildren_nextId (t : Tree) (p : NodeId) (a b : Option NodeId) : (setChildren t p a b).nextId = t.nextId := by
  unfold setChildren; split <;> rfl
@[simp] theorem setChildren_weight (t : Tree) (p : NodeId) (a b : Option NodeId) : (setChildren t p a b).weight = t.weight := by
  unfold setChildren; split <;> rfl
@[simp] theorem setChildren_parent (t : Tree) (p : NodeId) (a b : Option NodeId) : (setChildren t p a b).parent = t.parent := by
  unfold setChildren; split <;> rfl

/-- A tree with another parent file has the same children. -/
@[simp] theorem childOf_with_parent (t : Tree) (ps : Vector (Option NodeId) 21) (p : NodeId) (b : Bool) :
    childOf { t with parent := ps } p b = childOf t p b := rfl

/-! ## The merge -/

@[simp] theorem mergeNodes_variant (t : Tree) (a b n : NodeId) : (mergeNodes t a b n).variant = t.variant := by simp [mergeNodes]
@[simp] theorem mergeNodes_k (t : Tree) (a b n : NodeId) : (mergeNodes t a b n).k = t.k := by simp [mergeNodes]
@[simp] theorem mergeNodes_root (t : Tree) (a b n : NodeId) : (mergeNodes t a b n).root = t.root := by simp [mergeNodes]
@[simp] theorem mergeNodes_nextId (t : Tree) (a b n : NodeId) : (mergeNodes t a b n).nextId = BitVec.ofNat 5 (n.val + 1) := by
  simp [mergeNodes]
@[simp] theorem mergeNodes_weight (t : Tree) (a b n : NodeId) :
    (mergeNodes t a b n).weight = t.weight.set n (t.weight[a] + t.weight[b]) := by simp [mergeNodes]
@[simp] theorem mergeNodes_parent (t : Tree) (a b n : NodeId) :
    (mergeNodes t a b n).parent = (t.parent.set a (some n)).set b (some n) := by simp [mergeNodes]

/-! ## The order of candidates (R153) -/

/-- `lower` is the lexicographic order on weight and id. -/
theorem lower_iff {w : Vector Nat 21} {a b : NodeId} : lower w a b = true ↔ w[a] < w[b] ∨ w[a] = w[b] ∧ a < b := by
  simp [lower]

theorem lower_trans {w : Vector Nat 21} {a b d : NodeId} (h : lower w a b = true) (h' : lower w b d = true) :
    lower w a d = true := by
  rw [lower_iff] at *
  rcases h with h | ⟨h, g⟩ <;> rcases h' with h' | ⟨h', g'⟩
  · exact .inl (h.trans h')
  · exact .inl (h' ▸ h)
  · exact .inl (h ▸ h')
  · exact .inr ⟨h.trans h', g.trans g'⟩

/-- Of two distinct nodes one is lower. -/
theorem lower_total {w : Vector Nat 21} {a b : NodeId} (h : a ≠ b) : lower w a b = true ∨ lower w b a = true := by
  rw [lower_iff, lower_iff]
  rcases Nat.lt_trichotomy w[a] w[b] with hw | hw | hw
  · exact .inl (.inl hw)
  · rcases lt_or_gt_of_ne h with g | g
    · exact .inl (.inr ⟨hw, g⟩)
    · exact .inr (.inr ⟨hw.symm, g⟩)
  · exact .inr (.inl hw)

theorem lowest_eq_none {w : Vector Nat 21} {l : List NodeId} : lowest w l = none ↔ l = [] := by
  cases l with
  | nil => simp [lowest]
  | cons a as =>
    simp only [lowest]
    split
    · simp
    · split <;> simp

/-- `lowest` answers a member that is lower than every other one. -/
theorem lowest_spec {w : Vector Nat 21} {l : List NodeId} {a : NodeId} (h : lowest w l = some a) :
    a ∈ l ∧ ∀ b ∈ l, b ≠ a → lower w a b = true := by
  induction l generalizing a with
  | nil => simp [lowest] at h
  | cons x xs ih =>
    simp only [lowest] at h
    split at h
    · next hn =>
      cases h
      rw [lowest_eq_none] at hn
      subst hn
      simp
    · next y hy =>
      obtain ⟨hm, hl⟩ := ih hy
      split at h
      · next hxy =>
        cases h
        refine ⟨by simp, fun b hb hne => ?_⟩
        rcases List.mem_cons.1 hb with rfl | hb
        · exact absurd rfl hne
        · by_cases hby : b = y
          · exact hby ▸ hxy
          · exact lower_trans hxy (hl b hb hby)
      · next hxy =>
        cases h
        refine ⟨by simp [hm], fun b hb hne => ?_⟩
        rcases List.mem_cons.1 hb with rfl | hb
        · exact (lower_total hne).resolve_left hxy
        · exact hl b hb hne

/-! ## Linking a node (R178, stage D) -/

/-- Everything one turn of stage D can do when it does not fault: skip an absent leaf, or fill the first free slot of the parent. -/
theorem linkNode_ok {r n : NodeId} {v : Nat} {t u : Tree} (h : linkNode r n v t = .ok u) :
    (n.val ≤ 10 ∧ v = 10 ∧ u = t) ∨
      ∃ p : NodeId, p.val = 11 + v ∧ p ≤ r ∧ u.parent = t.parent.set n (some p) ∧
        ((childOf t p false = none ∧
            u = setChildren { t with parent := t.parent.set n (some p) } p (some n) (childOf t p true)) ∨
          (childOf t p false ≠ none ∧ childOf t p true = none ∧
            u = setChildren { t with parent := t.parent.set n (some p) } p (childOf t p false) (some n))) := by
  unfold linkNode at h
  split at h
  · next hv => cases h; exact .inl ⟨hv.1, hv.2, rfl⟩
  · split at h
    · next hr =>
      refine .inr ⟨⟨11 + v, by omega⟩, rfl, hr, ?_⟩
      dsimp only at h
      split at h
      · next h0 => cases h; exact ⟨by simp, .inl ⟨h0, rfl⟩⟩
      · next h0 =>
        split at h
        · next h1 => cases h; exact ⟨by simp, .inr ⟨h0, h1, rfl⟩⟩
        · cases h
    · cases h

end Sys2Proof.Machine
end

