-- ==== Sys2Proof/Machine/Assembler.lean ====
section
/-! DEFINITION. The assembler notation of R97 and the pseudo-instruction lines of R98, over lists of characters. Blanks and
letter case as log 13 says. -/

namespace Sys2Proof.Machine

open Sys2Proof

/-- The mnemonics in order of opcode (R93). -/
def mnemonicTable : List (List Char) :=
  [['S','T','A','T'], ['C','L','R'], ['T','O','K'], ['S','Y','M'], ['C','N','T'], ['B','L','D'], ['D','R','V'], ['S','E','R'],
   ['E','N','C'], ['F','I','N'], ['B','Y','T'], ['P','A','R'], ['D','E','C'], ['R','A','S'], ['R','D','B'], ['R','D','T']]

/-- Everything before the comment (R97). -/
def stripComment : List Char → List Char
  | [] => []
  | c :: cs => if c = ';' then [] else c :: stripComment cs

/-- The words of a line, split at spaces and tabs; `w` is the word read so far, reversed. -/
def lineWords : List Char → List Char → List (List Char)
  | [], w => if w = [] then [] else [w.reverse]
  | c :: cs, w =>
    if c = ' ' ∨ c = '\t' then (if w = [] then lineWords cs [] else w.reverse :: lineWords cs [])
    else lineWords cs (c :: w)

/-- The value of a digit character, decimal or hexadecimal. -/
def charDigit (c : Char) : Option Nat :=
  if '0'.toNat ≤ c.toNat ∧ c.toNat ≤ '9'.toNat then some (c.toNat - '0'.toNat)
  else if 'a'.toNat ≤ c.toNat ∧ c.toNat ≤ 'f'.toNat then some (c.toNat - 'a'.toNat + 10)
  else if 'A'.toNat ≤ c.toNat ∧ c.toNat ≤ 'F'.toNat then some (c.toNat - 'A'.toNat + 10)
  else none

/-- The digits of a number in the given base after the value `n`. -/
def numberGo (base : Nat) : List Char → Nat → Option Nat
  | [], n => some n
  | c :: cs, n =>
    match charDigit c with
    | none => none
    | some d => if d < base then numberGo base cs (base * n + d) else none

/-- A number, decimal or `0x` hexadecimal (R97). -/
def number : List Char → Option Nat
  | [] => none
  | '0' :: 'x' :: c :: cs => numberGo 16 (c :: cs) 0
  | c :: cs => numberGo 10 (c :: cs) 0

/-- An integer: a number with an optional leading minus (R98, `REC v`). -/
def integer : List Char → Option Int
  | '-' :: cs => (number cs).map fun n => -(n : Int)
  | cs => (number cs).map fun n => (n : Int)

/-- An operand: a number, or the names R97 gives the operands of `TOK` and `SYM`. -/
def asmOperand (op : Nat) (w : List Char) : Option Nat :=
  if op = 2 ∧ w = ['E','N','D'] then some 10
  else if op = 2 ∧ w = ['M','I','N','U','S'] then some 11
  else if op = 3 ∧ w = ['S','E','P'] then some 10
  else number w

/-- The command whose word is `OP * 4096 + operand` (R97); an operand the format has no room for is refused. -/
def asmCommand (op operand : Nat) : Option Instr :=
  if operand < 256 then
    match decode (BitVec.ofNat 16 (op * 4096 + operand)) with
    | .ok i => some i
    | .error _ => none
  else none

/-- The command of a mnemonic with the words after it (R97): none for format `N`, one operand otherwise. -/
def asmMnemonic (op : Nat) (ws : List (List Char)) : Option (List Instr) :=
  match formatOf (BitVec.ofNat 4 op), ws with
  | .n, [] => (asmCommand op 0).map fun i => [i]
  | .n, _ => none
  | _, [w] => ((asmOperand op w).bind (asmCommand op)).map fun i => [i]
  | _, _ => none

/-- The numbers of a `BLOB` line, each a byte. -/
def asmBytes : List (List Char) → Option (List Byte)
  | [] => some []
  | w :: ws =>
    match number w, asmBytes ws with
    | some n, some bs => if n < 256 then some (BitVec.ofNat 8 n :: bs) else none
    | _, _ => none

/-- A line: a command (R97) or a pseudo-instruction (R98), or nothing; `none` if it is neither. -/
def asmLine (line : List Char) : Option (List Instr) :=
  match lineWords (stripComment line) [] with
  | [] => some []
  | m :: ws =>
    match mnemonicTable.idxOf? m with
    | some op => asmMnemonic op ws
    | none =>
      if m = ['R','E','C'] then
        match ws with
        | [w] => (integer w).map recCommands
        | _ => none
      else if m = ['B','L','O','B'] then (asmBytes ws).map blobCommands
      else if m = ['E','N','C','O','D','E'] ∧ ws = [] then some encodeCommands
      else if m = ['D','E','C','O','D','E'] ∧ ws = [] then some decodeCommands
      else none

/-- A text, one command or pseudo-instruction a line (R97); `line` is the line read so far, reversed. -/
def assembleGo : List Char → List Char → Option (List Instr)
  | [], line => asmLine line.reverse
  | c :: cs, line =>
    if c = '\n' then
      match asmLine line.reverse, assembleGo cs [] with
      | some is, some js => some (is ++ js)
      | _, _ => none
    else assembleGo cs (c :: line)

/-- The commands of an assembler text (R97, R98). -/
def assemble (text : List Char) : Option (List Instr) := assembleGo text []

end Sys2Proof.Machine
end

