-- ==== Sys2Proof/Tests/Slice0.lean ====
section
/-! SUPPORT. Tests of the model against words and vectors of the spec, and for every statement with hypotheses a witness that
meets them. Expected values come from spec/95_test_vectors.md and the rules named. -/

namespace Sys2Proof.Tests

open Sys2Proof Sys2Proof.Machine Sys2Proof.Safety

/-! ## Helpers -/

/-- The reset state in another phase. -/
def at' (p : Phase) : State := { State.reset with phase := p }

/-- A faulted state, `ERR = (5, 1)`. -/
def failed : State := { State.reset with phase := .fault, errCause := 5, errDetail := 1 }

/-- Bits written as 0 and 1. -/
def bits (l : List Nat) : List Bool := l.map (· == 1)

/-- The outcome is a next state with the given response and property. -/
def nextWith (o : Host.Outcome State Fault Refusal) (rsp : Word) (p : State → Bool) : Bool :=
  match o with
  | .next t => t.rsp == rsp && p t
  | _ => false

/-- The outcome is the faulted state of `e`. -/
def raises (o : Host.Outcome State Fault Refusal) (e : ErrCode) (s : State) : Bool :=
  match o with
  | .next t => t == faulted e s
  | _ => false

/-- The tree of T1 (record 5): leaves 5 and 10 under node 11. -/
def treeT1 : Tree where
  variant := .full
  k := 2
  root := some 11
  nextId := 12
  weight := Vector.replicate 21 0
  parent := ((Vector.replicate 21 none).set 5 (some 11)).set 10 (some 11)
  child := (Vector.replicate 10 (none, none)).set 0 (some 5, some 10)

/-- The codes of T1. -/
def codesT1 : Vector (List Bool) 11 := ((Vector.replicate 11 []).set 5 [false]).set 10 [true]

/-- The tree of T2 (record -5): leaves 0 and 5 under node 11, leaf 10 and node 11 under node 12. -/
def treeT2 : Tree where
  variant := .full
  k := 3
  root := some 12
  nextId := 13
  weight := Vector.replicate 21 0
  parent := ((((Vector.replicate 21 none).set 0 (some 11)).set 5 (some 11)).set 10 (some 12)).set 11 (some 12)
  child := ((Vector.replicate 10 (none, none)).set 0 (some 0, some 5)).set 1 (some 10, some 11)

/-- The codes of T2. -/
def codesT2 : Vector (List Bool) 11 := (((Vector.replicate 11 []).set 0 [true, false]).set 5 [true, true]).set 10 [false]

/-- The counts of T2. -/
def freqT2 : Vector Nat 11 := #v[1, 0, 0, 0, 0, 1, 0, 0, 0, 0, 1]

/-- The header fields of T1 and of T2. -/
def fieldsT1 : List Nat := [10, 10, 10, 10, 10, 0, 10, 10, 10, 10, 0]

def fieldsT2 : List Nat := [0, 10, 10, 10, 10, 0, 10, 10, 10, 10, 1, 1]

/-- A `LOAD` state with a header of pad-length 0, the given fields and more bits. -/
def loaded (fs : List Nat) (more : List Bool) : State :=
  { at' .load with bitbuf := natBits 3 0 ++ fs.flatMap (natBits 4) ++ more }

/-! ## Well-formedness (R94; 95_test_vectors.md 2.14) -/

theorem test_wf_refuses_rsv : wordWellFormed 0x0100 = false := by decide
theorem test_wf_refuses_imm_of_n : wordWellFormed 0x0001 = false := by decide
theorem test_wf_refuses_imm_hi_of_t : wordWellFormed 0x2010 = false := by decide
theorem test_wf_refuses_rsv_of_b : wordWellFormed 0xA155 = false := by decide
theorem test_wf_accepts_b : wordWellFormed 0xA0FF = true := by decide

/-! ## Decoding: words written out from R90, R91, R93 -/

theorem test_decode_stat : decode 0b0000_0000_0000_0000 = .ok .stat := by decide
theorem test_decode_clr : decode 0b0001_0000_0000_0000 = .ok .clr := by decide
theorem test_decode_tok : decode 0b0010_0000_0000_1011 = .ok (.tok 11) := by decide
theorem test_decode_sym : decode 0b0011_0000_0000_1010 = .ok (.sym 10) := by decide
theorem test_decode_cnt : decode 0b0100_0000_0000_0000 = .ok .cnt := by decide
theorem test_decode_bld : decode 0b0101_0000_0000_0000 = .ok .bld := by decide
theorem test_decode_drv : decode 0b0110_0000_0000_0000 = .ok .drv := by decide
theorem test_decode_ser : decode 0b0111_0000_0000_0000 = .ok .ser := by decide
theorem test_decode_enc : decode 0b1000_0000_0000_0000 = .ok .enc := by decide
theorem test_decode_fin : decode 0b1001_0000_0000_0000 = .ok .fin := by decide
theorem test_decode_byt : decode 0b1010_0000_1000_0001 = .ok (.byt 0x81) := by decide
theorem test_decode_par : decode 0b1011_0000_0000_0000 = .ok .par := by decide
theorem test_decode_dec : decode 0b1100_0000_0000_0000 = .ok .dec := by decide
theorem test_decode_ras : decode 0b1101_0000_0000_0000 = .ok .ras := by decide
theorem test_decode_rdb : decode 0b1110_0000_0000_0000 = .ok .rdb := by decide
theorem test_decode_rdt : decode 0b1111_0000_0000_0000 = .ok .rdt := by decide
/-- V-TOK-16 and V-SYM-3: the operands 12 and 11 are well formed; their own rule faults. -/
theorem test_decode_faulting_operands : decode 0x200C = .ok (.tok 12) ∧ decode 0x300B = .ok (.sym 11) := by decide
theorem test_probe_decodes : decodeTableWord 16 0xA081 = some (.byt 0x81) ∧ decodeTableWord 16 0x1100 = none := by decide

/-! ## One step of each command -/

/-- V-SYS-2: `MORE` and `PHASE` 7. -/
theorem test_stat_more :
    nextWith (exec .stat { at' .doneEnc with bitbuf := bits [1, 1, 1, 1, 0, 1, 0, 1] }) 0x4007 (·.ord == 0) = true := by decide
/-- V-SYS-8: `ERR = (5, 1)` in `FAULT`. -/
theorem test_stat_fault : nextWith (exec .stat failed) 0xA81F (·.phase == .fault) = true := by decide
/-- V-SYS-9: `CLR` in `INGEST` with an open record. -/
theorem test_clr_ingest :
    exec .clr { at' .ingest with symbuf := [4, 2], recOpen := true, recNd := true, recNz := true } = .next State.reset := rfl
/-- V-TOK-6, third digit: the sign marker comes with the first non-zero digit. -/
theorem test_tok_negative_digit :
    nextWith (exec (.tok 7) { at' .ingest with recOpen := true, recNeg := true, recNd := true }) 0
      (fun t => t.symbuf == [0, 7] && t.recNz) = true := by decide
/-- V-TOK-4, `END`: `-0` collapses to `0`. -/
theorem test_tok_end_of_minus_zero :
    nextWith (exec (.tok 10) { at' .ingest with recOpen := true, recNeg := true, recNd := true }) 0
      (fun t => t.symbuf == [0, 10] && !t.recOpen && !t.recNeg) = true := by decide
/-- V-SYM-1. -/
theorem test_sym_seven : nextWith (exec (.sym 7) State.reset) 0 (fun t => t.symbuf == [7] && t.phase == .ingest) = true := by decide
/-- V-SYM-7: `RECORD_OPEN` before `BAD_SYMBOL`. -/
theorem test_sym_open_first :
    nextWith (exec (.sym 11) { at' .ingest with recOpen := true, recNd := true }) 0xA800 (·.errDetail == 2) = true := by decide
/-- V-CNT-3. -/
theorem test_cnt_counts :
    nextWith (exec .cnt { at' .ingest with symbuf := [1, 2, 10, 0, 3, 10, 0, 10] }) 0
      (·.freq == #v[2, 1, 1, 1, 0, 0, 0, 0, 0, 0, 3]) = true := by decide
/-- V-BLD-4: the lighter node 8 is selected first, yet slot 0 is the smaller id 3. -/
theorem test_bld_slots :
    nextWith (exec .bld { at' .counted with freq := #v[0, 0, 0, 2, 0, 0, 0, 0, 1, 0, 0] }) 0
      (fun t => t.tree.root == some 11 && t.tree.k == 2 && t.tree.weight[11] == 3 && t.tree.child[0] == (some 3, some 8)) = true := by
  decide
/-- V-BLD-9: on a tie of weights the leaf has the smaller id. -/
theorem test_bld_tie :
    nextWith (exec .bld { at' .counted with freq := #v[2, 1, 0, 0, 0, 0, 0, 0, 0, 0, 1] }) 0
      (fun t => t.tree.child[0] == (some 1, some 10) && t.tree.child[1] == (some 0, some 11) && t.tree.nextId == 13) = true := by
  decide
/-- V-DRV-5 with the leaves of T2: 0 is `10`, 5 is `11`, `SEP` is `0`. -/
theorem test_drv_codes :
    nextWith (exec .drv { at' .built with tree := buildTree freqT2 Tree.reset }) 0
      (fun t => t.code[0] == [true, false] && t.code[5] == [true, true] && t.code[10] == [false] && t.codeValid &&
        t.phase == .derived) = true := by decide
/-- T1: pad placeholder and fields, `HDR_END = 47`. -/
theorem test_ser_fields :
    nextWith (exec .ser { at' .derived with tree := treeT1 }) 0
      (fun t => t.hdrEnd == 47 && t.bitbuf == natBits 3 0 ++ fieldsT1.flatMap (natBits 4)) = true := by decide
/-- T2: the body `10 11 0`. -/
theorem test_enc_body :
    nextWith (exec .enc { at' .serialized with
      symbuf := [0, 5, 10], code := #v[[true, false], [], [], [], [], [true, true], [], [], [], [], [false]] }) 0
      (·.bitbuf == bits [1, 0, 1, 1, 0]) = true := by decide
/-- T5: one pad bit, backfilled: the byte 3E. -/
theorem test_fin_backfills :
    nextWith (exec .fin { at' .encoded with bitbuf := bits [0, 0, 0, 1, 1, 1, 1] }) 0x4000
      (fun t => t.pad == 1 && t.bitbuf == bits [0, 0, 1, 1, 1, 1, 1, 0]) = true := by decide
/-- T2: on a byte boundary no pad bit is added (R213). -/
theorem test_fin_on_boundary :
    nextWith (exec .fin { at' .encoded with bitbuf := bits [0, 0, 0, 1, 1, 1, 1, 0] }) 0x4000
      (fun t => t.pad == 0 && t.bitbuf.length == 8) = true := by decide
/-- P5: bit 7 first. -/
theorem test_byt_order :
    nextWith (exec (.byt 0x1B) State.reset) 0 (fun t => t.bitbuf == bits [0, 0, 0, 1, 1, 0, 1, 1] && t.phase == .load) = true := by
  decide
/-- T1: the tree of the header. -/
theorem test_par_tree :
    nextWith (exec .par (loaded fieldsT1 [false, true])) 0
      (fun t => t.tree == treeT1 && t.hdrEnd == 47 && t.limit == 49 && t.pad == 0) = true := by decide
/-- P5: first field 13 is `RESERVED_FIELD`. -/
theorem test_par_reserved :
    nextWith (exec .par { at' .load with bitbuf := bits [0, 0, 0, 1, 1, 0, 1, 1] }) 0x9000 (·.errDetail == 1) = true := by decide
/-- T1: the body `0 1`. -/
theorem test_dec_body :
    nextWith (exec .dec { at' .parsed with tree := treeT1, bitbuf := [false, true], limit := 2 }) 0
      (·.symbuf == [5, 10]) = true := by decide
/-- R223: a 1 in a `SINGLE` body is `BAD_BIT`. -/
theorem test_dec_bad_bit :
    nextWith (exec .dec { at' .parsed with
      tree := { Tree.reset with variant := .single, k := 1, root := some 7 }, bitbuf := [false, true], limit := 2 }) 0x9800
      (·.errDetail == 4) = true := by decide
/-- T2: `[0, 5, 10]` is the record -5. -/
theorem test_ras_negative :
    nextWith (exec .ras { at' .decoded with symbuf := [0, 5, 10] }) 0x4000
      (fun t => t.recs == [-5] && t.otok.map tokenCode == [11, 5, 10]) = true := by decide
/-- P4: no `SEP` at the end. -/
theorem test_ras_unterminated :
    nextWith (exec .ras { at' .decoded with symbuf := [7, 7, 7] }) 0x9800 (·.errDetail == 6) = true := by decide
/-- V-SYS-3, first and only byte here: F5 with `MORE` 0. -/
theorem test_rdb_last :
    nextWith (exec .rdb { at' .doneEnc with bitbuf := bits [1, 1, 1, 1, 0, 1, 0, 1] }) 0x00F5 (·.ord == 1) = true := by decide
/-- V-SYS-4: `OVERREAD`. -/
theorem test_rdb_overread :
    nextWith (exec .rdb { at' .doneEnc with ord := 1, bitbuf := bits [1, 1, 1, 1, 0, 1, 0, 1] }) 0xA800 (·.errDetail == 3) = true := by
  decide
/-- V-SYS-5: `RDT` gives 0x4005. -/
theorem test_rdt_more :
    nextWith (exec .rdt { at' .doneDec with otok := [.digit 5, .endRec] }) 0x4005 (·.ord == 1) = true := by decide
/-- V-SYS-6: nothing to read. -/
theorem test_rdt_overread : nextWith (exec .rdt (at' .doneDec)) 0xA800 (·.errDetail == 3) = true := by decide

/-! ## The port -/

/-- 2.14: 0x1100 is no `CLR`. -/
theorem test_port_illFormed :
    nextWith (step (State.reset.withFetchWord 16 0x1100)) 0xB000 (fun t => t.errCause == 6 && t.errDetail == 1) = true := by decide
/-- V-SYS-8: an ill-formed word in `FAULT` keeps `ERR`. -/
theorem test_port_illFormed_in_fault :
    nextWith (step (failed.withFetchWord 16 0x1100)) 0xA800 (fun t => t.errCause == 5 && t.errDetail == 1) = true := by decide
/-- The presented word runs in the very next step. -/
theorem test_port_runs : step (State.reset.withFetchWord 16 0x3007) = exec (.sym 7) State.reset := rfl

/-- R271 to R278: the `STAT` words of all faults, cause and detail. -/
theorem test_fault_codes :
    ([ErrCode.badToken, .minusNotLeading, .emptyRecord].map fun e => (causeCode e, detailCode e)) = [(1, 1), (1, 2), (1, 3)] ∧
    ([ErrCode.reservedField, .badSingleSym, .tooFewLeaves, .noSuchNode, .thirdChild, .cycle, .nodeCount].map
      fun e => (causeCode e, detailCode e)) = [(2, 1), (2, 2), (2, 3), (2, 4), (2, 5), (2, 6), (2, 7)] ∧
    ([ErrCode.noPadField, .header, .midSymbol, .badBit, .bodyNotEmpty, .unterminated, .emptyGroup].map
      fun e => (causeCode e, detailCode e)) = [(3, 1), (3, 2), (3, 3), (3, 4), (3, 5), (3, 6), (3, 7)] ∧
    ([ErrCode.badSymbol, .noCode, .wrongPhase, .recordOpen, .overread, .reservedBits].map fun e => (causeCode e, detailCode e)) =
      [(4, 1), (4, 2), (5, 1), (5, 2), (5, 3), (6, 1)] ∧
    ([ErrCode.symbufFull, .bitbufFull, .outFull].map fun e => (causeCode e, detailCode e)) = [(7, 1), (7, 2), (7, 3)] := by decide

/-- R10, R25, R21: register codes. -/
theorem test_register_codes :
    nodeRegBits none = 31 ∧ nodeRegBits (some 20) = 20 ∧ variantCode .full = 3 ∧ phaseCode .doneDec = 11 ∧ phaseCode .fault = 15 := by
  decide

/-- R97, R98: mnemonics, named operands, a comment, and the expansion of `REC -3`. -/
theorem test_assembler :
    assemble ['T', 'O', 'K', ' ', 'M', 'I', 'N', 'U', 'S', ' ', ';', 'x', '\n', 'B', 'Y', 'T', ' ', '0', 'x', '3', 'E', '\n',
      'R', 'E', 'C', ' ', '-', '3'] = some [.tok 11, .byt 0x3E, .tok 11, .tok 3, .tok 10] := by decide

/-- 2.9 and R11: decimal notation. -/
theorem test_digits : digits 0 = [0] ∧ digits 907 = [9, 0, 7] ∧ value [0, 0, 7] = 7 ∧ groupValue [0, 0] = 0 := by decide

/-! ## Witnesses: one step -/

theorem witness_DecodeAcceptsExactlyTheWellFormedWords : wordWellFormed 0xA0FF = true ∧ wordWellFormed 0xA100 = false := by decide

theorem witness_StepRunsTheDecodedCommand :
    ({ State.reset with inbox := [.command 0x3007, .reset] } : State).inbox = .command 0x3007 :: [.reset] ∧
      decode 0x3007 = .ok (.sym 7) := by decide

/-- In `FAULT` and outside it. -/
theorem witness_IllFormedWordRaisesReservedBits :
    wordWellFormed 0x1100 = false ∧ failed.phase = .fault ∧ State.reset.phase ≠ .fault := by decide

theorem witness_ResetInputClearsAndEmptyPortWaits :
    ({ failed with inbox := [.reset] } : State).inbox = .reset :: [] ∧ failed.inbox = [] := by decide

theorem witness_FaultIsSticky :
    failed.phase = .fault ∧ Instr.tok 5 ≠ .stat ∧ Instr.tok 5 ≠ .clr ∧ wordWellFormed 0x1100 = false := by decide

theorem witness_WrongPhaseRaisesSequenceError :
    Instr.bld ≠ .stat ∧ Instr.bld ≠ .clr ∧ State.reset.phase ≠ .fault ∧
      State.reset.phase ∉ (phaseTable .bld).map Prod.fst := by decide

/-- A phase outside every command rule's list that is not `FAULT` (the head of the fourteen command rules). -/
theorem witness_RuleHead :
    ∀ legal ∈ [[Phase.idle, .ingest], [.counted], [.built, .parsed], [.derived], [.serialized], [.encoded], [.idle, .load],
      [.parsed], [.decoded], [.doneEnc]], (at' .doneDec).phase ≠ .fault ∧ (at' .doneDec).phase ∉ legal ∧
        (at' .idle).phase ∉ [Phase.doneDec] := by decide

/-- `STAT`, `CLR`, a success, a fault. -/
theorem witness_PhaseAfterEachCommand :
    (∃ t, exec .stat failed = .next t) ∧ (∃ t, exec .clr failed = .next t) ∧ (∃ t, exec (.tok 5) State.reset = .next t) ∧
      ∃ t, exec (.tok 12) State.reset = .next t := ⟨⟨_, rfl⟩, ⟨_, rfl⟩, ⟨_, rfl⟩, ⟨_, rfl⟩⟩

/-- By `CLR` and by the reset input. -/
theorem witness_FaultIsLeftOnlyByClear :
    failed.phase = .fault ∧
      (∃ t, step { failed with inbox := [.command 0x1000] } = .next t ∧ t.phase ≠ .fault) ∧
      ∃ t, step { failed with inbox := [.reset] } = .next t ∧ t.phase ≠ .fault :=
  ⟨rfl, ⟨_, rfl, by decide⟩, ⟨_, rfl, by decide⟩⟩

/-- The last byte and one past it. -/
theorem witness_RdbReadsTheNextByte :
    let s : State := { at' .doneEnc with bitbuf := List.replicate 8 true }
    s.phase = .doneEnc ∧ ErrWf s ∧ s.ord < s.bitbuf.length / 8 ∧
      ErrWf { s with ord := 1 } ∧ ¬ ({ s with ord := 1 } : State).ord < s.bitbuf.length / 8 := by decide

/-- The last token and one past it. -/
theorem witness_RdtReadsTheNextToken :
    let s : State := { at' .doneDec with otok := [.endRec] }
    s.phase = .doneDec ∧ ErrWf s ∧ s.otok[s.ord]? = some .endRec ∧
      ErrWf { s with ord := 1 } ∧ s.otok.length ≤ ({ s with ord := 1 } : State).ord := by decide

/-- `STAT`, `RDB`, `RDT`, a fault. -/
theorem witness_ResponseWordTellsTheStateAfter :
    (∃ t, exec .stat failed = .next t) ∧
      (∃ t, exec .rdb { at' .doneEnc with bitbuf := List.replicate 8 true } = .next t ∧ t.phase ≠ .fault) ∧
      (∃ t, exec .rdt { at' .doneDec with otok := [.endRec] } = .next t ∧ t.phase ≠ .fault) ∧
      ∃ t, exec .rdt (at' .doneDec) = .next t ∧ t.phase = .fault :=
  ⟨⟨_, rfl⟩, ⟨_, rfl, by decide⟩, ⟨_, rfl, by decide⟩, ⟨_, rfl, by decide⟩⟩

/-! ## Witnesses: front end, counter, builder -/

theorem witness_TokMinusOpensANegativeRecord :
    (State.reset.phase = .idle ∨ State.reset.phase = .ingest) ∧ ErrWf State.reset ∧ State.reset.recOpen = false := by decide

/-- A fitting digit, and one that does not fit. -/
theorem witness_TokDigitAppendsItsSymbols :
    let s : State := { at' .ingest with cfg := { Config.reference with symbufCap := some 1 } }
    (s.phase = .idle ∨ s.phase = .ingest) ∧ ErrWf s ∧ fits s.cfg.symbufCap s.symbuf.length (digitSymbols s 9).length = true ∧
      fits s.cfg.symbufCap ({ s with symbuf := [9] } : State).symbuf.length (digitSymbols { s with symbuf := [9] } 9).length =
        false := by decide

theorem witness_TokEndClosesTheRecord :
    let s : State := { at' .ingest with recOpen := true, recNd := true, cfg := { Config.reference with symbufCap := some 1 } }
    (s.phase = .idle ∨ s.phase = .ingest) ∧ ErrWf s ∧ s.recOpen = true ∧ s.recNd = true ∧
      fits s.cfg.symbufCap s.symbuf.length (if s.recNz then 1 else 2) = false ∧
      fits s.cfg.symbufCap s.symbuf.length (if ({ s with recNz := true } : State).recNz then 1 else 2) = true := by decide

/-- An open record; the operands 10 and 11 between records; a capacity of one cell that just takes the symbol, and the same buffer full. -/
theorem witness_SymAppendsOneSymbol :
    let s : State := { at' .ingest with cfg := { Config.reference with symbufCap := some 1 } }
    (s.phase = .idle ∨ s.phase = .ingest) ∧ ErrWf s ∧ ({ s with recOpen := true } : State).recOpen = true ∧
      s.recOpen = false ∧ 11 ≤ (11#4).toNat ∧ fits s.cfg.symbufCap s.symbuf.length 1 = true ∧
      fits s.cfg.symbufCap ({ s with symbuf := [10] } : State).symbuf.length 1 = false := by decide

/-- Each clause at its boundary. -/
theorem witness_TokFaults :
    let o : State := { at' .ingest with recOpen := true }
    ((at' .ingest).phase = .idle ∨ (at' .ingest).phase = .ingest) ∧ 12 ≤ (12#4).toNat ∧ 12 ≤ (15#4).toNat ∧
      o.recOpen = true ∧ (o.recOpen = false ∨ o.recNd = false) ∧
      ((at' .ingest).recOpen = false ∨ ({ at' .ingest with recNd := true } : State).recNd = false) := by decide

/-- The record `-07`; three cells take its projection `0 7 SEP`, two do not. -/
theorem witness_RecordEntryProjectsItsValue :
    let r : Bool × List (Fin 10) := (true, [0, 7])
    (State.reset.phase = .idle ∨ State.reset.phase = .ingest) ∧ ErrWf State.reset ∧ State.reset.recOpen = false ∧ r.2 ≠ [] ∧
      fits (some 3) State.reset.symbuf.length (project (textValue r)).length = true ∧
      fits (some 2) State.reset.symbuf.length (project (textValue r)).length = false := by decide

/-- The conditions of the last clause: a digit list of 907. -/
theorem witness_DigitsAreMinimal :
    (907 : Nat) ≠ 0 ∧ [(9 : Fin 10), 0, 7] ≠ [] ∧ [(9 : Fin 10), 0, 7].head? ≠ some 0 ∧ value [9, 0, 7] = 907 := by decide

theorem witness_CntCountsEverySymbol :
    let s : State := { at' .ingest with symbuf := [10] }
    (s.phase = .idle ∨ s.phase = .ingest) ∧ ErrWf s ∧ s.recOpen = false ∧ ErrWf { s with recOpen := true } := by decide

/-- V-BLD-1 and V-BLD-3. -/
theorem witness_BldMakesTheDegenerateShapes :
    let s : State := { at' .counted with freq := (Vector.replicate 11 0).set 10 1 }
    (at' .counted).phase = .counted ∧ ErrWf (at' .counted) ∧ (∀ y : Sym, (at' .counted).freq[y] = 0) ∧
      s.phase = .counted ∧ ErrWf s ∧ 0 < s.freq[(10 : Sym)] ∧ ∀ y : Sym, y ≠ 10 → s.freq[y] = 0 := by decide

theorem witness_BldBuildsAFinishedTree :
    let s : State := { at' .counted with freq := freqT2 }
    s.phase = .counted ∧ ErrWf s ∧ s.tree = Tree.reset ∧ 2 ≤ (allSyms.filter fun x => 0 < s.freq[x]).length := by decide

/-- V-BLD-7: node 11 merges 0 and 1 while 2 waits for node 12. -/
theorem witness_BldMergesTheTwoLowest :
    let t := buildTree #v[1, 1, 1, 1, 0, 0, 0, 0, 0, 0, 0] Tree.reset
    childOf t 11 false = some 0 ∧ childOf t 11 true = some 1 ∧ (2 : NodeId) ≠ 0 ∧ (2 : NodeId) ≠ 1 ∧ (2 : NodeId) < 11 ∧
      t.parent[(2 : NodeId)] = some 12 ∧ (11 : NodeId) < 12 := by decide

/-! ## Witnesses: code table -/

/-- The tree of T1 is a finished tree. -/
theorem treeT1_full : FullTree treeT1 11 where
  variant_full := rfl
  root_eq := rfl
  root_val := by decide
  nextId_eq := by decide
  leaf_count := by decide
  inner_parent := by decide
  parent_range := by decide
  children := by
    intro p h1 h2
    obtain rfl : p = 11 := by apply Fin.ext; have : p.val ≤ 11 := h2; show p.val = 11; omega
    exact ⟨5, 10, by decide⟩
  no_children := by decide
  child_iff := by decide
  reaches_root := by decide

theorem codesT1_of_treeT1 : CodesOf treeT1 codesT1 := by
  have hr : CodePath treeT1 11 [] := .root 11 rfl
  have h5 : CodePath treeT1 5 [false] := .step 5 11 [] (by decide) (by decide) hr
  have h10 : CodePath treeT1 10 [true] := .step 10 11 [] (by decide) (by decide) hr
  show ∀ x : Sym, if treeT1.parent[leafOf x] = none then codesT1[x] = [] else CodePath treeT1 (leafOf x) codesT1[x]
  intro x
  fin_cases x <;> first | exact h5 | exact h10 | exact rfl

/-- The tree of T2 is a finished tree. -/
theorem treeT2_full : FullTree treeT2 12 where
  variant_full := rfl
  root_eq := rfl
  root_val := by decide
  nextId_eq := by decide
  leaf_count := by decide
  inner_parent := by decide
  parent_range := by decide
  children := by
    intro p h1 h2
    have h3 : p.val ≤ 12 := h2
    obtain rfl | rfl : p = 11 ∨ p = 12 := by
      rcases (by omega : p.val = 11 ∨ p.val = 12) with h | h
      · exact .inl (Fin.ext h)
      · exact .inr (Fin.ext h)
    · exact ⟨0, 5, by decide⟩
    · exact ⟨10, 11, by decide⟩
  no_children := by decide
  child_iff := by decide
  reaches_root := by decide

theorem codesT2_of_treeT2 : CodesOf treeT2 codesT2 := by
  have hr : CodePath treeT2 12 [] := .root 12 rfl
  have h10 : CodePath treeT2 10 [false] := .step 10 12 [] (by decide) (by decide) hr
  have h11 : CodePath treeT2 11 [true] := .step 11 12 [] (by decide) (by decide) hr
  have h0 : CodePath treeT2 0 [true, false] := .step 0 11 [true] (by decide) (by decide) h11
  have h5 : CodePath treeT2 5 [true, true] := .step 5 11 [true] (by decide) (by decide) h11
  show ∀ x : Sym, if treeT2.parent[leafOf x] = none then codesT2[x] = [] else CodePath treeT2 (leafOf x) codesT2[x]
  intro x
  fin_cases x <;> first | exact h0 | exact h5 | exact h10 | exact rfl

theorem witness_DrvDerivesTheCodes :
    let s : State := { at' .built with tree := treeT1 }
    let q : State := { at' .parsed with tree := treeT1 }
    (s.phase = .built ∨ s.phase = .parsed) ∧ ErrWf s ∧ TreeWf s.tree ∧ (q.phase = .built ∨ q.phase = .parsed) ∧ ErrWf q ∧
      TreeWf q.tree :=
  ⟨by decide, by decide, ⟨11, treeT1_full⟩, by decide, by decide, ⟨11, treeT1_full⟩⟩

theorem witness_CodesArePrefixFreeAndComplete :
    FullTree treeT1 11 ∧ CodesOf treeT1 codesT1 ∧ treeT1.parent[leafOf 5].isSome = true ∧ codesT1[(5 : Sym)] ≠ [] ∧
      codesT1[(10 : Sym)] ≠ [] := ⟨treeT1_full, codesT1_of_treeT1, by decide, by decide, by decide⟩

theorem witness_LookupInvertsTheCodeTable : FullTree treeT1 11 ∧ CodesOf treeT1 codesT1 := ⟨treeT1_full, codesT1_of_treeT1⟩

/-! ## Witnesses: tree codec -/

/-- `EMPTY`, `SINGLE` of the largest symbol, `FULL`. -/
theorem witness_SerWritesPlaceholderAndFields :
    let e : State := { at' .derived with tree := { Tree.reset with variant := .empty } }
    let o : State := { at' .derived with tree := { Tree.reset with variant := .single, k := 1, root := some 10 } }
    let f : State := { at' .derived with tree := treeT1 }
    (e.phase = .derived ∧ ErrWf e ∧ TreeWf e.tree ∧ e.tree.variant = .empty) ∧
      (o.phase = .derived ∧ ErrWf o ∧ TreeWf o.tree ∧ o.tree.variant = .single ∧ o.tree.root = some (leafOf 10)) ∧
      f.phase = .derived ∧ ErrWf f ∧ TreeWf f.tree ∧ f.tree.variant = .full ∧ f.tree.root = some 11 :=
  ⟨⟨rfl, by decide, ⟨rfl, rfl, rfl, rfl, rfl⟩, rfl⟩, ⟨rfl, by decide, ⟨rfl, ⟨10, rfl⟩, rfl, rfl, rfl⟩, rfl, rfl⟩, rfl, by decide,
    ⟨11, treeT1_full⟩, rfl, rfl⟩

/-- The shortest `EMPTY` and `SINGLE` blobs: exactly the header and the pad bits. -/
theorem witness_ParReadsTheDegenerateHeaders :
    let e : State := { at' .load with bitbuf := natBits 3 1 ++ natBits 4 15 ++ [false] }
    let o : State := { at' .load with bitbuf := natBits 3 0 ++ natBits 4 14 ++ natBits 4 10 ++ [] }
    (e.phase = .idle ∨ e.phase = .load) ∧ ErrWf e ∧ 1 < 8 ∧ e.bitbuf = natBits 3 1 ++ natBits 4 15 ++ [false] ∧
      7 + 1 ≤ e.bitbuf.length ∧ (o.phase = .idle ∨ o.phase = .load) ∧ ErrWf o ∧ 0 < 8 ∧
      o.bitbuf = natBits 3 0 ++ natBits 4 14 ++ natBits 4 (10 : Sym).val ++ [] ∧ 11 + 0 ≤ o.bitbuf.length := by decide

theorem witness_ParRebuildsEveryFinishedTree :
    let s : State := loaded fieldsT1 []
    (s.phase = .idle ∨ s.phase = .load) ∧ ErrWf s ∧ s.tree = Tree.reset ∧ FullTree treeT1 11 ∧
      treeT1.weight = Vector.replicate 21 0 ∧ headerFields treeT1 = .ok fieldsT1 ∧ 0 < 8 ∧
      s.bitbuf = natBits 3 0 ++ fieldsT1.flatMap (natBits 4) ++ [] ∧ 3 + 4 * fieldsT1.length + 0 ≤ s.bitbuf.length :=
  ⟨by decide, by decide, rfl, treeT1_full, by decide, by decide, by decide, by decide, by decide⟩

theorem witness_ParAcceptsOnlyFinishedTrees :
    (loaded fieldsT1 []).tree = Tree.reset ∧ ∃ t, exec .par (loaded fieldsT1 []) = .next t ∧ t.phase = .parsed :=
  ⟨rfl, _, rfl, by decide⟩

/-- Each of the five clauses at its boundary. -/
theorem witness_ParFirstFieldFaults :
    let a : State := { at' .load with bitbuf := [true, true] }
    let b : State := { at' .load with bitbuf := [false, false, false, true, true, true] }
    (a.phase = .idle ∨ a.phase = .load) ∧ a.bitbuf.length < 3 ∧ 3 ≤ b.bitbuf.length ∧ limitOf b < 7 ∧
      (7 ≤ limitOf (loaded [11] []) ∧ 11 ≤ fieldAt (loaded [11] []) 0 ∧ fieldAt (loaded [11] []) 0 ≤ 13) ∧
      (7 ≤ limitOf (loaded [13] []) ∧ 11 ≤ fieldAt (loaded [13] []) 0 ∧ fieldAt (loaded [13] []) 0 ≤ 13) ∧
      (7 ≤ limitOf (loaded [14] []) ∧ limitOf (loaded [14] [true, true, true]) < 11 ∧ fieldAt (loaded [14] []) 0 = 14) ∧
      11 ≤ limitOf (loaded [14, 11] []) ∧ fieldAt (loaded [14, 11] []) 0 = 14 ∧ 11 ≤ fieldAt (loaded [14, 11] []) 1 := by decide

/-- A missing and an illegal second field, a missing and an illegal first internal field, and one leaf only. -/
theorem witness_ParFieldFaultsInStreamOrder :
    let short := loaded [0] []
    let high := loaded [0, 11] []
    let shortInner := loaded (fieldsT2.take 11) []
    let highInner := loaded (fieldsT2.take 11 ++ [10]) []
    let one := loaded [0, 10, 10, 10, 10, 10, 10, 10, 10, 10, 10] []
    (7 ≤ limitOf short ∧ fieldAt short 0 ≤ 10 ∧ (∀ j, j < 1 → 7 + 4 * j ≤ limitOf short ∧ fieldAt short j ≤ fieldTop j) ∧
        limitOf short < 7 + 4 * 1) ∧
      (7 ≤ limitOf high ∧ fieldAt high 0 ≤ 10 ∧ (∀ j, j < 1 → 7 + 4 * j ≤ limitOf high ∧ fieldAt high j ≤ fieldTop j) ∧
        7 + 4 * 1 ≤ limitOf high ∧ fieldTop 1 < fieldAt high 1) ∧
      (7 ≤ limitOf shortInner ∧ fieldAt shortInner 0 ≤ 10 ∧
        (∀ j, j < 11 → 7 + 4 * j ≤ limitOf shortInner ∧ fieldAt shortInner j ≤ fieldTop j) ∧
        2 ≤ leavesPresent shortInner ∧ 11 < 9 + leavesPresent shortInner ∧ limitOf shortInner < 7 + 4 * 11) ∧
      (7 ≤ limitOf highInner ∧ fieldAt highInner 0 ≤ 10 ∧
        (∀ j, j < 11 → 7 + 4 * j ≤ limitOf highInner ∧ fieldAt highInner j ≤ fieldTop j) ∧
        2 ≤ leavesPresent highInner ∧ 11 < 9 + leavesPresent highInner ∧ 7 + 4 * 11 ≤ limitOf highInner ∧
        fieldTop 11 < fieldAt highInner 11) ∧
      7 ≤ limitOf one ∧ fieldAt one 0 ≤ 10 ∧ (∀ j, j ≤ 10 → 7 + 4 * j ≤ limitOf one ∧ fieldAt one j ≤ 10) ∧
        leavesPresent one < 2 := by decide

/-- A parent above the root (first node), a third child, and a cycle of node 11 with itself. -/
theorem witness_ParStructureFaults :
    let above := loaded [1, 10, 10, 10, 10, 10, 10, 10, 10, 10, 0] []
    let third := loaded [0, 0, 10, 10, 10, 10, 10, 10, 10, 10, 0, 1] []
    let cyclic := loaded [0, 10, 10, 10, 10, 1, 10, 10, 10, 10, 1, 0] []
    (2 ≤ leavesPresent above ∧
        (∀ j, j < 9 + leavesPresent above → 7 + 4 * j ≤ limitOf above ∧ fieldAt above j ≤ fieldTop j) ∧
        namesParent above 0 = true ∧ 9 + leavesPresent above < 11 + fieldAt above 0) ∧
      (2 ≤ leavesPresent third ∧
        (∀ j, j < 9 + leavesPresent third → 7 + 4 * j ≤ limitOf third ∧ fieldAt third j ≤ fieldTop j) ∧
        (breaksLinking third 10 ∧ ∀ j, j < 10 → ¬ breaksLinking third j)) ∧
      2 ≤ leavesPresent cyclic ∧
        (∀ j, j < 9 + leavesPresent cyclic → 7 + 4 * j ≤ limitOf cyclic ∧ fieldAt cyclic j ≤ fieldTop j) ∧
        (∀ i, i < 9 + leavesPresent cyclic → ¬ breaksLinking cyclic i) ∧
        11 < 9 + leavesPresent cyclic ∧ climbFields cyclic (leavesPresent cyclic - 1) 11 ≠ 9 + leavesPresent cyclic := by
  unfold breaksLinking
  decide

/-! ## Witnesses: stream codec and reassembler -/

/-- Codes for all symbols, and a stream whose second symbol has none. -/
theorem witness_EncAppendsTheCodes :
    let s : State := { at' .serialized with symbuf := [5, 10], code := codesT1 }
    let n : State := { s with symbuf := [5, 3, 10] }
    s.phase = .serialized ∧ ErrWf s ∧ (∀ x ∈ s.symbuf, s.code[x] ≠ []) ∧ n.phase = .serialized ∧ ErrWf n ∧
      n.symbuf = [5] ++ 3 :: [10] ∧ (∀ y ∈ [(5 : Sym)], n.code[y] ≠ []) ∧ n.code[(3 : Sym)] = [] := by decide

theorem witness_FinPadsAndBackfills :
    let s : State := { at' .encoded with bitbuf := [false, false, false] }
    s.phase = .encoded ∧ ErrWf s ∧ 3 ≤ s.bitbuf.length := by decide

/-- A capacity of 8 bits that just takes the byte, and one of 7 that does not. -/
theorem witness_BytAppendsEightBits :
    let s : State := { at' .load with cfg := { Config.reference with bitbufCap := some 8 } }
    (s.phase = .idle ∨ s.phase = .load) ∧ ErrWf s ∧ fits s.cfg.bitbufCap s.bitbuf.length 8 = true ∧
      fits (some 7) s.bitbuf.length 8 = false := by decide

/-- The body `0 11` whole, the same cut inside the second code, and one symbol too many. -/
theorem witness_DecWalksTheFullBody :
    let s : State := { at' .parsed with tree := treeT2, bitbuf := [false, true, true], limit := 3 }
    let m : State := { s with limit := 2 }
    s.phase = .parsed ∧ ErrWf s ∧ FullTree s.tree 12 ∧ CodesOf s.tree codesT2 ∧ s.limit ≤ s.bitbuf.length ∧
      (∀ x ∈ [(10 : Sym), 5], codesT2[x] ≠ []) ∧
      (s.bitbuf.take s.limit).drop s.hdrEnd = [(10 : Sym), 5].flatMap (fun x => codesT2[x]) ++ [] ∧
      fits s.cfg.symbufCap 0 [(10 : Sym), 5].length = true ∧
      m.limit ≤ m.bitbuf.length ∧ (∀ x ∈ [(10 : Sym)], codesT2[x] ≠ []) ∧
      (m.bitbuf.take m.limit).drop m.hdrEnd = [(10 : Sym)].flatMap (fun x => codesT2[x]) ++ [true] ∧
      [true] ≠ [] ∧ [true] <+: codesT2[(5 : Sym)] ∧ [true] ≠ codesT2[(5 : Sym)] ∧ fits (some 1) 0 [(10 : Sym)].length = true ∧
      fits (some 1) 0 [(10 : Sym), 5].length = false :=
  ⟨rfl, by decide, treeT2_full, codesT2_of_treeT2, by decide, by decide, by decide, by decide, by decide, by decide, by decide,
    by decide, by decide, by decide, by decide, by decide⟩

/-- `EMPTY` with and without a body bit, `SINGLE` whole, with a 1, and with one symbol too many. -/
theorem witness_DecOfTheDegenerateBodies :
    let e : State := { at' .parsed with tree := { Tree.reset with variant := .empty } }
    let o : State := { at' .parsed with
      tree := { Tree.reset with variant := .single, k := 1, root := some 10 }, bitbuf := [false, true], limit := 1 }
    e.phase = .parsed ∧ ErrWf e ∧ e.tree.variant = .empty ∧ e.hdrEnd = e.limit ∧ e.hdrEnd ≠ ({ e with limit := 1 } : State).limit ∧
      o.phase = .parsed ∧ ErrWf o ∧ o.tree.variant = .single ∧ o.tree.root = some (leafOf 10) ∧ o.limit ≤ o.bitbuf.length ∧
      (o.bitbuf.take o.limit).drop o.hdrEnd = List.replicate 1 false ++ [] ∧
      (o.bitbuf.take 2).drop o.hdrEnd = List.replicate 1 false ++ [true] ∧ [true].head? = some true ∧
      fits (some 1) 0 1 = true ∧ fits (some 0) 0 1 = false := by decide

theorem witness_RasReassemblesTheGroups :
    let s : State := { at' .decoded with symbuf := [0, 5, 10] }
    s.phase = .decoded ∧ ErrWf s ∧ (∀ g ∈ [[(0 : Fin 10), 5]], g ≠ []) ∧
      s.symbuf = [[(0 : Fin 10), 5]].flatMap (fun g => g.map symOfDigit ++ [Sym.sep]) := by decide

/-- A stream that ends in a digit, and one with an empty second group. -/
theorem witness_RasRefusesBrokenStreams :
    let u : State := { at' .decoded with symbuf := [7] }
    let e : State := { at' .decoded with symbuf := [7, 10, 10] }
    u.phase = .decoded ∧ u.symbuf ≠ [] ∧ u.symbuf.getLast? ≠ some Sym.sep ∧ e.phase = .decoded ∧
      (∀ g ∈ [[(7 : Fin 10)]], g ≠ []) ∧
      e.symbuf = [[(7 : Fin 10)]].flatMap (fun g => g.map symOfDigit ++ [Sym.sep]) ++ Sym.sep :: [] ∧
      e.symbuf.getLast? = some Sym.sep ∧ fits (some 2) 0 (([[(7 : Fin 10)]].map groupValue).flatMap tokens).length = true ∧
      fits (some 1) 0 (([[(7 : Fin 10)]].map groupValue).flatMap tokens).length = false := by decide

/-! ## Witnesses: entry points and invariants -/

theorem witness_SymbolRoundTrip : failed.cfg = Config.reference := rfl

/-- The records `-0` and `007`. -/
theorem witness_RecordRoundTrip :
    (∀ r ∈ [(true, [(0 : Fin 10)]), (false, [0, 0, 7])], r.2 ≠ []) ∧ failed.cfg = Config.reference := by decide

theorem witness_RecordsGiveAFullTree : [(0 : Int)] ≠ [] := by decide

theorem witness_BlobLayoutAndSize : ∃ b, encodeSymbols [] = .ok b := ⟨_, rfl⟩

theorem witness_EncodeCommandsComputeTheBlob : failed.cfg = Config.reference := rfl

theorem witness_DecodeCommandsComputeTheRecords : failed.cfg = Config.reference := rfl

/-- A step out of `FAULT` and a step into it. -/
theorem witness_StepKeepsErrWellFormed :
    ErrWf { failed with inbox := [.command 0x1000] } ∧ (∃ t, step { failed with inbox := [.command 0x1000] } = .next t) ∧
      ErrWf { State.reset with inbox := [.command 0x5000] } ∧ ∃ t, step { State.reset with inbox := [.command 0x5000] } = .next t :=
  ⟨by decide, ⟨_, rfl⟩, by decide, ⟨_, rfl⟩⟩

theorem witness_StepKeepsRecordFlags :
    RecFlagsWf { State.reset with inbox := [.command 0x200B] } ∧ ∃ t, step { State.reset with inbox := [.command 0x200B] } = .next t :=
  ⟨by decide, ⟨_, rfl⟩⟩

/-- A full buffer of one cell with counts of one bit. -/
theorem witness_StepKeepsCapacity :
    let s : State := { at' .ingest with
      symbuf := [10], cfg := ⟨some 1, none, none, some 1⟩, inbox := [.command 0x4000] }
    WithinCapacity s ∧ ∃ t, step s = .next t := by
  refine ⟨⟨by decide, ?_, ?_, ?_, ?_⟩, _, rfl⟩
  · intro n h; cases h; decide
  · intro n h; cases h
  · intro n h; cases h
  · intro w h x
    cases h
    revert x
    decide

/-- In `IDLE`, in an open record, in `FAULT`, and with an empty blob parsed. -/
theorem witness_StepKeepsPhaseContents :
    PhaseHolds { State.reset with inbox := [.command 0x2005] } ∧
      (∃ t, step { State.reset with inbox := [.command 0x2005] } = .next t) ∧
      PhaseHolds { at' .ingest with recOpen := true, inbox := [.command 0x200A] } ∧ PhaseHolds failed ∧
      PhaseHolds { at' .parsed with
        bitbuf := bits [0, 0, 1, 1, 1, 1, 1, 0], pad := 1, limit := 7, hdrEnd := 7
        tree := { Tree.reset with variant := .empty } } :=
  ⟨rfl, ⟨_, rfl⟩, ⟨rfl, by decide⟩, rfl, rfl, by decide, by decide, by decide⟩

theorem witness_StepNeverStops : PhaseHolds State.reset ∧ PhaseHolds failed := ⟨rfl, rfl⟩

theorem witness_UnreachableFaultsAreNeverRaised :
    let s : State := { State.reset with inbox := [.command 0xB000] }
    PhaseHolds s ∧ s.phase ≠ .fault ∧ (∃ t, step s = .next t) ∧ s.cfg = Config.reference := ⟨rfl, by decide, ⟨_, rfl⟩, rfl⟩

end Sys2Proof.Tests
end

/-! ## One step: what a presented command word does (R12, R96) -/

namespace Sys2Proof.Machine

open Sys2Proof

/-- With a command word first in the inbox, the step takes that input and hands the word to the core. -/
theorem step_of_command {s : State} {w : Word} {rest : List HostInput} (h : s.inbox = .command w :: rest) :
    step s = takeCommand w { s with inbox := rest } := by
  simp only [step, h]

/-- A word that decodes to a command has that command's effect (R96, steps 3 to 6). -/
theorem takeCommand_of_decode_ok {w : Word} {i : Instr} (h : decode w = .ok i) (s : State) :
    takeCommand w s = exec i s := by
  simp only [takeCommand, h]

/-- Settles O6: the rule of the command port, then the rule of the word it presents. -/
theorem stepRunsTheDecodedCommand : Obligations.StepRunsTheDecodedCommand := by
  intro s w rest h
  refine ⟨step_of_command h, fun i hi => ?_⟩
  rw [step_of_command h, takeCommand_of_decode_ok hi]

end Sys2Proof.Machine

/-! ## Decimal notation (R11)

`value` and `digits` are tied once to Mathlib's `Nat.ofDigits` and `Nat.digits`, which list the digits least significant first; the facts
of R11 then follow from the library's. -/

namespace Sys2Proof.Machine

open Sys2Proof

theorem value_eq_ofDigits (g : List (Fin 10)) : value g = Nat.ofDigits 10 (g.map Fin.val).reverse := by
  rw [Nat.ofDigits_eq_foldr, List.foldr_reverse, List.foldl_map]
  simp only [value, Nat.cast_id, Nat.add_comm]

theorem value_cons (d : Fin 10) (g : List (Fin 10)) : value (d :: g) = d.val * 10 ^ g.length + value g := by
  rw [value_eq_ofDigits, value_eq_ofDigits, List.map_cons, List.reverse_cons, Nat.ofDigits_append, Nat.ofDigits_singleton,
    List.length_reverse, List.length_map, Nat.add_comm, Nat.mul_comm]

/-- `value` in positional form. -/
theorem value_eq_sum (g : List (Fin 10)) :
    value g = (g.zipIdx.map fun p => p.1.val * 10 ^ (g.length - 1 - p.2)).sum := by
  induction g with
  | nil => rfl
  | cons d g ih =>
    rw [value_cons, ih, List.zipIdx_cons']
    simp [Function.comp_def, Nat.sub_sub, Nat.add_comm]

/-- With fuel for every binary digit of `n`, `digitsGo` puts all decimal digits of `n` in front of `acc`. -/
theorem map_val_digitsGo {fuel n : Nat} (acc : List (Fin 10)) (h : n < 2 ^ fuel) :
    (digitsGo fuel n acc).map Fin.val = (Nat.digits 10 n).reverse ++ acc.map Fin.val := by
  induction fuel generalizing n acc with
  | zero =>
    obtain rfl : n = 0 := by omega
    simp [digitsGo]
  | succ fuel ih =>
    by_cases hn : n = 0
    · simp [digitsGo, hn]
    · have hdiv : n / 10 < 2 ^ fuel := by omega
      rw [digitsGo, if_neg hn, ih _ hdiv, Nat.digits_def' (by decide) (Nat.pos_of_ne_zero hn)]
      simp

theorem map_val_digits {n : Nat} (hn : n ≠ 0) : (digits n).map Fin.val = (Nat.digits 10 n).reverse := by
  rw [digits, if_neg hn, map_val_digitsGo [] Nat.lt_log2_self, List.map_nil, List.append_nil]

@[simp] theorem digits_zero : digits 0 = [0] := rfl

@[simp] theorem value_digits (n : Nat) : value (digits n) = n := by
  by_cases hn : n = 0
  · subst hn; rfl
  · rw [value_eq_ofDigits, map_val_digits hn, List.reverse_reverse, Nat.ofDigits_digits]

/-- A leading zero is a final zero of the reversed list. -/
theorem head?_eq_zero_iff (g : List (Fin 10)) : g.head? = some 0 ↔ (g.map Fin.val).reverse.getLast? = some 0 := by
  rw [List.getLast?_reverse, List.head?_map]
  cases g <;> simp

theorem head?_digits_ne_zero {n : Nat} (hn : n ≠ 0) : (digits n).head? ≠ some 0 := by
  have hne : Nat.digits 10 n ≠ [] := Nat.digits_ne_nil_iff_ne_zero.2 hn
  rw [Ne, head?_eq_zero_iff, map_val_digits hn, List.reverse_reverse, List.getLast?_eq_some_getLast hne, Option.some_inj]
  exact Nat.getLast_digit_ne_zero 10 hn

/-- Mathlib's digits of the number a sequence without leading zero writes are that sequence, reversed. -/
theorem natDigits_value {g : List (Fin 10)} (h : g.head? ≠ some 0) :
    Nat.digits 10 (value g) = (g.map Fin.val).reverse := by
  rw [value_eq_ofDigits]
  refine Nat.digits_ofDigits 10 (by decide) _ (by simp) fun hne h0 => h ?_
  exact (head?_eq_zero_iff g).2 ((List.getLast_eq_iff_getLast?_eq_some hne).1 h0)

/-- A non-empty sequence without leading zero is the digits of its value. -/
theorem digits_value {g : List (Fin 10)} (hne : g ≠ []) (h : g.head? ≠ some 0) : digits (value g) = g := by
  have hv : value g ≠ 0 := by
    intro hv
    have hnil := natDigits_value h
    simp [hv, hne] at hnil
  refine List.map_injective_iff.2 Fin.val_injective ?_
  rw [map_val_digits hv, natDigits_value h, List.reverse_reverse]

/-- Settles O25: R11's positional sum, and the digits of a number as its one sequence without leading zero. -/
theorem digitsAreMinimal : Obligations.DigitsAreMinimal :=
  ⟨value_eq_sum, fun n => ⟨value_digits n, digits_zero, head?_digits_ne_zero, fun _ hne h hv => hv ▸ (digits_value hne h).symm⟩⟩

end Sys2Proof.Machine

/-! ## What a completed rule does

One lemma per rule: when the rule completes, which fields it has set and to what; the rest of the state stands as it was. -/

namespace Sys2Proof.Machine

open Sys2Proof Sys2Proof.Safety

/-- A sequence of two computations completes when both do. -/
theorem bind_eq_ok {ε α β : Type} {x : Except ε α} {f : α → Except ε β} {b : β} :
    (x >>= f) = .ok b ↔ ∃ a, x = .ok a ∧ f a = .ok b := by
  cases x <;> simp [bind, Except.bind]

theorem tokDigit_ok {x : Fin 10} {s v : State} (h : tokDigit x s = .ok v) :
    ∃ syms, v = { s with symbuf := s.symbuf ++ syms, recOpen := true, recNeg := v.recNeg, recNd := true, recNz := v.recNz } := by
  obtain ⟨syms, nz, -, -, rfl⟩ := tokDigitAppend_ok h
  refine ⟨syms, ?_⟩
  by_cases ho : s.recOpen = true <;> simp [ho, openRecFlags]

theorem tokEnd_ok {s v : State} (h : tokEnd s = .ok v) :
    ∃ syms, v = clearRecFlags { s with symbuf := s.symbuf ++ syms } := by
  unfold tokEnd at h
  split at h
  · cases h
  · dsimp only at h
    split at h
    all_goals
      obtain ⟨w, hw, h⟩ := bind_eq_ok.1 h
      obtain ⟨z, hz, h⟩ := bind_eq_ok.1 h
      cases h
    · cases hw
      obtain ⟨-, rfl⟩ := symAppend_ok.1 hz
      exact ⟨_, rfl⟩
    · obtain ⟨-, rfl⟩ := symAppend_two hw hz
      exact ⟨_, rfl⟩

/-- `TOK` sets the symbols, the record flags and `PHASE` (R133), and its flags are as R26 has them whatever they were before. -/
theorem tokRule_ok {t : BitVec 4} {s u : State} {d : Byte} (h : tokRule t s = .ok (u, d)) :
    (∃ syms, u = { s with
      symbuf := s.symbuf ++ syms, recOpen := u.recOpen, recNeg := u.recNeg, recNd := u.recNd, recNz := u.recNz
      phase := .ingest }) ∧ RecFlagsWf u := by
  unfold tokRule at h
  dsimp only at h
  split at h
  · cases h
  all_goals
    obtain ⟨v, hv, h⟩ := bind_eq_ok.1 h
    cases h
  · obtain ⟨-, rfl⟩ := tokMinus_ok hv
    exact ⟨⟨[], by simp [openRecFlags]⟩, by simp [RecFlagsWf]⟩
  · obtain ⟨syms, hv⟩ := tokDigit_ok hv
    rw [hv]
    exact ⟨⟨syms, rfl⟩, by simp [RecFlagsWf]⟩
  · obtain ⟨syms, rfl⟩ := tokEnd_ok hv
    exact ⟨⟨syms, rfl⟩, by simp [RecFlagsWf]⟩

theorem symRule_ok {x : BitVec 4} {s u : State} {d : Byte} (h : symRule x s = .ok (u, d)) :
    s.recOpen = false ∧ ∃ y, u = { s with symbuf := s.symbuf ++ [y], phase := .ingest } := by
  unfold symRule at h
  split at h
  · cases h
  · next ho =>
    split at h
    · cases h
    · next y _ =>
      obtain ⟨v, hv, h⟩ := bind_eq_ok.1 h
      cases h
      obtain ⟨-, rfl⟩ := symAppend_ok.1 hv
      exact ⟨by simpa using ho, y, rfl⟩

theorem cntRule_ok {s u : State} {d : Byte} (h : cntRule s = .ok (u, d)) :
    s.recOpen = false ∧ u = { s with freq := countSyms s.symbuf, phase := .counted } := by
  unfold cntRule at h
  split at h
  · cases h
  · next ho => cases h; exact ⟨by simpa using ho, rfl⟩

theorem bldRule_ok {s u : State} {d : Byte} (h : bldRule s = .ok (u, d)) :
    u = { s with tree := buildTree s.freq s.tree, phase := .built } := by
  cases h; rfl

theorem drvRule_ok {s u : State} {d : Byte} (h : drvRule s = .ok (u, d)) :
    ∃ c, deriveCodes s.tree = .ok c ∧
      u = { s with code := c, codeValid := true, phase := if s.phase = .built then .derived else s.phase } := by
  unfold drvRule at h
  split at h
  · cases h
  · next c hc => cases h; exact ⟨c, hc, rfl⟩

theorem serRule_ok {s u : State} {d : Byte} (h : serRule s = .ok (u, d)) :
    ∃ fs, headerFields s.tree = .ok fs ∧
      u = { s with
        bitbuf := natBits 3 0 ++ fs.flatMap (natBits 4), hdrEnd := 3 + 4 * fs.length, phase := .serialized } := by
  obtain ⟨fs, hfs, h⟩ := bind_eq_ok.1 h
  obtain ⟨v, hv, h⟩ := bind_eq_ok.1 h
  obtain ⟨w, hw, h⟩ := bind_eq_ok.1 h
  obtain ⟨-, rfl⟩ := bitAppend_ok.1 hv
  obtain ⟨-, rfl⟩ := appendFields_ok hw
  cases h
  refine ⟨fs, hfs, ?_⟩
  have hlen : (fs.flatMap (natBits 4)).length = 4 * fs.length := by simp [List.length_flatMap, Nat.mul_comm]
  simp [hlen]

theorem encRule_ok {s u : State} {d : Byte} (h : encRule s = .ok (u, d)) :
    u = { s with bitbuf := s.bitbuf ++ s.symbuf.flatMap fun x => s.code[x], phase := .encoded } := by
  obtain ⟨v, hv, h⟩ := bind_eq_ok.1 h
  obtain ⟨-, -, rfl⟩ := appendCodes_ok hv
  cases h; rfl

theorem finRule_ok {s u : State} {d : Byte} (h : finRule s = .ok (u, d)) :
    u = { s with
      pad := padLength s.bitbuf.length
      bitbuf := bitWrite (s.bitbuf ++ natBits (padLength s.bitbuf.length) 0) 0 3 (padLength s.bitbuf.length)
      ord := 0
      phase := .doneEnc } := by
  obtain ⟨v, hv, h⟩ := bind_eq_ok.1 h
  obtain ⟨-, rfl⟩ := bitAppend_ok.1 hv
  split at h
  · cases h
  · cases h; rfl

theorem bytRule_ok {b : Byte} {s u : State} {d : Byte} (h : bytRule b s = .ok (u, d)) :
    u = { s with bitbuf := s.bitbuf ++ byteBits b, phase := .load } := by
  obtain ⟨v, hv, h⟩ := bind_eq_ok.1 h
  obtain ⟨-, rfl⟩ := bitAppend_ok.1 hv
  cases h; rfl

theorem parRule_ok {s u : State} {d : Byte} (h : parRule s = .ok (u, d)) :
    ∃ p, parseBlob s.bitbuf s.tree = .ok p ∧
      u = { s with pad := p.pad, limit := p.limit, hdrEnd := p.hdrEnd, tree := p.tree, phase := .parsed } := by
  unfold parRule at h
  split at h
  · cases h
  · next p hp => cases h; exact ⟨p, hp, rfl⟩

theorem decRule_ok {s u : State} {d : Byte} (h : decRule s = .ok (u, d)) :
    ∃ S, decodeBody s.cfg.symbufCap s.tree s.bitbuf s.hdrEnd s.limit = .ok S ∧
      u = { s with symbuf := S, phase := .decoded } := by
  unfold decRule at h
  split at h
  · cases h
  · next S hS => cases h; exact ⟨S, hS, rfl⟩

theorem rasRule_ok {s u : State} {d : Byte} (h : rasRule s = .ok (u, d)) :
    ∃ r, reassemble s.cfg.otokCap s.symbuf = .ok r ∧
      u = { s with recs := r.1, otok := r.2, ord := 0, phase := .doneDec } := by
  unfold rasRule at h
  split at h
  · cases h
  · next r hr => cases h; exact ⟨r, hr, rfl⟩

theorem rdbRule_ok {s u : State} {d : Byte} (h : rdbRule s = .ok (u, d)) :
    s.ord < s.bitbuf.length / 8 ∧ u = { s with ord := s.ord + 1 } := by
  unfold rdbRule at h
  split at h
  · cases h
  · next ho => cases h; exact ⟨by omega, rfl⟩

theorem rdtRule_ok {s u : State} {d : Byte} (h : rdtRule s = .ok (u, d)) :
    s.ord < s.otok.length ∧ u = { s with ord := s.ord + 1 } := by
  unfold rdtRule at h
  split at h
  · cases h
  · next k hk =>
    cases h
    exact ⟨(List.getElem?_eq_some_iff.1 hk).1, rfl⟩

end Sys2Proof.Machine

/-! ## The phase table and what no rule touches (R22, R23) -/

namespace Sys2Proof.Machine

open Sys2Proof Sys2Proof.Safety

/-- The order of checks and the statement's table agree on the legal phases of every command but `STAT` and `CLR`. -/
theorem legalIn_iff {i : Instr} {p : Phase} (h1 : i ≠ .stat) (h2 : i ≠ .clr) :
    legalIn i p = true ↔ p ∈ (phaseTable i).map Prod.fst := by
  cases i <;> first | contradiction | simp [legalIn, phaseTable]

/-- What every own rule has in common: it goes to the table's next phase and leaves `ERR`, the inbox and the parameters alone; all but
`TOK` leave the record flags alone too. -/
theorem ruleOf_frame {i : Instr} {s u : State} {d : Byte} (h1 : i ≠ .stat) (h2 : i ≠ .clr)
    (hl : legalIn i s.phase = true) (h : ruleOf i s = .ok (u, d)) :
    (s.phase, u.phase) ∈ phaseTable i ∧
      (u.errCause = s.errCause ∧ u.errDetail = s.errDetail) ∧ (u.inbox = s.inbox ∧ u.cfg = s.cfg) ∧
      ((∀ t, i ≠ .tok t) →
        u.recOpen = s.recOpen ∧ u.recNeg = s.recNeg ∧ u.recNd = s.recNd ∧ u.recNz = s.recNz) := by
  rw [legalIn_iff h1 h2] at hl
  cases i
  case stat | clr => contradiction
  case drv =>
    obtain ⟨c, -, rfl⟩ := drvRule_ok h
    refine ⟨?_, ⟨rfl, rfl⟩, ⟨rfl, rfl⟩, fun _ => ⟨rfl, rfl, rfl, rfl⟩⟩
    have hp : s.phase = .built ∨ s.phase = .parsed := by simpa [phaseTable] using hl
    rcases hp with hp | hp <;> simp [phaseTable, hp]
  case tok t =>
    obtain ⟨⟨syms, hu⟩, -⟩ := tokRule_ok h
    rw [hu]
    exact ⟨by simpa [phaseTable] using hl, ⟨rfl, rfl⟩, ⟨rfl, rfl⟩, fun ht => absurd rfl (ht t)⟩
  case' sym x => obtain ⟨-, y, rfl⟩ := symRule_ok h
  case' cnt => obtain ⟨-, rfl⟩ := cntRule_ok h
  case' bld => obtain rfl := bldRule_ok h
  case' ser => obtain ⟨fs, -, rfl⟩ := serRule_ok h
  case' enc => obtain rfl := encRule_ok h
  case' fin => obtain rfl := finRule_ok h
  case' byt b => obtain rfl := bytRule_ok h
  case' par => obtain ⟨p, -, rfl⟩ := parRule_ok h
  case' dec => obtain ⟨S, -, rfl⟩ := decRule_ok h
  case' ras => obtain ⟨r, -, rfl⟩ := rasRule_ok h
  case' rdb => obtain ⟨-, rfl⟩ := rdbRule_ok h
  case' rdt => obtain ⟨-, rfl⟩ := rdtRule_ok h
  all_goals exact ⟨by simpa [phaseTable] using hl, ⟨rfl, rfl⟩, ⟨rfl, rfl⟩, fun _ => ⟨rfl, rfl, rfl, rfl⟩⟩

end Sys2Proof.Machine

/-! ## The phase of the next state -/

namespace Sys2Proof.Machine

open Sys2Proof Sys2Proof.Safety

/-- The faulted state of R280 is what fault entry makes. -/
theorem raise_eq_faulted (e : ErrCode) (s : State) : s.raise e = faulted e s := by
  have hrsp : (s.raise e).rsp = faultWord (causeCode e) := by
    have hf : faultBit (s.raise e) = true := rfl
    have hm : moreBit (s.raise e) = false := rfl
    have hc := (causeCode e).isLt
    refine BitVec.eq_of_toNat_eq ((respWord_toNat (s.raise e) 0).trans ?_)
    simp [hf, hm, faultWord]
    omega
  calc s.raise e = { s.raise e with rsp := (s.raise e).rsp } := rfl
    _ = faulted e s := by rw [hrsp]; rfl

/-- Settles O11: outside its row of the table a command's own rule does not run. -/
theorem wrongPhaseRaisesSequenceError : Obligations.WrongPhaseRaisesSequenceError := by
  intro i s h1 h2 hf hp
  rw [← legalIn_iff h1 h2, Bool.not_eq_true] at hp
  rw [exec_eq_command h1 h2, command_illegal hf hp, raise_eq_faulted]

/-- Settles O12: `STAT` and `CLR` by their definition, every other command through the shared order of checks. -/
theorem phaseAfterEachCommand : Obligations.PhaseAfterEachCommand := by
  intro i s t h
  by_cases h1 : i = .stat
  · subst h1; cases h
    exact ⟨rfl, rfl, .inl ⟨rfl, rfl⟩⟩
  by_cases h2 : i = .clr
  · subst h2; cases h
    exact ⟨rfl, rfl, .inr (.inl ⟨rfl, rfl⟩)⟩
  rw [exec_eq_command h1 h2] at h
  rcases command_next h with ⟨hf, rfl⟩ | ⟨-, hl, u, d, hr, rfl⟩ | ⟨-, e, rfl, -⟩
  · exact ⟨rfl, rfl, .inr (.inr ⟨h1, h2, .inl hf⟩)⟩
  · obtain ⟨hp, -, ⟨hin, hcfg⟩, -⟩ := ruleOf_frame h1 h2 hl hr
    exact ⟨hin, hcfg, .inr (.inr ⟨h1, h2, .inr hp⟩)⟩
  · exact ⟨rfl, rfl, .inr (.inr ⟨h1, h2, .inl rfl⟩)⟩

end Sys2Proof.Machine

/-! ## Invariants of a run

A step takes an input, then answers a state as it is, clears it, enters a fault, or runs one command's own rule. A predicate that these
keep is kept by every step. -/

namespace Sys2Proof.Machine

open Sys2Proof Sys2Proof.Safety

/-- `s` with another response word and other inputs to come: no item of the core is touched. -/
def State.withPort (w : Word) (l : List HostInput) (s : State) : State := { s with rsp := w, inbox := l }

/-- A predicate on states that does not look at the port, holds of every cleared and every faulted state, and is kept by every own
rule in its legal phases. -/
structure KeptByRules (P : State → Prop) : Prop where
  port : ∀ w l s, P s → P (s.withPort w l)
  clear : ∀ s, P s → P s.clear
  raise : ∀ e s, P s → P (s.raise e)
  rule : ∀ i s u d, i ≠ .stat → i ≠ .clr → legalIn i s.phase = true → P s → ruleOf i s = .ok (u, d) → P u

section

variable {P : State → Prop}

theorem KeptByRules.respond (hP : KeptByRules P) (d : Byte) {s : State} (h : P s) : P (s.respond d) :=
  hP.port (respWord s d) s.inbox s h

theorem KeptByRules.exec (hP : KeptByRules P) {i : Instr} {s t : State} (h : P s) (ht : exec i s = .next t) : P t := by
  by_cases h1 : i = .stat
  · subst h1; cases ht
    exact hP.respond _ h
  by_cases h2 : i = .clr
  · subst h2; cases ht
    exact hP.respond _ (hP.clear s h)
  rw [exec_eq_command h1 h2] at ht
  rcases command_next ht with ⟨-, rfl⟩ | ⟨-, hl, u, d, hr, rfl⟩ | ⟨-, e, rfl, -⟩
  · exact hP.respond _ h
  · exact hP.respond _ (hP.rule i s u d h1 h2 hl h hr)
  · exact hP.raise e s h

theorem KeptByRules.takeCommand (hP : KeptByRules P) {w : Word} {s t : State} (h : P s)
    (ht : takeCommand w s = .next t) : P t := by
  unfold Machine.takeCommand at ht
  split at ht
  · cases ht
    unfold illFormed
    split
    · exact hP.respond _ h
    · exact hP.raise _ s h
  · exact hP.exec h ht

theorem KeptByRules.step (hP : KeptByRules P) {s t : State} (h : P s) (ht : step s = .next t) : P t := by
  have taken (rest : List HostInput) : P { s with inbox := rest } := hP.port s.rsp rest s h
  unfold Machine.step at ht
  split at ht
  · cases ht; exact h
  · cases ht; exact hP.respond _ (hP.clear _ (taken _))
  · exact hP.takeCommand (taken _) ht

end

/-! ### `ERR` (R24) -/

/-- No fault has cause 0 or detail 0 (R270 to R278). -/
theorem causeCode_detailCode_ne_zero (e : ErrCode) : causeCode e ≠ 0 ∧ detailCode e ≠ 0 := by
  cases e <;> decide

/-- A command's row of the table neither starts nor ends in `FAULT`. -/
theorem ne_fault_of_mem_phaseTable {i : Instr} {p q : Phase} (h : (p, q) ∈ phaseTable i) : p ≠ .fault ∧ q ≠ .fault := by
  have hall : ∀ row ∈ phaseTable i, row.1 ≠ .fault ∧ row.2 ≠ .fault := by cases i <;> simp [phaseTable]
  exact hall _ h

theorem errWf_keptByRules : KeptByRules ErrWf where
  port _ _ _ h := h
  clear _ _ := ⟨rfl, rfl⟩
  raise e _ _ := causeCode_detailCode_ne_zero e
  rule i s u d h1 h2 hl h hr := by
    obtain ⟨hp, ⟨hc, hd⟩, -⟩ := ruleOf_frame h1 h2 hl hr
    obtain ⟨hs, hu⟩ := ne_fault_of_mem_phaseTable hp
    simpa only [ErrWf, if_neg hs, if_neg hu, hc, hd] using h

/-- Settles O55: no own rule touches `ERR` or ends in `FAULT`, and every fault has a cause and a detail. -/
theorem stepKeepsErrWellFormed : Obligations.StepKeepsErrWellFormed := fun _ _ h ht => errWf_keptByRules.step h ht

/-! ### The record flags (R26) -/

theorem recFlagsWf_of_closed {s : State} (h1 : s.recOpen = false) (h2 : s.recNeg = false) (h3 : s.recNd = false)
    (h4 : s.recNz = false) : RecFlagsWf s := by
  simp [RecFlagsWf, h1, h2, h3, h4]

theorem recFlagsWf_keptByRules : KeptByRules RecFlagsWf where
  port _ _ _ h := h
  clear _ _ := recFlagsWf_of_closed rfl rfl rfl rfl
  raise _ _ _ := recFlagsWf_of_closed rfl rfl rfl rfl
  rule i s u d h1 h2 hl h hr := by
    by_cases htok : ∃ t, i = .tok t
    · obtain ⟨t, rfl⟩ := htok
      exact (tokRule_ok hr).2
    obtain ⟨hclosed, -, hopen⟩ := h
    have ho : s.recOpen = false := by
      by_contra ho
      rw [hopen (by simpa using ho)] at hl
      cases i <;> simp [legalIn] at hl htok h1 h2
      case sym => exact ho (symRule_ok hr).1
      case cnt => exact ho (cntRule_ok hr).1
    obtain ⟨hneg, hnd, hnz⟩ := hclosed ho
    obtain ⟨-, -, -, hkept⟩ := ruleOf_frame h1 h2 hl hr
    obtain ⟨ko, kneg, knd, knz⟩ := hkept fun t ht => htok ⟨t, ht⟩
    exact recFlagsWf_of_closed (ko.trans ho) (kneg.trans hneg) (knd.trans hnd) (knz.trans hnz)

/-- Settles O56: `TOK` alone changes the record flags, and the other commands of `INGEST` need a closed record. -/
theorem stepKeepsRecordFlags : Obligations.StepKeepsRecordFlags := fun _ _ h ht => recFlagsWf_keptByRules.step h ht

/-! ### The contents of each phase (R21, R22, R36, R280) -/

/-- Settles O54: no buffer of the reset state holds a cell, and its phase promises the reset values. -/
theorem resetMeetsTheInvariants : Obligations.ResetMeetsTheInvariants := by
  refine ⟨⟨rfl, rfl⟩, recFlagsWf_of_closed rfl rfl rfl rfl, ⟨rfl, ?_, ?_, ?_, ?_⟩, rfl⟩
  all_goals intro c hc; cases hc

/-- In `IDLE` and `INGEST` the front end's registers alone may differ from reset, with the record flags as R26 has them. -/
theorem phaseHolds_front {s : State} (h : PhaseHolds s) (hp : s.phase = .idle ∨ s.phase = .ingest) :
    s = { blankOf s with
      symbuf := s.symbuf, recOpen := s.recOpen, recNeg := s.recNeg, recNd := s.recNd, recNz := s.recNz } ∧
      RecFlagsWf s := by
  rcases hp with hp | hp
  · simp only [PhaseHolds, hp] at h
    rw [h]
    exact ⟨rfl, recFlagsWf_of_closed rfl rfl rfl rfl⟩
  · simpa only [PhaseHolds, hp] using h

/-- Between records the record flags are at reset too. -/
theorem phaseHolds_between_records {s : State} (h : PhaseHolds s) (hp : s.phase = .idle ∨ s.phase = .ingest)
    (ho : s.recOpen = false) : s = { blankOf s with symbuf := s.symbuf } := by
  obtain ⟨hs, hclosed, -, -⟩ := phaseHolds_front h hp
  obtain ⟨hneg, hnd, hnz⟩ := hclosed ho
  rwa [ho, hneg, hnd, hnz] at hs

/-- In `IDLE` and `LOAD` the bit buffer alone may differ from reset, and it holds whole bytes. -/
theorem phaseHolds_loading {s : State} (h : PhaseHolds s) (hp : s.phase = .idle ∨ s.phase = .load) :
    s = { blankOf s with bitbuf := s.bitbuf } ∧ s.bitbuf.length % 8 = 0 := by
  rcases hp with hp | hp
  · simp only [PhaseHolds, hp] at h
    rw [h]
    exact ⟨rfl, rfl⟩
  · simp only [PhaseHolds, hp] at h
    exact ⟨h.1, h.2.2⟩

/-- A field written over the first positions is read back from them. -/
theorem bitRead_bitWrite_zero (buf : List Bool) (n v : Nat) : bitRead (bitWrite buf 0 n v) 0 n = v % 2 ^ n := by
  rw [bitWrite, List.take_zero, List.nil_append, bitRead_natBits]

/-- The blob of a stream, from the codes and the header fields of its tree. -/
theorem encodeSymbols_eq {S : List Sym} {codes : Vector (List Bool) 11} {fs : List Nat} {bits : List Bool}
    (hc : deriveCodes (buildTree (countSyms S) Tree.reset) = .ok codes)
    (hf : headerFields (buildTree (countSyms S) Tree.reset) = .ok fs)
    (hb : bits = natBits 3 0 ++ fs.flatMap (natBits 4) ++ S.flatMap fun x => codes[x]) :
    encodeSymbols S = .ok (bitWrite (bits ++ natBits (padLength bits.length) 0) 0 3 (padLength bits.length)) := by
  subst hb
  simp only [encodeSymbols, hc, hf, bind, Except.bind]

theorem phaseHolds_port {s : State} (w : Word) (l : List HostInput) (h : PhaseHolds s) : PhaseHolds (s.withPort w l) := by
  have hp : (s.withPort w l).phase = s.phase := rfl
  cases hs : s.phase <;> simp only [PhaseHolds, hp, hs] at h ⊢
  case idle | fault | counted | built =>
    simpa only [State.withPort, blankOf, builtOf] using congrArg (State.withPort w l) h
  all_goals
    refine ⟨?_, h.2⟩
    simpa only [State.withPort, blankOf, builtOf, parsedOf] using congrArg (State.withPort w l) h.1

/-! Each rule from the contents of its legal phases to those of its next phase. -/

theorem tokRule_phaseHolds {x : BitVec 4} {s u : State} {d : Byte} (h : PhaseHolds s)
    (hp : s.phase = .idle ∨ s.phase = .ingest) (hr : tokRule x s = .ok (u, d)) : PhaseHolds u := by
  obtain ⟨⟨syms, hu⟩, hflags⟩ := tokRule_ok hr
  obtain ⟨hs, -⟩ := phaseHolds_front h hp
  have hphase : u.phase = .ingest := congrArg State.phase hu
  simp only [PhaseHolds, hphase]
  refine ⟨?_, hflags⟩
  rw [hu, hs]
  rfl

theorem symRule_phaseHolds {x : BitVec 4} {s u : State} {d : Byte} (h : PhaseHolds s)
    (hp : s.phase = .idle ∨ s.phase = .ingest) (hr : symRule x s = .ok (u, d)) : PhaseHolds u := by
  obtain ⟨ho, y, rfl⟩ := symRule_ok hr
  rw [phaseHolds_between_records h hp ho]
  exact ⟨rfl, recFlagsWf_of_closed rfl rfl rfl rfl⟩

theorem cntRule_phaseHolds {s u : State} {d : Byte} (h : PhaseHolds s)
    (hp : s.phase = .idle ∨ s.phase = .ingest) (hr : cntRule s = .ok (u, d)) : PhaseHolds u := by
  obtain ⟨ho, rfl⟩ := cntRule_ok hr
  rw [phaseHolds_between_records h hp ho]
  rfl

theorem bldRule_phaseHolds {s u : State} {d : Byte} (h : PhaseHolds s) (hp : s.phase = .counted)
    (hr : bldRule s = .ok (u, d)) : PhaseHolds u := by
  simp only [PhaseHolds, hp] at h
  have hbuild : buildTree s.freq s.tree = buildTree (countSyms s.symbuf) Tree.reset :=
    congrArg₂ buildTree (congrArg State.freq h) (congrArg State.tree h)
  obtain rfl := bldRule_ok hr
  rw [hbuild]
  show _ = builtOf _
  simpa only [builtOf, blankOf] using
    congrArg (fun x : State => { x with tree := buildTree (countSyms s.symbuf) Tree.reset, phase := .built }) h

theorem drvRule_phaseHolds {s u : State} {d : Byte} (h : PhaseHolds s) (hp : s.phase = .built ∨ s.phase = .parsed)
    (hr : drvRule s = .ok (u, d)) : PhaseHolds u := by
  obtain ⟨c, hc, rfl⟩ := drvRule_ok hr
  rcases hp with hp | hp <;> simp only [PhaseHolds, hp] at h
  · rw [if_pos hp]
    refine ⟨?_, hc⟩
    simpa only [builtOf, blankOf] using
      congrArg (fun x : State => { x with code := c, codeValid := true, phase := .derived }) h
  · obtain ⟨hs, hbytes, hparse, -⟩ := h
    rw [if_neg (by simp [hp]), hp]
    refine ⟨?_, hbytes, hparse, hc⟩
    simpa only [parsedOf, blankOf] using
      congrArg (fun x : State => { x with code := c, codeValid := true, phase := .parsed }) hs

theorem serRule_phaseHolds {s u : State} {d : Byte} (h : PhaseHolds s) (hp : s.phase = .derived)
    (hr : serRule s = .ok (u, d)) : PhaseHolds u := by
  simp only [PhaseHolds, hp] at h
  obtain ⟨hs, hcodes⟩ := h
  obtain ⟨fs, hfs, rfl⟩ := serRule_ok hr
  refine ⟨?_, hcodes, fs, hfs, rfl, rfl⟩
  simpa only [builtOf, blankOf] using
    congrArg (fun x : State => { x with
      bitbuf := natBits 3 0 ++ fs.flatMap (natBits 4), hdrEnd := 3 + 4 * fs.length, phase := .serialized }) hs

theorem encRule_phaseHolds {s u : State} {d : Byte} (h : PhaseHolds s) (hp : s.phase = .serialized)
    (hr : encRule s = .ok (u, d)) : PhaseHolds u := by
  simp only [PhaseHolds, hp] at h
  obtain ⟨hs, hcodes, fs, hfs, hhdr, hbits⟩ := h
  obtain rfl := encRule_ok hr
  refine ⟨?_, hcodes, fs, hfs, hhdr, congrArg (· ++ s.symbuf.flatMap fun x => s.code[x]) hbits⟩
  simpa only [builtOf, blankOf] using
    congrArg (fun x : State => { x with
      bitbuf := s.bitbuf ++ s.symbuf.flatMap fun x => s.code[x], phase := .encoded }) hs

theorem padLength_lt (n : Nat) : padLength n < 8 := Nat.mod_lt _ (by decide)

theorem finRule_phaseHolds {s u : State} {d : Byte} (h : PhaseHolds s) (hp : s.phase = .encoded)
    (hr : finRule s = .ok (u, d)) : PhaseHolds u := by
  simp only [PhaseHolds, hp] at h
  obtain ⟨hs, hcodes, fs, hfs, -, hbits⟩ := h
  have htree : s.tree = buildTree (countSyms s.symbuf) Tree.reset := congrArg State.tree hs
  obtain rfl := finRule_ok hr
  refine ⟨?_, hcodes, encodeSymbols_eq (htree ▸ hcodes) (htree ▸ hfs) hbits, ?_, Nat.zero_le _⟩
  · simpa only [builtOf, blankOf] using
      congrArg (fun x : State => { x with
        pad := padLength s.bitbuf.length
        bitbuf := bitWrite (s.bitbuf ++ natBits (padLength s.bitbuf.length) 0) 0 3 (padLength s.bitbuf.length)
        ord := 0
        phase := .doneEnc }) hs
  · exact ((bitRead_bitWrite_zero _ 3 _).trans (Nat.mod_eq_of_lt (padLength_lt _))).symm

theorem rdbRule_phaseHolds {s u : State} {d : Byte} (h : PhaseHolds s) (hp : s.phase = .doneEnc)
    (hr : rdbRule s = .ok (u, d)) : PhaseHolds u := by
  obtain ⟨hord, rfl⟩ := rdbRule_ok hr
  simp only [PhaseHolds, hp] at h
  obtain ⟨hs, hcodes, hblob, hpad, -⟩ := h
  rw [hp]
  refine ⟨?_, hcodes, hblob, hpad, hord⟩
  simpa only [builtOf, blankOf] using congrArg (fun x : State => { x with ord := s.ord + 1, phase := .doneEnc }) hs

theorem bytRule_phaseHolds {b : Byte} {s u : State} {d : Byte} (h : PhaseHolds s)
    (hp : s.phase = .idle ∨ s.phase = .load) (hr : bytRule b s = .ok (u, d)) : PhaseHolds u := by
  obtain ⟨hs, hbytes⟩ := phaseHolds_loading h hp
  obtain rfl := bytRule_ok hr
  refine ⟨?_, ?_, ?_⟩
  · rw [hs]; rfl
  · exact List.append_ne_nil_of_right_ne_nil _ (List.ne_nil_of_length_pos (by simp))
  · show (s.bitbuf ++ byteBits b).length % 8 = 0
    simp [hbytes]

theorem parRule_phaseHolds {s u : State} {d : Byte} (h : PhaseHolds s) (hp : s.phase = .idle ∨ s.phase = .load)
    (hr : parRule s = .ok (u, d)) : PhaseHolds u := by
  obtain ⟨hs, hbytes⟩ := phaseHolds_loading h hp
  have htree : s.tree = Tree.reset := congrArg State.tree hs
  obtain ⟨p, hparse, rfl⟩ := parRule_ok hr
  rw [htree] at hparse
  refine ⟨?_, hbytes, hparse, ?_⟩
  · rw [hs]; rfl
  · rw [hs]; rfl

theorem decRule_phaseHolds {s u : State} {d : Byte} (h : PhaseHolds s) (hp : s.phase = .parsed)
    (hr : decRule s = .ok (u, d)) : PhaseHolds u := by
  simp only [PhaseHolds, hp] at h
  obtain ⟨hs, hwell⟩ := h
  obtain ⟨S, hS, rfl⟩ := decRule_ok hr
  refine ⟨?_, hwell, hS⟩
  simpa only [parsedOf, blankOf] using congrArg (fun x : State => { x with symbuf := S, phase := .decoded }) hs

theorem rasRule_phaseHolds {s u : State} {d : Byte} (h : PhaseHolds s) (hp : s.phase = .decoded)
    (hr : rasRule s = .ok (u, d)) : PhaseHolds u := by
  simp only [PhaseHolds, hp] at h
  obtain ⟨hs, hwell, hbody⟩ := h
  obtain ⟨r, hras, rfl⟩ := rasRule_ok hr
  refine ⟨?_, hwell, hbody, hras, Nat.zero_le _⟩
  simpa only [parsedOf, blankOf] using
    congrArg (fun x : State => { x with recs := r.1, otok := r.2, ord := 0, phase := .doneDec }) hs

theorem rdtRule_phaseHolds {s u : State} {d : Byte} (h : PhaseHolds s) (hp : s.phase = .doneDec)
    (hr : rdtRule s = .ok (u, d)) : PhaseHolds u := by
  obtain ⟨hord, rfl⟩ := rdtRule_ok hr
  simp only [PhaseHolds, hp] at h
  obtain ⟨hs, hwell, hbody, hras, -⟩ := h
  rw [hp]
  refine ⟨?_, hwell, hbody, hras, hord⟩
  simpa only [parsedOf, blankOf] using congrArg (fun x : State => { x with ord := s.ord + 1, phase := .doneDec }) hs

theorem phaseHolds_keptByRules : KeptByRules PhaseHolds where
  port w l _ h := phaseHolds_port w l h
  clear _ _ := rfl
  raise _ _ _ := rfl
  rule i s u d h1 h2 hl h hr := by
    rw [legalIn_iff h1 h2] at hl
    cases i <;> simp [phaseTable] at hl
    case tok => exact tokRule_phaseHolds h hl hr
    case sym => exact symRule_phaseHolds h hl hr
    case cnt => exact cntRule_phaseHolds h hl hr
    case bld => exact bldRule_phaseHolds h hl hr
    case drv => exact drvRule_phaseHolds h hl hr
    case ser => exact serRule_phaseHolds h hl hr
    case enc => exact encRule_phaseHolds h hl hr
    case fin => exact finRule_phaseHolds h hl hr
    case byt => exact bytRule_phaseHolds h hl hr
    case par => exact parRule_phaseHolds h hl hr
    case dec => exact decRule_phaseHolds h hl hr
    case ras => exact rasRule_phaseHolds h hl hr
    case rdb => exact rdbRule_phaseHolds h hl hr
    case rdt => exact rdtRule_phaseHolds h hl hr

/-- Settles O58: each own rule goes from the contents of its legal phases to those of its next phase. -/
theorem stepKeepsPhaseContents : Obligations.StepKeepsPhaseContents := fun _ _ h ht => phaseHolds_keptByRules.step h ht

end Sys2Proof.Machine

/-! ## Finished trees (R37)

What `BLD` and `PAR` share: node files whose `PARENT` and `CHILD` agree. Such files with `K` leaves and the internal nodes below `9 + K`
linked, and every internal node reaching the root, are a finished tree: the two countings of R180 and R181 are made here once. -/

namespace Sys2Proof.Machine

open Sys2Proof Sys2Proof.Safety

theorem getElem_set_node {α : Type} (v : Vector α 21) (a n : NodeId) (x : α) :
    (v.set a x)[n] = if a = n then x else v[n] := by
  simp [Fin.getElem_fin, Vector.getElem_set, Fin.ext_iff]

/-- `PARENT` and `CHILD` agree, every parent is an internal node below `m`, and the slots are filled in order and hold ascending ids. -/
structure LinkedBelow (t : Tree) (m : Nat) : Prop where
  parent_range : ∀ n p : NodeId, t.parent[n] = some p → 11 ≤ p.val ∧ p.val < m
  child_iff : ∀ n p : NodeId, (childOf t p false = some n ∨ childOf t p true = some n) ↔ t.parent[n] = some p
  slots_ascend : ∀ p a b : NodeId, childOf t p false = some a → childOf t p true = some b → a < b
  first_slot_first : ∀ p : NodeId, childOf t p false = none → childOf t p true = none

theorem LinkedBelow.parent_of_child {t : Tree} {m : Nat} (h : LinkedBelow t m) {p n : NodeId} {b : Bool}
    (hc : childOf t p b = some n) : t.parent[n] = some p := by
  rw [← h.child_iff]
  cases b
  · exact .inl hc
  · exact .inr hc

theorem LinkedBelow.child_of_parent {t : Tree} {m : Nat} (h : LinkedBelow t m) {p n : NodeId}
    (hp : t.parent[n] = some p) : ∃ b, childOf t p b = some n :=
  ((h.child_iff n p).2 hp).elim (⟨false, ·⟩) (⟨true, ·⟩)

theorem LinkedBelow.no_child {t : Tree} {m : Nat} (h : LinkedBelow t m) {p : NodeId} (hp : m ≤ p.val) (b : Bool) :
    childOf t p b = none := by
  by_contra hc
  obtain ⟨n, hn⟩ := Option.ne_none_iff_exists'.1 hc
  have := (h.parent_range n p (h.parent_of_child hn)).2
  omega

theorem childOf_reset (p : NodeId) (b : Bool) : childOf Tree.reset p b = none := by
  simp [childOf, Tree.reset]

theorem parent_reset (n : NodeId) : Tree.reset.parent[n] = none := by
  simp [Tree.reset, Fin.getElem_fin]

theorem childOf_congr {t u : Tree} (h : u.child = t.child) (p : NodeId) (b : Bool) : childOf u p b = childOf t p b := by
  simp only [childOf, h]

theorem weight_reset (n : NodeId) : Tree.reset.weight[n] = 0 := by
  simp [Tree.reset, Fin.getElem_fin]

/-- No node linked yet. -/
theorem linkedBelow_of_blank {t : Tree} (m : Nat) (hp : t.parent = Tree.reset.parent) (hc : t.child = Tree.reset.child) :
    LinkedBelow t m := by
  have hparent (n : NodeId) : t.parent[n] = none := by rw [hp]; exact parent_reset n
  have hchild (p : NodeId) (b : Bool) : childOf t p b = none := by
    rw [childOf_congr hc, childOf_reset]
  constructor <;> simp [hparent, hchild]

/-- The summary registers and the weights are no part of the node files. -/
theorem LinkedBelow.congr {t u : Tree} {m : Nat} (h : LinkedBelow t m) (hp : u.parent = t.parent) (hc : u.child = t.child) :
    LinkedBelow u m := by
  constructor <;> simp only [childOf_congr hc, hp]
  exacts [h.parent_range, h.child_iff, h.slots_ascend, h.first_slot_first]

/-- The nodes of `S`, without a parent so far, become children of `p`, whose slots are then `c0` and `c1`: what both a merge of `BLD` and
a turn of `PAR`'s stage D do. -/
theorem LinkedBelow.setChildren {t t' : Tree} {m m' : Nat} (ht : LinkedBelow t m) (hm : m ≤ m') {p : NodeId}
    (h11 : 11 ≤ p.val) (hpm : p.val < m') {S : NodeId → Prop} [DecidablePred S] {c0 c1 : Option NodeId}
    (hchild : t'.child = t.child) (hparent : ∀ k : NodeId, t'.parent[k] = if S k then some p else t.parent[k])
    (hfresh : ∀ k : NodeId, S k → t.parent[k] = none)
    (hslots : ∀ k : NodeId, (c0 = some k ∨ c1 = some k) ↔ S k ∨ t.parent[k] = some p)
    (hascend : ∀ a b : NodeId, c0 = some a → c1 = some b → a < b) (hfirst : c0 = none → c1 = none) :
    LinkedBelow (setChildren t' p c0 c1) m' := by
  have hself (b : Bool) : childOf (Machine.setChildren t' p c0 c1) p b = if b then c1 else c0 :=
    childOf_setChildren_self b h11
  have hother {q : NodeId} (hq : q ≠ p) (b : Bool) : childOf (Machine.setChildren t' p c0 c1) q b = childOf t q b :=
    (childOf_setChildren_ne b hq).trans (childOf_congr hchild q b)
  refine ⟨fun n q hq => ?_, fun n q => ?_, fun q a b ha hb => ?_, fun q hq => ?_⟩
  · rw [setChildren_parent, hparent] at hq
    split at hq
    · cases hq
      exact ⟨h11, hpm⟩
    · exact ⟨(ht.parent_range n q hq).1, (ht.parent_range n q hq).2.trans_le hm⟩
  · rw [setChildren_parent, hparent]
    by_cases hq : q = p
    · subst hq
      rw [hself, hself]
      by_cases hn : S n <;> simp [hslots, hn]
    · rw [hother hq, hother hq, ht.child_iff]
      by_cases hn : S n
      · simp [hn, hfresh n hn, Ne.symm hq]
      · simp [hn]
  · by_cases hqp : q = p
    · subst hqp
      rw [hself] at ha hb
      exact hascend a b ha hb
    · rw [hother hqp] at ha hb
      exact ht.slots_ascend q a b ha hb
  · by_cases hqp : q = p
    · subst hqp
      rw [hself] at hq ⊢
      exact hfirst hq
    · rw [hother hqp] at hq ⊢
      exact ht.first_slot_first q hq

/-! ### Every slot is filled (R180) -/

theorem allSyms_nodup : allSyms.Nodup := List.nodup_finRange 11

theorem leafOf_injective : Function.Injective leafOf := Fin.castLE_injective (by decide)

theorem leafOf_lt (x : Sym) : (leafOf x).val < 11 := x.isLt

/-- The nodes with a parent. -/
def linkedNodes (t : Tree) : Finset NodeId := Finset.univ.filter fun n => t.parent[n].isSome

/-- The child slots of the internal nodes up to the root. -/
def slotsUpTo (r : NodeId) : Finset (NodeId × Bool) := Finset.Icc 11 r ×ˢ Finset.univ

theorem card_slotsUpTo {r : NodeId} {K : Nat} (hr : r.val = 9 + K) : (slotsUpTo r).card = 2 * (K - 1) := by
  have h11 : ((11 : NodeId) : Nat) = 11 := rfl
  rw [slotsUpTo, Finset.card_product, Fin.card_Icc, h11, Finset.card_univ, Fintype.card_bool]
  omega

/-- `K` leaves and the internal nodes below the root make `K + (K - 2)` linked nodes. -/
theorem card_linkedNodes_ge {t : Tree} {r : NodeId} {K : Nat} (hr : r.val = 9 + K)
    (hleaf : (allSyms.filter fun s => t.parent[leafOf s].isSome).length = K)
    (hinner : ∀ n : NodeId, 11 ≤ n.val → n < r → t.parent[n].isSome) : K + (K - 2) ≤ (linkedNodes t).card := by
  have hleaves : ((allSyms.filter fun s => t.parent[leafOf s].isSome).toFinset.image leafOf).card = K := by
    rw [Finset.card_image_of_injective _ leafOf_injective,
      List.toFinset_card_of_nodup (allSyms_nodup.filter _), hleaf]
  have hinners : (Finset.Ico (11 : NodeId) r).card = K - 2 := by
    have h11 : ((11 : NodeId) : Nat) = 11 := rfl
    rw [Fin.card_Ico, h11]
    omega
  refine (congrArg₂ (· + ·) hleaves hinners).ge.trans ?_
  rw [← Finset.card_union_of_disjoint]
  · refine Finset.card_le_card fun n hn => ?_
    rcases Finset.mem_union.1 hn with hn | hn
    · obtain ⟨x, hx, rfl⟩ := Finset.mem_image.1 hn
      simpa [linkedNodes] using (List.mem_filter.1 (List.mem_toFinset.1 hx)).2
    · obtain ⟨h1, h2⟩ := Finset.mem_Ico.1 hn
      simpa [linkedNodes] using hinner n h1 h2
  · rw [Finset.disjoint_left]
    intro n hn hi
    obtain ⟨x, -, rfl⟩ := Finset.mem_image.1 hn
    exact absurd (leafOf_lt x) (Nat.not_lt.2 (Finset.mem_Ico.1 hi).1)

/-- As many nodes are linked as there are slots, so no slot is free. -/
theorem LinkedBelow.slots_filled {t : Tree} {r : NodeId} {K : Nat} (h : LinkedBelow t (r.val + 1)) (hr : r.val = 9 + K)
    (hleaf : (allSyms.filter fun s => t.parent[leafOf s].isSome).length = K)
    (hinner : ∀ n : NodeId, 11 ≤ n.val → n < r → t.parent[n].isSome)
    {p : NodeId} (hp : 11 ≤ p.val) (hpr : p ≤ r) (b : Bool) : (childOf t p b).isSome := by
  by_contra hfree
  have hfree : childOf t p b = none := by simpa using hfree
  have hslot : (p, b) ∈ slotsUpTo r :=
    Finset.mem_product.2 ⟨Finset.mem_Icc.2 ⟨hp, hpr⟩, Finset.mem_univ b⟩
  have hsub : (linkedNodes t).image some ⊆ ((slotsUpTo r).erase (p, b)).image fun x => childOf t x.1 x.2 := by
    intro c hc
    obtain ⟨n, hn, rfl⟩ := Finset.mem_image.1 hc
    obtain ⟨q, hq⟩ := Option.isSome_iff_exists.1 (Finset.mem_filter.1 hn).2
    obtain ⟨d, hd⟩ := h.child_of_parent hq
    obtain ⟨hq1, hq2⟩ := h.parent_range n q hq
    refine Finset.mem_image.2 ⟨(q, d), Finset.mem_erase.2 ⟨?_, ?_⟩, hd⟩
    · rintro ⟨⟩
      simp [hfree] at hd
    · exact Finset.mem_product.2 ⟨Finset.mem_Icc.2 ⟨hq1, Nat.le_of_lt_succ hq2⟩, Finset.mem_univ d⟩
  have hcard := (Finset.card_le_card hsub).trans Finset.card_image_le
  rw [Finset.card_image_of_injective _ (Option.some_injective _), Finset.card_erase_of_mem hslot,
    card_slotsUpTo hr] at hcard
  have hge := card_linkedNodes_ge hr hleaf hinner
  have : p.val ≤ r.val := hpr
  omega

/-! ### Every node reaches the root (R181) -/

@[simp] theorem climbParents_root (t : Tree) (r : NodeId) (k : Nat) : climbParents t r k (some r) = some r := by
  induction k with
  | zero => rfl
  | succ k ih => simpa [climbParents] using ih

theorem climbParents_succ {t : Tree} {r n p : NodeId} (k : Nat) (hn : n ≠ r) (hp : t.parent[n] = some p) :
    climbParents t r (k + 1) (some n) = climbParents t r k (some p) := by
  have hn : some n ≠ some r := by simpa using hn
  rw [climbParents, if_neg hn, Option.bind_some, hp]

@[simp] theorem climbParents_none (t : Tree) (r : NodeId) (k : Nat) : climbParents t r k none = none := by
  induction k with
  | zero => rfl
  | succ k ih => simpa [climbParents] using ih

/-- From a node other than the root, the walk reaches it one step after the parent's walk does. -/
theorem climbParents_succ_eq_root {t : Tree} {r n : NodeId} {k : Nat} (hn : n ≠ r) :
    climbParents t r (k + 1) (some n) = some r ↔ ∃ p, t.parent[n] = some p ∧ climbParents t r k (some p) = some r := by
  cases hp : t.parent[n] with
  | none =>
    have hn : some n ≠ some r := by simpa using hn
    rw [climbParents, if_neg hn, Option.bind_some, hp]
    simp
  | some p => simp [climbParents_succ k hn hp]

/-- Once at the root the walk stays there. -/
theorem climbParents_mono {t : Tree} {r n : NodeId} {k : Nat} (h : climbParents t r k (some n) = some r) :
    climbParents t r (k + 1) (some n) = some r := by
  induction k generalizing n with
  | zero =>
    obtain rfl : n = r := by simpa [climbParents] using h
    simp
  | succ k ih =>
    by_cases hn : n = r
    · subst hn; simp
    · obtain ⟨p, hp, hk⟩ := (climbParents_succ_eq_root hn).1 h
      exact (climbParents_succ_eq_root hn).2 ⟨p, hp, ih hk⟩

/-- The internal nodes below the root that reach it in `k` steps. -/
def reaching (t : Tree) (r : NodeId) (k : Nat) : Finset NodeId :=
  (Finset.Ico 11 r).filter fun n => climbParents t r k (some n) = some r

theorem reaching_mono (t : Tree) (r : NodeId) (k : Nat) : reaching t r k ⊆ reaching t r (k + 1) := fun _ hn =>
  Finset.mem_filter.2 ⟨(Finset.mem_filter.1 hn).1, climbParents_mono (Finset.mem_filter.1 hn).2⟩

theorem card_reaching_le (t : Tree) (r : NodeId) (k : Nat) : (reaching t r k).card ≤ r.val - 11 :=
  (Finset.card_filter_le _ _).trans (Fin.card_Ico 11 r).le

/-- A step that lets no further node reach the root is followed by another such step. -/
theorem LinkedBelow.reaching_stable {t : Tree} {r : NodeId} (h : LinkedBelow t (r.val + 1)) {k : Nat}
    (hk : reaching t r k = reaching t r (k + 1)) : reaching t r (k + 1) = reaching t r (k + 2) := by
  refine (reaching_mono t r (k + 1)).antisymm fun n hn => ?_
  obtain ⟨hin, hclimb⟩ := Finset.mem_filter.1 hn
  have hne : n ≠ r := (Finset.mem_Ico.1 hin).2.ne
  obtain ⟨p, hp, hpk⟩ := (climbParents_succ_eq_root hne).1 hclimb
  refine Finset.mem_filter.2 ⟨hin, (climbParents_succ_eq_root hne).2 ⟨p, hp, ?_⟩⟩
  by_cases hpr : p = r
  · subst hpr; simp
  · obtain ⟨h11, hle⟩ := h.parent_range n p hp
    have hmem : p ∈ reaching t r (k + 1) :=
      Finset.mem_filter.2 ⟨Finset.mem_Ico.2 ⟨h11, lt_of_le_of_ne (Nat.le_of_lt_succ hle) hpr⟩, hpk⟩
    rw [← hk] at hmem
    exact (Finset.mem_filter.1 hmem).2

/-- Each further step adds a node until none is added, so a walk that reaches the root at all does so in as many steps as there are
internal nodes below it. -/
theorem LinkedBelow.climb_within {t : Tree} {r : NodeId} (h : LinkedBelow t (r.val + 1)) {k : Nat}
    (hk : ∀ n : NodeId, 11 ≤ n.val → n < r → climbParents t r k (some n) = some r)
    {n : NodeId} (hn : 11 ≤ n.val) (hnr : n ≤ r) : climbParents t r (r.val - 11) (some n) = some r := by
  rcases hnr.eq_or_lt with rfl | hlt
  · simp
  have hmono : Monotone (reaching t r) := monotone_nat_of_le_succ (reaching_mono t r)
  have hall : n ∈ reaching t r k := Finset.mem_filter.2 ⟨Finset.mem_Ico.2 ⟨hn, hlt⟩, hk n hn hlt⟩
  have hstable : (reaching t r (k + (r.val - 11))).card = (reaching t r (r.val - 11)).card :=
    Nat.stabilises_of_monotone (fun _ _ hab => Finset.card_le_card (hmono hab)) (card_reaching_le t r)
      (fun m hm => congrArg Finset.card
        (h.reaching_stable (Finset.eq_of_subset_of_card_le (reaching_mono t r m) hm.ge)))
      (Nat.le_add_left _ _)
  have heq := Finset.eq_of_subset_of_card_le (hmono (Nat.le_add_left (r.val - 11) k)) hstable.le
  have hmem : n ∈ reaching t r (r.val - 11) := heq ▸ hmono (Nat.le_add_right k _) hall
  exact (Finset.mem_filter.1 hmem).2

/-- Linked node files with `K` leaves and the internal nodes below `9 + K`, all of which reach that node, are a finished tree. -/
theorem LinkedBelow.fullTree {t : Tree} {r : NodeId} (h : LinkedBelow t (r.val + 1)) (hvariant : t.variant = .full)
    (hroot : t.root = some r) (hk : 2 ≤ t.k.toNat ∧ r.val = 9 + t.k.toNat) (hnext : t.nextId.toNat = r.val + 1)
    (hleaf : (allSyms.filter fun s => t.parent[leafOf s].isSome).length = t.k.toNat)
    (hinner : ∀ n : NodeId, 11 ≤ n.val → (t.parent[n].isSome ↔ n < r)) {k : Nat}
    (hreach : ∀ n : NodeId, 11 ≤ n.val → n < r → climbParents t r k (some n) = some r) : FullTree t r where
  variant_full := hvariant
  root_eq := hroot
  root_val := hk
  nextId_eq := hnext
  leaf_count := hleaf
  inner_parent := hinner
  parent_range n p hp := ⟨(h.parent_range n p hp).1, Nat.le_of_lt_succ (h.parent_range n p hp).2⟩
  children p hp hpr := by
    have filled := h.slots_filled hk.2 hleaf (fun n hn => (hinner n hn).2) hp hpr
    obtain ⟨a, ha⟩ := Option.isSome_iff_exists.1 (filled false)
    obtain ⟨b, hb⟩ := Option.isSome_iff_exists.1 (filled true)
    exact ⟨a, b, ha, hb, h.slots_ascend p a b ha hb⟩
  no_children p hp := ⟨h.no_child hp false, h.no_child hp true⟩
  child_iff := h.child_iff
  reaches_root n hn := by
    by_cases hnr : n = r
    · subst hnr; simp
    · obtain ⟨p, hp⟩ := Option.isSome_iff_exists.1 (hn.resolve_left hnr)
      obtain ⟨h11, hle⟩ := h.parent_range n p hp
      rw [show t.k.toNat - 1 = r.val - 11 + 1 by omega, climbParents_succ _ hnr hp]
      exact h.climb_within hreach h11 (Nat.le_of_lt_succ hle)

end Sys2Proof.Machine

/-! ## The tree decoder (R178 to R181) -/

namespace Sys2Proof.Machine

open Sys2Proof Sys2Proof.Safety

/-! ### Header fields -/

theorem fieldOf_ok_iff {t : Tree} {n : NodeId} {v : Nat} :
    fieldOf t n = .ok v ↔
      (t.parent[n] = none ∧ n.val ≤ 10 ∧ v = 10) ∨ ∃ p : NodeId, t.parent[n] = some p ∧ 11 ≤ p.val ∧ v = p.val - 11 := by
  unfold fieldOf
  split
  · next hp => by_cases hn : n.val ≤ 10 <;> simp [hp, hn, eq_comm]
  · next p hp => by_cases h11 : 11 ≤ p.val <;> simp [hp, h11, eq_comm]

theorem fieldOf_congr {t u : Tree} {n : NodeId} (h : u.parent[n] = t.parent[n]) : fieldOf u n = fieldOf t n := by
  simp only [fieldOf, h]

/-- A leaf is in the tree exactly when its field is not `ABSENT`. -/
theorem isSome_parent_iff_of_fieldOf {t : Tree} {n : NodeId} {v : Nat} (h : fieldOf t n = .ok v) :
    t.parent[n].isSome ↔ v ≠ 10 := by
  rcases fieldOf_ok_iff.1 h with ⟨hp, -, rfl⟩ | ⟨p, hp, h11, rfl⟩
  · simp [hp]
  · have := p.isLt
    rw [hp]
    simp
    omega

theorem isSome_parent_of_fieldOf_inner {t : Tree} {n : NodeId} {v : Nat} (h : fieldOf t n = .ok v) (hn : 11 ≤ n.val) :
    t.parent[n].isSome := by
  rcases fieldOf_ok_iff.1 h with ⟨-, hle, -⟩ | ⟨p, hp, -, -⟩
  · omega
  · simp [hp]

theorem fieldsOf_ok {t : Tree} {ns : List NodeId} {fs : List Nat}
    (h : List.Forall₂ (fun n v => fieldOf t n = .ok v) ns fs) : fieldsOf t ns = .ok fs := by
  induction h with
  | nil => rfl
  | cons hv _ ih => simp [fieldsOf, hv, ih, bind, Except.bind]

theorem filter_lt_eq_take (r : NodeId) : allNodes.filter (· < r) = allNodes.take r.val := by
  revert r; decide

/-- The header of a `FULL` tree is the list of its nodes' fields below the root. -/
theorem headerFields_full {t : Tree} {r : NodeId} {fs : List Nat} (hv : t.variant = .full) (hr : t.root = some r)
    (hlen : fs.length = r.val) (hf : ∀ (n : NodeId) (h : n.val < fs.length), fieldOf t n = .ok fs[n.val]) :
    headerFields t = .ok fs := by
  simp only [headerFields, hv, hr, filter_lt_eq_take]
  refine fieldsOf_ok (List.forall₂_iff_get.2 ⟨?_, fun i hi hi' => ?_⟩)
  · simp [allNodes, hlen]
  · simpa [allNodes] using hf ⟨i, by omega⟩ hi'

/-! ### The fields as bits -/

/-- The bits from `pos` on are the given fields, four bits each. -/
def FieldsAt (buf : List Bool) (pos : Nat) (fs : List Nat) : Prop :=
  (buf.drop pos).take (4 * fs.length) = fs.flatMap (natBits 4)

theorem FieldsAt.append {buf : List Bool} {pos : Nat} {fs gs : List Nat} (h : FieldsAt buf pos fs)
    (h' : FieldsAt buf (pos + 4 * fs.length) gs) : FieldsAt buf pos (fs ++ gs) := by
  unfold FieldsAt at *
  rw [List.length_append, Nat.mul_add, List.take_add, List.flatMap_append, h, List.drop_drop, h']

theorem read4_fieldsAt {buf : List Bool} {limit pos : Nat} {x : Nat × Nat} (hlim : limit ≤ buf.length)
    (h : read4 buf limit pos = .ok x) : FieldsAt buf pos [x.1] ∧ x.2 = pos + 4 ∧ x.2 ≤ limit := by
  obtain ⟨hpos, rfl⟩ := read4_ok h
  refine ⟨?_, rfl, hpos⟩
  have hl : ((buf.drop pos).take 4).length = 4 := by simp; omega
  have hbits := natBits_bitsValue ((buf.drop pos).take 4)
  rw [hl] at hbits
  simpa [FieldsAt, bitRead] using hbits.symm

theorem readFields_fieldsAt {buf : List Bool} {limit top n pos : Nat} {x : List Nat × Nat} (hlim : limit ≤ buf.length)
    (hpos : pos ≤ limit) (h : readFields buf limit top n pos = .ok x) : FieldsAt buf pos x.1 ∧ x.2 ≤ limit := by
  induction n generalizing pos x with
  | zero => cases h; simpa [FieldsAt] using hpos
  | succ n ih =>
    obtain ⟨⟨v, p⟩, hv, h⟩ := bind_eq_ok.1 h
    obtain ⟨hat, hp, hple⟩ := read4_fieldsAt hlim hv
    dsimp only at h hat hp hple
    split at h
    · cases h
    · obtain ⟨⟨vs, q⟩, hvs, h⟩ := bind_eq_ok.1 h
      cases h
      obtain ⟨hats, hq⟩ := ih hple hvs
      refine ⟨?_, hq⟩
      subst hp
      exact hat.append hats

/-! ### Linking the nodes (R178, stage D) -/

/-- One turn of stage D, on files in which only smaller nodes are linked, links its node as its field says and nothing else. -/
theorem linkNode_linked {r n : NodeId} {v : Nat} {t u : Tree} (h : linkNode r n v t = .ok u)
    (ht : LinkedBelow t (r.val + 1)) (hn : ∀ m : NodeId, t.parent[m].isSome → m < n) :
    LinkedBelow u (r.val + 1) ∧ fieldOf u n = .ok v ∧ (∀ m, m ≠ n → u.parent[m] = t.parent[m]) ∧
      u.weight = t.weight := by
  have hfresh : t.parent[n] = none := by
    by_contra hp
    exact lt_irrefl n (hn n (Option.ne_none_iff_isSome.1 hp))
  rcases linkNode_ok h with ⟨hle, rfl, rfl⟩ | ⟨p, hp, hpr, hparent, hslot⟩
  · exact ⟨ht, fieldOf_ok_iff.2 (.inl ⟨hfresh, hle, rfl⟩), fun _ _ => rfl, rfl⟩
  have h11 : 11 ≤ p.val := by omega
  have hset (m : NodeId) : (t.parent.set n (some p))[m] = if m = n then some p else t.parent[m] := by
    simp only [getElem_set_node, eq_comm]
  have hpar (m : NodeId) : u.parent[m] = if m = n then some p else t.parent[m] := by rw [hparent, hset]
  have hone (m : NodeId) (hm : m = n) : t.parent[m] = none := hm ▸ hfresh
  refine ⟨?_, fieldOf_ok_iff.2 (.inr ⟨p, by simp [hpar], h11, by omega⟩), fun m hm => by rw [hpar, if_neg hm], ?_⟩
  · rcases hslot with ⟨h0, rfl⟩ | ⟨h0, h1, rfl⟩
    · have h1 := ht.first_slot_first p h0
      refine ht.setChildren le_rfl h11 (Nat.lt_succ_of_le hpr) rfl hset hone (fun k => ?_) ?_ ?_
      · rw [← ht.child_iff k p]
        simp [h0, h1, eq_comm]
      · simp [h1]
      · simp
    · refine ht.setChildren le_rfl h11 (Nat.lt_succ_of_le hpr) rfl hset hone (fun k => ?_) (fun a b ha hb => ?_) ?_
      · rw [← ht.child_iff k p]
        simp [h1, eq_comm, or_comm]
      · cases hb
        exact hn a (by simp [ht.parent_of_child ha])
      · exact fun hnone => absurd hnone h0
  · rcases hslot with ⟨-, rfl⟩ | ⟨-, -, rfl⟩ <;> simp

/-- Stage D links the nodes of an ascending list, each as its field says, and nothing else. -/
theorem linkAll_linked {r : NodeId} {l : List (NodeId × Nat)} {t u : Tree} (h : linkAll r l t = .ok u)
    (hl : l.Pairwise fun x y => x.1 < y.1) (ht : LinkedBelow t (r.val + 1))
    (hn : ∀ x ∈ l, ∀ m : NodeId, t.parent[m].isSome → m < x.1) :
    LinkedBelow u (r.val + 1) ∧ (∀ x ∈ l, fieldOf u x.1 = .ok x.2) ∧
      (∀ m, (∀ x ∈ l, m ≠ x.1) → u.parent[m] = t.parent[m]) ∧ u.weight = t.weight := by
  induction l generalizing t with
  | nil => cases h; exact ⟨ht, by simp, fun _ _ => rfl, rfl⟩
  | cons x rest ih =>
    obtain ⟨v, hv, h⟩ := bind_eq_ok.1 h
    obtain ⟨hfirst, hrest⟩ := List.pairwise_cons.1 hl
    obtain ⟨hlink, hfield, hkept, hw⟩ := linkNode_linked hv ht (hn x (List.mem_cons_self ..))
    have hbelow : ∀ y ∈ rest, ∀ m : NodeId, v.parent[m].isSome → m < y.1 := by
      intro y hy m hm
      by_cases hmx : m = x.1
      · exact hmx ▸ hfirst y hy
      · rw [hkept m hmx] at hm
        exact hn y (List.mem_cons_of_mem _ hy) m hm
    obtain ⟨hlink', hfields, hkept', hw'⟩ := ih h hrest hlink hbelow
    refine ⟨hlink', ?_, fun m hm => ?_, hw'.trans hw⟩
    · intro y hy
      rcases List.mem_cons.1 hy with rfl | hy
      · rw [fieldOf_congr (hkept' _ fun z hz => (hfirst z hz).ne), hfield]
      · exact hfields y hy
    · obtain ⟨hmx, hmrest⟩ := List.forall_mem_cons.1 hm
      rw [hkept' m hmrest, hkept m hmx]

theorem mem_zip_allNodes {fs : List Nat} {x : NodeId × Nat} :
    x ∈ allNodes.zip fs ↔ ∃ h : x.1.val < fs.length, fs[x.1.val] = x.2 := by
  rw [List.mem_iff_getElem]
  constructor
  · rintro ⟨i, hi, rfl⟩
    have hlt : i < 21 ∧ i < fs.length := by simpa [allNodes] using hi
    simpa [allNodes] using hlt.2
  · rintro ⟨h, hx⟩
    exact ⟨x.1.val, by simpa [allNodes] using h, by simp [allNodes, hx]⟩

theorem zip_allNodes_ascend (fs : List Nat) : (allNodes.zip fs).Pairwise fun x y => x.1 < y.1 := by
  rw [List.pairwise_iff_getElem]
  intro i j hi hj hij
  simpa [allNodes] using hij

/-- Stage D on reset files links every node that has a field. -/
theorem linkAll_reset {r : NodeId} {fs : List Nat} {u : Tree} (h : linkAll r (allNodes.zip fs) Tree.reset = .ok u) :
    LinkedBelow u (r.val + 1) ∧ (∀ (n : NodeId) (hn : n.val < fs.length), fieldOf u n = .ok fs[n.val]) ∧
      (∀ n : NodeId, fs.length ≤ n.val → u.parent[n] = none) ∧ u.weight = Vector.replicate 21 0 := by
  obtain ⟨hlink, hfields, hkept, hw⟩ := linkAll_linked h (zip_allNodes_ascend fs) (linkedBelow_of_blank _ rfl rfl)
    (fun x _ m hm => by rw [parent_reset] at hm; cases hm)
  refine ⟨hlink, fun n hn => hfields (n, fs[n.val]) (mem_zip_allNodes.2 ⟨hn, rfl⟩), fun n hn => ?_, hw⟩
  rw [hkept n, parent_reset]
  rintro x hx rfl
  obtain ⟨hlt, -⟩ := mem_zip_allNodes.1 hx
  omega

/-! ### What the decoder accepts -/

/-- Stages B to E of R178 read eleven leaf fields and `k - 2` inner ones, link them and find that every node reaches the root. -/
theorem parseFull_ok {buf : List Bool} {limit pos f0 : Nat} {t T : Tree} {e : Nat}
    (h : parseFull buf limit pos f0 t = .ok (T, e)) :
    ∃ (ls inner : List Nat) (q k : Nat) (r : NodeId) (u : Tree),
      readFields buf limit 10 10 pos = .ok (ls, q) ∧ k = (presentLeaves (f0 :: ls)).length ∧ 2 ≤ k ∧ r.val = 9 + k ∧
      readFields buf limit 9 (k - 2) q = .ok (inner, e) ∧ linkAll r (allNodes.zip (f0 :: ls ++ inner)) t = .ok u ∧
      allReachRoot u r k = true ∧
      T = { u with variant := .full, k := BitVec.ofNat 4 k, root := some r, nextId := BitVec.ofNat 5 (r.val + 1) } := by
  obtain ⟨⟨ls, q⟩, hls, h⟩ := bind_eq_ok.1 h
  dsimp only at h
  split at h
  · cases h
  · next hk =>
    obtain ⟨⟨inner, e'⟩, hinner, h⟩ := bind_eq_ok.1 h
    obtain ⟨u, hu, h⟩ := bind_eq_ok.1 h
    split at h
    · next hreach =>
      cases h
      exact ⟨ls, inner, q, _, _, u, hls, rfl, by omega, rfl, hinner, hu, hreach, rfl⟩
    · cases h

theorem mem_internalIds {n : NodeId} (h : 11 ≤ n.val) : n ∈ internalIds := by
  revert n; decide

theorem climbParents_of_allReachRoot {t : Tree} {r : NodeId} {k : Nat} (h : allReachRoot t r k = true) (n : NodeId)
    (h11 : 11 ≤ n.val) (hn : n < r) : climbParents t r (k - 1) (some n) = some r := by
  simpa using List.all_eq_true.1 h n (List.mem_filter.2 ⟨mem_internalIds h11, by simpa using hn⟩)

theorem climbParents_congr {t u : Tree} (h : u.parent = t.parent) (r : NodeId) (k : Nat) (n : Option NodeId) :
    climbParents u r k n = climbParents t r k n := by
  induction k generalizing n with
  | zero => rfl
  | succ k ih => simp only [climbParents, ih, h]

/-- The tree and the header that `PAR` is to find from bit 3 on: a legal tree with zero weights, whose fields are the bits read. -/
structure HeaderOf (buf : List Bool) (limit : Nat) (T : Tree) (e : Nat) : Prop where
  treeWf : TreeWf T
  variant_ne : T.variant ≠ .none
  weight : T.weight = Vector.replicate 21 0
  end_le : e ≤ limit
  fields : ∃ fs, headerFields T = .ok fs ∧ e = 3 + 4 * fs.length ∧ FieldsAt buf 3 fs

/-- The leaves that `PAR` counts are the leaves that stage D links. -/
theorem linkedLeaves_eq_presentLeaves {u : Tree} {leaves inner : List Nat} (hlen : leaves.length = 11)
    (hfield : ∀ (n : NodeId) (hn : n.val < (leaves ++ inner).length), fieldOf u n = .ok (leaves ++ inner)[n.val]) :
    (allSyms.filter fun s => u.parent[leafOf s].isSome) = presentLeaves leaves := by
  refine List.filter_congr fun s _ => ?_
  have hs : s.val < leaves.length := by omega
  have hv : fieldOf u (leafOf s) = .ok leaves[s.val] :=
    (hfield (leafOf s) (by simp [leafOf]; omega)).trans (congrArg _ (List.getElem_append_left hs))
  have hget : leaves.getD s.val 10 = leaves[s.val] := by simp [hs]
  rw [Bool.eq_iff_iff, isSome_parent_iff_of_fieldOf hv, hget]
  simp

theorem parseFull_headerOf {buf : List Bool} {limit f0 : Nat} {T : Tree} {e : Nat} (hlim : limit ≤ buf.length)
    (h0 : FieldsAt buf 3 [f0]) (h7 : 7 ≤ limit) (h : parseFull buf limit 7 f0 Tree.reset = .ok (T, e)) :
    HeaderOf buf limit T e := by
  obtain ⟨ls, inner, q, k, r, u, hls, hk, hk2, hr, hinner, hu, hreach, rfl⟩ := parseFull_ok h
  obtain ⟨hlen, rfl, -⟩ := readFields_ok hls
  obtain ⟨hlen', he, -⟩ := readFields_ok hinner
  obtain ⟨hat, hq⟩ := readFields_fieldsAt hlim h7 hls
  obtain ⟨hat', hend⟩ := readFields_fieldsAt hlim hq hinner
  dsimp only at hlen hlen' he hat hq hat' hend
  have hfs : (f0 :: ls ++ inner).length = r.val := by simp; omega
  have hk11 : k ≤ 11 := hk ▸ presentLeaves_length_le _
  obtain ⟨hlink, hfield, hrest, hweight⟩ := linkAll_reset hu
  have hkval : (BitVec.ofNat 4 k).toNat = k := Nat.mod_eq_of_lt (by omega)
  have hleaf : (allSyms.filter fun s => u.parent[leafOf s].isSome).length = k := by
    rw [linkedLeaves_eq_presentLeaves (by simp [hlen]) hfield, hk]
  have hinner : ∀ n : NodeId, 11 ≤ n.val → (u.parent[n].isSome ↔ n < r) := by
    intro n h11
    by_cases hn : n < r
    · simpa [hn] using isSome_parent_of_fieldOf_inner (hfield n (hfs ▸ hn)) h11
    · simp [hn, hrest n (hfs ▸ Nat.not_lt.1 hn)]
  refine ⟨⟨r, ?_⟩, by simp, hweight, hend, f0 :: ls ++ inner, headerFields_full rfl rfl hfs hfield, ?_, ?_⟩
  · refine LinkedBelow.fullTree (k := k - 1) (hlink.congr rfl rfl) rfl rfl ?_ ?_ ?_ hinner fun n h11 hn => ?_
    · simpa [hkval] using ⟨hk2, hr⟩
    · have := r.isLt
      exact Nat.mod_eq_of_lt (by omega)
    · exact hleaf.trans hkval.symm
    · exact (climbParents_congr (t := u) (by rfl) r (k - 1) (some n)).trans (climbParents_of_allReachRoot hreach n h11 hn)
  · omega
  · exact (h0.append hat).append (by simpa [hlen] using hat')

theorem parseHeader_headerOf {buf : List Bool} {limit : Nat} {T : Tree} {e : Nat} (hlim : limit ≤ buf.length)
    (h : parseHeader buf limit Tree.reset = .ok (T, e)) : HeaderOf buf limit T e := by
  obtain ⟨⟨f0, pos⟩, h0, h⟩ := bind_eq_ok.1 h
  obtain ⟨hat, hpos, hle⟩ := read4_fieldsAt hlim h0
  dsimp only at h hat hpos hle
  subst hpos
  split at h
  · next h15 =>
    cases h
    exact ⟨⟨rfl, rfl, rfl, rfl, rfl⟩, by simp, rfl, hle, [15], rfl, rfl, h15 ▸ hat⟩
  split at h
  · next h14 =>
    obtain ⟨⟨x, pos⟩, h1, h⟩ := bind_eq_ok.1 h
    obtain ⟨hat1, hpos, hle⟩ := read4_fieldsAt hlim h1
    dsimp only at h hat1 hpos hle
    subst hpos
    split at h
    · next hx =>
      cases h
      refine ⟨⟨rfl, ⟨⟨x, hx⟩, rfl⟩, rfl, rfl, rfl⟩, by simp, rfl, hle, [14, x], ?_, rfl, ?_⟩
      · simp [headerFields, symOf, leafOf, hx]
      · exact (h14 ▸ hat).append hat1
    · cases h
  split at h
  · cases h
  · exact parseFull_headerOf hlim hat hle h

/-- Settles O36: a completed `PAR` is its own rule from the registers before, so its header is that of the tree it made. -/
theorem parAcceptsOnlyFinishedTrees : Obligations.ParAcceptsOnlyFinishedTrees := by
  intro s t hreset h hparsed
  rcases command_next h with ⟨hf, rfl⟩ | ⟨-, -, u, d, hr, rfl⟩ | ⟨-, e, rfl, -⟩
  · cases hf.symm.trans hparsed
  · obtain ⟨p, hp, rfl⟩ := parRule_ok hr
    unfold parseBlob at hp
    split at hp
    · cases hp
    obtain ⟨⟨T, e⟩, hT, hp⟩ := bind_eq_ok.1 hp
    cases hp
    rw [hreset] at hT
    obtain ⟨hwf, hne, hw, hle, hfields⟩ := parseHeader_headerOf (Nat.sub_le _ _) hT
    exact ⟨hwf, hne, hw, rfl, rfl, rfl, hle, hfields⟩
  · cases hparsed

end Sys2Proof.Machine

/-! ## The tree builder (R153 to R157)

The loop of `BLD` keeps a forest: the nodes made so far, linked below the next id, whose roots are the candidates. With one candidate left
the forest is the finished tree. -/

namespace Sys2Proof.Machine

open Sys2Proof Sys2Proof.Safety

/-! ### Weights of the leaves -/

theorem loadWeights_leaf (f : Vector Nat 11) (w : Vector Nat 21) (syms : List Sym) (x : Sym) :
    (loadWeights f w syms)[leafOf x] = if x ∈ syms then f[x] else w[leafOf x] := by
  induction syms generalizing w with
  | nil => rfl
  | cons y ys ih =>
    rw [loadWeights, List.foldl_cons, ← loadWeights, ih, getElem_set_node]
    by_cases hxy : x = y
    · subst hxy; simp
    · simp [hxy, leafOf_injective.eq_iff, Ne.symm hxy]

theorem loadWeights_inner (f : Vector Nat 11) (w : Vector Nat 21) (syms : List Sym) {n : NodeId} (hn : 11 ≤ n.val) :
    (loadWeights f w syms)[n] = w[n] := by
  induction syms generalizing w with
  | nil => rfl
  | cons y ys ih =>
    have hne : leafOf y ≠ n := fun h => absurd (h ▸ leafOf_lt y) (Nat.not_lt.2 hn)
    rw [loadWeights, List.foldl_cons, ← loadWeights, ih, getElem_set_node, if_neg hne]

theorem mem_presentSyms {f : Vector Nat 11} {x : Sym} : x ∈ presentSyms f ↔ 0 < f[x] := by
  simp [presentSyms, allSyms]

/-- Symbols that do not occur add nothing to the total. -/
theorem sum_map_filter_pos {α : Type} (g : α → Nat) (l : List α) :
    ((l.filter fun x => 0 < g x).map g).sum = (l.map g).sum := by
  induction l with
  | nil => rfl
  | cons x xs ih =>
    by_cases hx : 0 < g x
    · simp [hx, ih]
    · have h0 : g x = 0 := by omega
      simp [h0, ih]

/-! ### The forest -/

/-- A node of the forest when the next id is `m`: a symbol that occurs, or an internal node already made. -/
def InForest (f : Vector Nat 11) (m : Nat) (n : NodeId) : Prop :=
  (∃ x : Sym, leafOf x = n ∧ 0 < f[x]) ∨ (11 ≤ n.val ∧ n.val < m)

theorem inForest_leaf {f : Vector Nat 11} {m : Nat} {x : Sym} : InForest f m (leafOf x) ↔ 0 < f[x] := by
  have := leafOf_lt x
  simp [InForest, leafOf_injective.eq_iff]
  omega

theorem inForest_inner {f : Vector Nat 11} {m : Nat} {n : NodeId} (hn : 11 ≤ n.val) : InForest f m n ↔ n.val < m := by
  have hleaf : ¬ ∃ x : Sym, leafOf x = n ∧ 0 < f[x] := by
    rintro ⟨x, rfl, -⟩
    exact absurd (leafOf_lt x) (Nat.not_lt.2 hn)
  simp only [InForest, hleaf, hn, false_or, true_and]

theorem InForest.lt {f : Vector Nat 11} {m : Nat} {n : NodeId} (h : InForest f m n) (hm : 11 ≤ m) : n.val < m := by
  rcases h with ⟨x, rfl, -⟩ | ⟨-, h⟩
  · exact (leafOf_lt x).trans_le hm
  · exact h

theorem inForest_succ {f : Vector Nat 11} {m : Nat} {n : NodeId} (hm : 11 ≤ m) :
    InForest f (m + 1) n ↔ InForest f m n ∨ n.val = m := by
  simp only [InForest, or_assoc]
  refine or_congr_right ?_
  omega

/-- What the loop of R154 keeps: the tree registers `t` hold the forest of the nodes below the next id `m`, with the candidates `active` as
its roots. -/
structure Forest (f : Vector Nat 11) (m : Nat) (active : List NodeId) (t : Tree) : Prop where
  variant_full : t.variant = .full
  k_eq : t.k = BitVec.ofNat 4 (presentSyms f).length
  nextId_eq : t.nextId = BitVec.ofNat 5 m
  linked : LinkedBelow t m
  nodup : active.Nodup
  /-- the candidates are the nodes without a parent -/
  mem_active : ∀ n : NodeId, n ∈ active ↔ InForest f m n ∧ t.parent[n] = none
  inForest_of_parent : ∀ n p : NodeId, t.parent[n] = some p → InForest f m n
  parent_gt : ∀ n p : NodeId, t.parent[n] = some p → n < p
  leaf_weight : ∀ x : Sym, t.weight[leafOf x] = f[x]
  unused_weight : ∀ n : NodeId, 11 ≤ n.val → m ≤ n.val → t.weight[n] = 0
  node_weight : ∀ n a b : NodeId, childOf t n false = some a → childOf t n true = some b →
    t.weight[n] = t.weight[a] + t.weight[b]
  total : (active.map fun n => t.weight[n]).sum = (allSyms.map fun x => f[x]).sum
  /-- each merge takes two candidates and makes one node -/
  count : active.length + m = 11 + (presentSyms f).length

/-- The tree registers as the loop starts (R154). -/
def seedTree (f : Vector Nat 11) : Tree :=
  { Tree.reset with
    k := BitVec.ofNat 4 (presentSyms f).length
    nextId := 11
    weight := loadWeights f Tree.reset.weight (presentSyms f)
    variant := .full }

/-- The leaves of the symbols that occur are a forest without internal nodes. -/
theorem forest_seed (f : Vector Nat 11) : Forest f 11 ((presentSyms f).map leafOf) (seedTree f) := by
  have hweight (x : Sym) : (seedTree f).weight[leafOf x] = f[x] := by
    have hw : (seedTree f).weight[leafOf x] = _ := loadWeights_leaf f Tree.reset.weight (presentSyms f) x
    rw [hw]
    split
    · rfl
    · next hx => exact (weight_reset _).trans (Nat.eq_zero_of_not_pos fun h0 => hx (mem_presentSyms.2 h0)).symm
  have hparent (n : NodeId) : (seedTree f).parent[n] = none := parent_reset n
  have hchild (p : NodeId) (b : Bool) : childOf (seedTree f) p b = none := childOf_reset p b
  refine ⟨rfl, rfl, rfl, linkedBelow_of_blank 11 rfl rfl, ?_, fun n => ?_, ?_, ?_, hweight, ?_, ?_, ?_, ?_⟩
  · exact (allSyms_nodup.filter _).map leafOf_injective
  · rw [hparent, List.mem_map]
    have hempty : ¬ (11 ≤ n.val ∧ n.val < 11) := by omega
    simp only [InForest, mem_presentSyms, hempty, or_false, and_true, and_comm (a := leafOf _ = n)]
  · simp [hparent]
  · simp [hparent]
  · intro n hn _
    have hw : (seedTree f).weight[n] = _ := loadWeights_inner f Tree.reset.weight (presentSyms f) hn
    rw [hw, weight_reset]
  · simp [hchild]
  · rw [List.map_map]
    simp only [Function.comp_def, hweight]
    exact sum_map_filter_pos _ allSyms
  · simp [Nat.add_comm]

/-! ### One merge (R154) -/

theorem getElem_mergeNodes_parent (t : Tree) (a b n k : NodeId) :
    (mergeNodes t a b n).parent[k] = if k = a ∨ k = b then some n else t.parent[k] := by
  rw [mergeNodes_parent, getElem_set_node, getElem_set_node]
  by_cases hb : b = k
  · simp [hb]
  · by_cases ha : a = k <;> simp [ha, hb, eq_comm (a := k)]

theorem getElem_mergeNodes_weight (t : Tree) (a b n k : NodeId) :
    (mergeNodes t a b n).weight[k] = if n = k then t.weight[a] + t.weight[b] else t.weight[k] := by
  rw [mergeNodes_weight, getElem_set_node]

theorem childOf_mergeNodes_self (t : Tree) (a b : NodeId) {n : NodeId} (hn : 11 ≤ n.val) (c : Bool) :
    childOf (mergeNodes t a b n) n c = some (if c then max a b else min a b) := by
  rw [mergeNodes, childOf_setChildren_self c hn]
  cases c <;> rfl

theorem childOf_mergeNodes_ne (t : Tree) (a b : NodeId) {n q : NodeId} (hq : q ≠ n) (c : Bool) :
    childOf (mergeNodes t a b n) q c = childOf t q c := by
  rw [mergeNodes, childOf_setChildren_ne c hq]
  rfl

/-- Two nodes without parent become the children of a new node. -/
theorem LinkedBelow.mergeNodes {t : Tree} {m : Nat} (h : LinkedBelow t m) {a b n : NodeId} (hm : 11 ≤ m) (hn : n.val = m)
    (hab : a ≠ b) (ha : t.parent[a] = none) (hb : t.parent[b] = none) :
    LinkedBelow (Machine.mergeNodes t a b n) (m + 1) := by
  refine h.setChildren (S := fun k => k = a ∨ k = b) (Nat.le_succ m) (hn ▸ hm) (by omega) rfl (fun k => ?_) ?_ (fun k => ?_)
    (fun c d hc hd => ?_) (by simp)
  · rw [← getElem_mergeNodes_parent, mergeNodes_parent]
  · rintro k (rfl | rfl)
    exacts [ha, hb]
  · have hnot : t.parent[k] ≠ some n := fun hp => absurd (h.parent_range k n hp).2 (by omega)
    rw [or_iff_left hnot]
    rcases lt_or_gt_of_ne hab with hlt | hlt
    · simp [hlt.le, eq_comm]
    · simp [hlt.le, eq_comm, or_comm]
  · cases hc
    cases hd
    exact min_lt_max.2 hab

section

variable {f : Vector Nat 11} {m : Nat} {active : List NodeId} {t : Tree} {a b n : NodeId}

/-- Two distinct candidates and the rest, which a merge keeps. -/
theorem perm_erase_erase (ha : a ∈ active) (hb : b ∈ active.erase a) :
    active.Perm (a :: b :: (active.erase a).erase b) :=
  (List.perm_cons_erase ha).trans ((List.perm_cons_erase hb).cons a)

/-- The merge of two candidates under the next id keeps the forest. -/
theorem Forest.merge (h : Forest f m active t) (hm : 11 ≤ m) (hn : n.val = m) (ha : a ∈ active)
    (hb : b ∈ active.erase a) : Forest f (m + 1) ((active.erase a).erase b ++ [n]) (mergeNodes t a b n) := by
  have hperm := perm_erase_erase ha hb
  have hnodup : (a :: b :: (active.erase a).erase b).Nodup := hperm.nodup_iff.1 h.nodup
  have hab : a ≠ b := fun hab => (List.nodup_cons.1 hnodup).1 (hab ▸ List.mem_cons_self ..)
  have hrest (k : NodeId) : k ∈ (active.erase a).erase b ↔ k ∈ active ∧ ¬ (k = a ∨ k = b) := by
    rw [(h.nodup.erase a).mem_erase_iff, h.nodup.mem_erase_iff]
    tauto
  obtain ⟨hfa, hpa⟩ := (h.mem_active a).1 ha
  obtain ⟨hfb, hpb⟩ := (h.mem_active b).1 (List.mem_of_mem_erase hb)
  have hforest {k : NodeId} (hk : k = a ∨ k = b) : InForest f m k := by
    rcases hk with rfl | rfl
    exacts [hfa, hfb]
  have hne {k : NodeId} (hk : InForest f m k) : n ≠ k := fun hkn => (hk.lt hm).ne (hkn ▸ hn)
  have hpn : t.parent[n] = none := by
    by_contra hp
    obtain ⟨p, hp⟩ := Option.ne_none_iff_exists'.1 hp
    exact hne (h.inForest_of_parent n p hp) rfl
  have hweight {k : NodeId} (hk : n ≠ k) : (mergeNodes t a b n).weight[k] = t.weight[k] := by
    rw [getElem_mergeNodes_weight, if_neg hk]
  have hweight_n : (mergeNodes t a b n).weight[n] = t.weight[a] + t.weight[b] := by
    rw [getElem_mergeNodes_weight, if_pos rfl]
  refine
    { variant_full := by rw [mergeNodes_variant, h.variant_full]
      k_eq := by rw [mergeNodes_k, h.k_eq]
      nextId_eq := by rw [mergeNodes_nextId, hn]
      linked := h.linked.mergeNodes hm hn hab hpa hpb
      nodup := ?nodup
      mem_active := fun k => ?mem_active
      inForest_of_parent := fun k p hp => ?inForest_of_parent
      parent_gt := fun k p hp => ?parent_gt
      leaf_weight := fun x => ?leaf_weight
      unused_weight := fun k hk hmk => ?unused_weight
      node_weight := fun k c d hc hd => ?node_weight
      total := ?total
      count := ?count }
  case nodup =>
    refine List.Nodup.append ((h.nodup.erase a).erase b) (List.nodup_singleton n) (List.disjoint_singleton.2 fun hmem => ?_)
    exact hne ((h.mem_active n).1 ((hrest n).1 hmem).1).1 rfl
  case mem_active =>
    rw [List.mem_append, List.mem_singleton, hrest, h.mem_active, inForest_succ hm, getElem_mergeNodes_parent]
    have hkn : k.val = m ↔ k = n := by rw [Fin.ext_iff, hn]
    by_cases hk : k = a ∨ k = b
    · simp [hk, (hne (hforest hk)).symm]
    · by_cases hk' : k = n
      · subst hk'
        simp [hk, hpn, hn]
      · simp [hk, hk', hkn]
  case inForest_of_parent =>
    rw [getElem_mergeNodes_parent] at hp
    split at hp
    · next hk => exact (inForest_succ hm).2 (.inl (hforest hk))
    · exact (inForest_succ hm).2 (.inl (h.inForest_of_parent k p hp))
  case parent_gt =>
    rw [getElem_mergeNodes_parent] at hp
    split at hp
    · next hk =>
      cases hp
      exact ((hforest hk).lt hm).trans_eq hn.symm
    · exact h.parent_gt k p hp
  case leaf_weight =>
    have hx : n ≠ leafOf x := fun hx => absurd (hx ▸ leafOf_lt x) (by omega)
    rw [hweight hx, h.leaf_weight]
  case unused_weight =>
    have hnk : n ≠ k := fun hnk => absurd (hnk ▸ hn) (by omega)
    rw [hweight hnk, h.unused_weight k hk (by omega)]
  case node_weight =>
    by_cases hk : k = n
    · subst hk
      rw [childOf_mergeNodes_self t a b (hn ▸ hm)] at hc hd
      obtain rfl : min a b = c := by simpa using hc
      obtain rfl : max a b = d := by simpa using hd
      rw [hweight_n]
      rcases le_total a b with hle | hle
      · rw [min_eq_left hle, max_eq_right hle, hweight (hne hfa), hweight (hne hfb)]
      · rw [min_eq_right hle, max_eq_left hle, hweight (hne hfa), hweight (hne hfb), Nat.add_comm]
    · rw [childOf_mergeNodes_ne t a b hk] at hc hd
      have hfc := h.inForest_of_parent c k (h.linked.parent_of_child hc)
      have hfd := h.inForest_of_parent d k (h.linked.parent_of_child hd)
      rw [hweight (Ne.symm hk), hweight (hne hfc), hweight (hne hfd), h.node_weight k c d hc hd]
  case total =>
    have hsame : ((active.erase a).erase b).map (fun k => (mergeNodes t a b n).weight[k]) =
        ((active.erase a).erase b).map fun k => t.weight[k] :=
      List.map_congr_left fun k hk => hweight (hne ((h.mem_active k).1 ((hrest k).1 hk).1).1)
    have hsum := (hperm.map fun k => t.weight[k]).sum_eq
    rw [h.total, List.map_cons, List.map_cons, List.sum_cons, List.sum_cons] at hsum
    rw [List.map_append, List.sum_append, hsame, List.map_singleton, List.sum_singleton, hweight_n, hsum]
    omega
  case count =>
    have hlen := hperm.length_eq
    have hcount := h.count
    simp only [List.length_append, List.length_cons, List.length_nil] at hlen ⊢
    omega

/-! ### The loop (R154) -/

/-- One candidate left: all the ids that the merges need are used. -/
theorem Forest.of_length_eq_one (h : Forest f m active t) (hlen : active.length = 1) :
    ∃ r, active = [r] ∧ Forest f (10 + (presentSyms f).length) [r] t := by
  obtain ⟨r, rfl⟩ := List.length_eq_one_iff.1 hlen
  have hm : m = 10 + (presentSyms f).length := by
    have := h.count
    omega
  exact ⟨r, rfl, hm ▸ h⟩

/-- From a forest with a candidate the loop goes on to a forest with one; the ten internal ids are enough. -/
theorem forest_buildLoop {ids : List NodeId} (h : Forest f m active t) (hm : 11 ≤ m) (hne : active ≠ [])
    (hids : ids.map Fin.val = List.range' m (21 - m)) :
    ∃ r, (buildLoop ids active t).1 = [r] ∧ Forest f (10 + (presentSyms f).length) [r] (buildLoop ids active t).2 := by
  induction ids generalizing m active t with
  | nil =>
    have hm21 : 21 - m = 0 := by simpa using (congrArg List.length hids).symm
    have hK : (presentSyms f).length ≤ 11 := (List.length_filter_le _ _).trans (by simp [allSyms])
    have hpos := List.length_pos_iff.2 hne
    have hcount := h.count
    exact h.of_length_eq_one (by omega)
  | cons n ids ih =>
    obtain ⟨l, hl⟩ : ∃ l, 21 - m = l + 1 := ⟨ids.length, by simpa using (congrArg List.length hids).symm⟩
    rw [hl, List.range'_succ, List.map_cons, List.cons.injEq] at hids
    obtain ⟨hn, hids⟩ := hids
    unfold buildLoop
    split
    · next hlow => exact absurd (lowest_eq_none.1 hlow) hne
    · next a hlow =>
      have ha := (lowest_spec hlow).1
      split
      · next hlow' =>
        have hlen := congrArg List.length (lowest_eq_none.1 hlow')
        rw [List.length_erase_of_mem ha, List.length_nil] at hlen
        have hpos := List.length_pos_iff.2 hne
        exact h.of_length_eq_one (by omega)
      · next b hlow' =>
        refine ih (h.merge hm hn ha (lowest_spec hlow').1) (by omega) (by simp) ?_
        rw [hids, show 21 - (m + 1) = l by omega]

end

/-! ### The finished tree (R37, R157) -/

/-- With two or more symbols `BLD` runs the loop over their leaves, and the candidate left is the root (R154). -/
theorem buildTree_full {f : Vector Nat 11} (hK : 2 ≤ (presentSyms f).length) :
    ∃ t r, Forest f (10 + (presentSyms f).length) [r] t ∧ buildTree f Tree.reset = { t with root := some r } := by
  have hne : (presentSyms f).map leafOf ≠ [] := by
    rw [Ne, List.map_eq_nil_iff, ← List.length_eq_zero_iff]
    omega
  obtain ⟨r, hr, hforest⟩ := forest_buildLoop (forest_seed f) le_rfl hne (ids := internalIds) (by decide)
  refine ⟨_, r, hforest, ?_⟩
  simp only [buildTree]
  split
  · next h => simp [h] at hK
  · next h => simp [h] at hK
  · rw [← List.head?_singleton (a := r), ← hr]
    rfl

/-- The one root of a forest over two or more symbols is the node made last. -/
theorem Forest.root_val {f : Vector Nat 11} {r : NodeId} {t : Tree} (h : Forest f (10 + (presentSyms f).length) [r] t)
    (hK : 2 ≤ (presentSyms f).length) : r.val = 9 + (presentSyms f).length := by
  have hK11 : (presentSyms f).length ≤ 11 := (List.length_filter_le _ _).trans (by simp [allSyms])
  have h11 : 11 ≤ 9 + (presentSyms f).length := by omega
  obtain ⟨last, hlast⟩ : ∃ n : NodeId, n.val = 9 + (presentSyms f).length := ⟨⟨_, by omega⟩, rfl⟩
  have hroot : t.parent[last] = none := by
    by_contra hp
    obtain ⟨p, hp⟩ := Option.ne_none_iff_exists'.1 hp
    have hgt : last.val < p.val := h.parent_gt last p hp
    have hlt := (h.linked.parent_range last p hp).2
    omega
  have hmem : last ∈ [r] := (h.mem_active last).2 ⟨(inForest_inner (hlast ▸ h11)).2 (by omega), hroot⟩
  rw [← List.mem_singleton.1 hmem, hlast]

/-- Where every parent has the larger id, a walk from an internal node reaches the one node without parent. -/
theorem climbParents_of_parent_gt {t : Tree} {r : NodeId} (hgt : ∀ n p : NodeId, t.parent[n] = some p → n < p ∧ p ≤ r)
    {k : Nat} {n : NodeId} (hn : n ≤ r) (hparent : ∀ q : NodeId, n ≤ q → q < r → t.parent[q].isSome)
    (hk : r.val ≤ n.val + k) : climbParents t r k (some n) = some r := by
  induction k generalizing n with
  | zero =>
    obtain rfl : n = r := le_antisymm hn hk
    simp
  | succ k ih =>
    by_cases hnr : n = r
    · subst hnr; simp
    · obtain ⟨p, hp⟩ := Option.isSome_iff_exists.1 (hparent n le_rfl (lt_of_le_of_ne hn hnr))
      obtain ⟨hnp, hpr⟩ := hgt n p hp
      rw [climbParents_succ k hnr hp]
      have : n.val < p.val := hnp
      exact ih hpr (fun q hq => hparent q (hnp.le.trans hq)) (by omega)

theorem Forest.isSome_parent_iff {f : Vector Nat 11} {m : Nat} {r : NodeId} {t : Tree} (h : Forest f m [r] t) (n : NodeId) :
    t.parent[n].isSome ↔ InForest f m n ∧ n ≠ r := by
  have hmem := h.mem_active n
  rw [List.mem_singleton] at hmem
  cases hp : t.parent[n] with
  | none => simp_all
  | some p => simpa [hp, h.inForest_of_parent n p hp] using hmem

/-- The leaves of the tree are the symbols that occur. -/
theorem Forest.isSome_parent_leaf {f : Vector Nat 11} {r : NodeId} {t : Tree}
    (h : Forest f (10 + (presentSyms f).length) [r] t) (hK : 2 ≤ (presentSyms f).length) (x : Sym) :
    t.parent[leafOf x].isSome ↔ 0 < f[x] := by
  have hr := h.root_val hK
  have hx : leafOf x ≠ r := fun hx => absurd (hx ▸ leafOf_lt x) (by omega)
  rw [h.isSome_parent_iff, inForest_leaf, and_iff_left hx]

/-- The forest with one root left is a finished tree (R37). -/
theorem Forest.fullTree {f : Vector Nat 11} {r : NodeId} {t : Tree} (h : Forest f (10 + (presentSyms f).length) [r] t)
    (hK : 2 ≤ (presentSyms f).length) : FullTree { t with root := some r } r := by
  have hr := h.root_val hK
  have hrlt := r.isLt
  have hm : 10 + (presentSyms f).length = r.val + 1 := by omega
  have hkval : t.k.toNat = (presentSyms f).length := by
    rw [h.k_eq]
    exact Nat.mod_eq_of_lt (by omega)
  have hinner : ∀ n : NodeId, 11 ≤ n.val → (t.parent[n].isSome ↔ n < r) := by
    intro n hn
    rw [h.isSome_parent_iff, inForest_inner hn, hm, Nat.lt_succ_iff]
    exact (lt_iff_le_and_ne (a := n) (b := r)).symm
  have hleaf : (allSyms.filter fun s => t.parent[leafOf s].isSome) = presentSyms f := by
    refine List.filter_congr fun x _ => ?_
    rw [Bool.eq_iff_iff, h.isSome_parent_leaf hK, decide_eq_true_iff]
  have hlinked := h.linked
  rw [hm] at hlinked
  refine LinkedBelow.fullTree (k := r.val) (hlinked.congr rfl rfl) h.variant_full rfl ⟨?_, ?_⟩ ?_ ?_ hinner
    fun n h11 hn => ?_
  · rw [hkval]; exact hK
  · rw [hkval]; exact hr
  · rw [h.nextId_eq, hm]
    exact Nat.mod_eq_of_lt (by omega)
  · rw [hleaf, hkval]
  · refine (climbParents_congr (t := t) (by rfl) r r.val (some n)).trans (climbParents_of_parent_gt
      (fun q p hp => ⟨h.parent_gt q p hp, ?_⟩) hn.le (fun q hq hqr => (hinner q (h11.trans hq)).2 hqr) (Nat.le_add_left _ _))
    exact Nat.le_of_lt_succ (hlinked.parent_range q p hp).2

/-- Outside the reading phases a command without data answers 0 when there is no fault (R95). -/
theorem respond_zero {s : State} (hf : s.phase ≠ .fault) (he : s.phase ≠ .doneEnc) (hd : s.phase ≠ .doneDec)
    (hc : s.errCause = 0) : s.respond 0 = { s with rsp := 0 } := by
  have hr : respWord s 0 = 0 := by
    rw [← beq_eq_false_iff_ne] at hf he hd
    simp [respWord, faultBit, moreBit, hf, he, hd, hc]
  rw [State.respond, hr]

/-- Settles O28: the loop of `BLD` ends with a forest of one tree. -/
theorem bldBuildsAFinishedTree : Obligations.BldBuildsAFinishedTree := by
  intro s hp herr hreset hK
  obtain ⟨t, r, hforest, ht⟩ := buildTree_full hK
  have hfull := hforest.fullTree hK
  have hr := hforest.root_val hK
  obtain ⟨hk2, hk⟩ := hfull.root_val
  refine ⟨{ t with root := some r }, r, ?_, hfull, ?_, fun x => ⟨hforest.leaf_weight x, hforest.isSome_parent_leaf hK x⟩,
    hforest.node_weight, fun n hn => ?_, ?_, hforest.parent_gt⟩
  · rw [ErrWf, if_neg (by simp [hp])] at herr
    rw [exec_eq_command (by simp) (by simp), command_legal (by simp [hp]) (by simp [hp, legalIn]), ← ht, ← hreset]
    exact congrArg Host.Outcome.next (respond_zero (by simp) (by simp) (by simp) herr.1)
  · exact (Nat.add_left_cancel (hr.symm.trans hk)).symm
  · have hlt : r.val < n.val := hn
    exact hforest.unused_weight n (by omega) (by omega)
  · exact (List.sum_singleton.symm.trans hforest.total :)

end Sys2Proof.Machine

/-! ## Capacity (R65, R263 (a))

Only appends, `DEC`, `RAS`, `FIN`'s backfill and `CNT` change what `WithinCapacity` speaks of. Each of these is checked once;
every other field may change freely, since `WithinCapacity` does not look at it. -/

namespace Sys2Proof.Machine

open Sys2Proof Sys2Proof.Safety

/-! ### Lengths and capacities -/

theorem inCap_zero (cap : Option Nat) : inCap cap 0 := fun c _ => Nat.zero_le c

/-- What fits after a buffer within its capacity leaves it within its capacity: the point of the check of R65. -/
theorem inCap_add {cap : Option Nat} {len n : Nat} (h : inCap cap len) (hf : fits cap len n = true) : inCap cap (len + n) := by
  rintro c rfl
  rcases fits_some.1 hf with rfl | hle
  · exact h c rfl
  · exact hle

/-- The same for a list and the cells appended to it. -/
theorem inCap_append {α : Type} {cap : Option Nat} {l l' : List α} (h : inCap cap l.length)
    (hf : fits cap l.length l'.length = true) : inCap cap (l ++ l').length := by
  rw [List.length_append]
  exact inCap_add h hf

/-- With counts of `w` bits the symbol buffer is bounded, below the first number that needs more bits (R263 (a)). -/
theorem symbufCap_lt_of_wellFormed {c : Config} {w : Nat} (h : c.wellFormed = true) (hw : c.freqW = some w) :
    ∃ cap, c.symbufCap = some cap ∧ cap < 2 ^ w := by
  have hpos : 0 < 2 ^ w := Nat.two_pow_pos w
  cases hcap : c.symbufCap with
  | none => simp [Config.wellFormed, hw, hcap] at h
  | some cap =>
    have hle : cap ≤ 2 ^ w - 1 := by simpa [Config.wellFormed, hw, hcap] using h
    exact ⟨cap, rfl, by omega⟩

/-- A field written inside a buffer leaves its length. -/
theorem bitWrite_length {buf : List Bool} {pos n : Nat} (v : Nat) (h : pos + n ≤ buf.length) :
    (bitWrite buf pos n v).length = buf.length := by
  simp only [bitWrite, List.length_append, List.length_take, List.length_drop, natBits_length]
  omega

/-! ### One field replaced -/

section

variable {s : State} (h : WithinCapacity s)
include h

theorem withinCapacity_symbuf {S : List Sym} (hS : inCap s.cfg.symbufCap S.length) :
    WithinCapacity { s with symbuf := S } := by
  obtain ⟨hwell, -, hbit, htok, hfreq⟩ := h
  exact ⟨hwell, hS, hbit, htok, hfreq⟩

theorem withinCapacity_bitbuf {bs : List Bool} (hbs : inCap s.cfg.bitbufCap bs.length) :
    WithinCapacity { s with bitbuf := bs } := by
  obtain ⟨hwell, hsym, -, htok, hfreq⟩ := h
  exact ⟨hwell, hsym, hbs, htok, hfreq⟩

theorem withinCapacity_otok {ts : List Token} (hts : inCap s.cfg.otokCap ts.length) :
    WithinCapacity { s with otok := ts } := by
  obtain ⟨hwell, hsym, hbit, -, hfreq⟩ := h
  exact ⟨hwell, hsym, hbit, hts, hfreq⟩

/-- No symbol occurs more often than the buffer has cells, and `FREQ_W` bits count that far (R263 (a)). -/
theorem withinCapacity_counts : WithinCapacity { s with freq := countSyms s.symbuf } := by
  obtain ⟨hwell, hsym, hbit, htok, -⟩ := h
  refine ⟨hwell, hsym, hbit, htok, fun w hw x => ?_⟩
  obtain ⟨cap, hcap, hlt⟩ := symbufCap_lt_of_wellFormed hwell hw
  calc (countSyms s.symbuf)[x]
    _ = s.symbuf.count x := by simp [countSyms]
    _ ≤ s.symbuf.length := List.count_le_length
    _ ≤ cap := hsym cap hcap
    _ < 2 ^ w := hlt

theorem withinCapacity_appendSyms {syms : List Sym} (hf : fits s.cfg.symbufCap s.symbuf.length syms.length = true) :
    WithinCapacity { s with symbuf := s.symbuf ++ syms } := by
  have ⟨_, hsym, _⟩ := h
  exact withinCapacity_symbuf h (inCap_append hsym hf)

theorem withinCapacity_appendBits {bs : List Bool} (hf : fits s.cfg.bitbufCap s.bitbuf.length bs.length = true) :
    WithinCapacity { s with bitbuf := s.bitbuf ++ bs } := by
  have ⟨_, _, hbit, _⟩ := h
  exact withinCapacity_bitbuf h (inCap_append hbit hf)

/-- Empty buffers and zero counts are within every capacity. -/
theorem withinCapacity_clear : WithinCapacity s.clear := by
  obtain ⟨hwell, -⟩ := h
  refine ⟨hwell, inCap_zero _, inCap_zero _, inCap_zero _, fun w _ x => ?_⟩
  have hx : s.clear.freq[x] = 0 := by simp [State.clear, State.reset]
  rw [hx]
  exact Nat.two_pow_pos w

end

/-! ### Appends -/

section

variable {s u : State} (h : WithinCapacity s)
include h

theorem symAppend_withinCapacity {x : Sym} (hu : symAppend x s = .ok u) : WithinCapacity u := by
  obtain ⟨hf, rfl⟩ := symAppend_ok.1 hu
  exact withinCapacity_appendSyms h (syms := [x]) hf

theorem bitAppend_withinCapacity {bs : List Bool} (hu : bitAppend bs s = .ok u) : WithinCapacity u := by
  obtain ⟨hf, rfl⟩ := bitAppend_ok.1 hu
  exact withinCapacity_appendBits h hf

theorem tokDigitAppend_withinCapacity {d : Fin 10} (hu : tokDigitAppend d s = .ok u) : WithinCapacity u := by
  obtain ⟨syms, nz, -, hf, rfl⟩ := tokDigitAppend_ok hu
  exact withinCapacity_appendSyms h hf

theorem tokDigit_withinCapacity {d : Fin 10} (hu : tokDigit d s = .ok u) : WithinCapacity u := by
  unfold tokDigit at hu
  refine tokDigitAppend_withinCapacity ?_ hu
  split
  · exact h
  · exact h

theorem tokEnd_withinCapacity (hu : tokEnd s = .ok u) : WithinCapacity u := by
  unfold tokEnd at hu
  split at hu
  · cases hu
  · dsimp only at hu
    split at hu
    all_goals
      obtain ⟨v, hv, hu⟩ := bind_eq_ok.1 hu
      obtain ⟨w, hw, hu⟩ := bind_eq_ok.1 hu
      cases hu
      suffices hw' : WithinCapacity w from hw'
    · cases hv
      exact symAppend_withinCapacity h hw
    · exact symAppend_withinCapacity (symAppend_withinCapacity h hv) hw

theorem appendFields_withinCapacity {fs : List Nat} (hu : appendFields fs s = .ok u) : WithinCapacity u := by
  obtain ⟨hf, rfl⟩ := appendFields_ok hu
  have hlen : (fs.flatMap (natBits 4)).length = 4 * fs.length := by simp [List.length_flatMap, Nat.mul_comm]
  exact withinCapacity_appendBits h (hlen ▸ hf)

theorem appendCodes_withinCapacity {S : List Sym} (hu : appendCodes S s = .ok u) : WithinCapacity u := by
  obtain ⟨-, hf, rfl⟩ := appendCodes_ok hu
  exact withinCapacity_appendBits h hf

end

/-! ### What `DEC` and `RAS` put out -/

theorem decodeSingle_inCap {cap : Option Nat} {x : Option Sym} {bs : List Bool} {out S : List Sym} (hout : inCap cap out.length)
    (hS : decodeSingle cap x bs out = .ok S) : inCap cap S.length := by
  fun_induction decodeSingle cap x bs out
  case case1 => cases hS; exact hout
  case case4 y hx hf ih => exact ih (inCap_append (l' := [y]) hout hf) (hx ▸ hS)
  all_goals cases hS

theorem decodeFull_inCap {cap : Option Nat} {t : Tree} {root : NodeId} {bs : List Bool} {at? : Option NodeId} {out S : List Sym}
    (hout : inCap cap out.length) (hS : decodeFull cap t root bs at? out = .ok S) : inCap cap S.length := by
  fun_induction decodeFull cap t root bs at? out
  case case1 => cases hS; exact hout
  case case4 ih => exact ih hout hS
  case case5 y _ hf ih => exact ih (inCap_append (l' := [y]) hout hf) hS
  all_goals cases hS

theorem decodeBody_inCap {cap : Option Nat} {t : Tree} {buf : List Bool} {hdrEnd limit : Nat} {S : List Sym}
    (hS : decodeBody cap t buf hdrEnd limit = .ok S) : inCap cap S.length := by
  unfold decodeBody at hS
  split at hS
  · cases hS; exact inCap_zero cap
  · split at hS
    · cases hS; exact inCap_zero cap
    · cases hS
  · split at hS
    · cases hS
    · exact decodeSingle_inCap (out := []) (inCap_zero cap) hS
  · split at hS
    · cases hS
    · split at hS
      · cases hS
      · exact decodeFull_inCap (out := []) (inCap_zero cap) hS

theorem reassembleLoop_inCap {cap : Option Nat} {S : List Sym} {g : List (Fin 10)} {recs : List Int} {otok : List Token}
    {r : List Int × List Token} (hotok : inCap cap otok.length) (hr : reassembleLoop cap S g recs otok = .ok r) :
    inCap cap r.2.length := by
  fun_induction reassembleLoop cap S g recs otok
  case case1 => cases hr; exact hotok
  case case2 ih => exact ih hotok hr
  case case4 hf ih => exact ih (inCap_append hotok hf) hr
  all_goals cases hr

theorem reassemble_inCap {cap : Option Nat} {S : List Sym} {r : List Int × List Token} (hr : reassemble cap S = .ok r) :
    inCap cap r.2.length := by
  unfold reassemble at hr
  split at hr
  · cases hr
  · exact reassembleLoop_inCap (otok := []) (inCap_zero cap) hr

/-! ### The own rules -/

section

variable {s u : State} {d : Byte} (h : WithinCapacity s)
include h

theorem tokRule_withinCapacity {t : BitVec 4} (hr : tokRule t s = .ok (u, d)) : WithinCapacity u := by
  unfold tokRule at hr
  dsimp only at hr
  split at hr
  · cases hr
  all_goals
    obtain ⟨v, hv, hr⟩ := bind_eq_ok.1 hr
    cases hr
    suffices hv' : WithinCapacity v from hv'
  · obtain ⟨-, rfl⟩ := tokMinus_ok hv
    exact h
  · exact tokDigit_withinCapacity h hv
  · exact tokEnd_withinCapacity h hv

theorem symRule_withinCapacity {x : BitVec 4} (hr : symRule x s = .ok (u, d)) : WithinCapacity u := by
  unfold symRule at hr
  split at hr
  · cases hr
  · split at hr
    · cases hr
    · obtain ⟨v, hv, hr⟩ := bind_eq_ok.1 hr
      cases hr
      exact (symAppend_withinCapacity h hv : WithinCapacity v)

theorem serRule_withinCapacity (hr : serRule s = .ok (u, d)) : WithinCapacity u := by
  obtain ⟨fs, -, hr⟩ := bind_eq_ok.1 hr
  obtain ⟨v, hv, hr⟩ := bind_eq_ok.1 hr
  obtain ⟨w, hw, hr⟩ := bind_eq_ok.1 hr
  cases hr
  have hempty : WithinCapacity { s with bitbuf := [] } := withinCapacity_bitbuf h (inCap_zero _)
  exact (appendFields_withinCapacity (bitAppend_withinCapacity hempty hv) hw : WithinCapacity w)

theorem encRule_withinCapacity (hr : encRule s = .ok (u, d)) : WithinCapacity u := by
  obtain ⟨v, hv, hr⟩ := bind_eq_ok.1 hr
  cases hr
  exact (appendCodes_withinCapacity h hv : WithinCapacity v)

/-- The backfill of the pad-length overwrites three bits that are there (R214). -/
theorem finRule_withinCapacity (hr : finRule s = .ok (u, d)) : WithinCapacity u := by
  obtain ⟨v, hv, hr⟩ := bind_eq_ok.1 hr
  have hv' : WithinCapacity v := bitAppend_withinCapacity (s := { s with pad := padLength s.bitbuf.length }) h hv
  split at hr
  · cases hr
  · next hlen =>
    cases hr
    have ⟨_, _, hbit, _⟩ := hv'
    have hlen' : (bitWrite v.bitbuf 0 3 (padLength s.bitbuf.length)).length = v.bitbuf.length := bitWrite_length _ (by omega)
    exact withinCapacity_bitbuf hv' (hlen' ▸ hbit)

theorem bytRule_withinCapacity {b : Byte} (hr : bytRule b s = .ok (u, d)) : WithinCapacity u := by
  obtain ⟨v, hv, hr⟩ := bind_eq_ok.1 hr
  cases hr
  exact (bitAppend_withinCapacity h hv : WithinCapacity v)

theorem decRule_withinCapacity (hr : decRule s = .ok (u, d)) : WithinCapacity u := by
  obtain ⟨S, hS, rfl⟩ := decRule_ok hr
  exact withinCapacity_symbuf h (decodeBody_inCap hS)

theorem rasRule_withinCapacity (hr : rasRule s = .ok (u, d)) : WithinCapacity u := by
  obtain ⟨r, hras, rfl⟩ := rasRule_ok hr
  exact withinCapacity_otok h (reassemble_inCap hras)

theorem cntRule_withinCapacity (hr : cntRule s = .ok (u, d)) : WithinCapacity u := by
  obtain ⟨-, rfl⟩ := cntRule_ok hr
  exact withinCapacity_counts h

end

theorem withinCapacity_keptByRules : KeptByRules WithinCapacity where
  port _ _ _ h := h
  clear _ h := withinCapacity_clear h
  raise _ s h := show WithinCapacity s.clear from withinCapacity_clear h
  rule i s u d h1 h2 _ h hr := by
    cases i
    case stat | clr => contradiction
    case tok => exact tokRule_withinCapacity h hr
    case sym => exact symRule_withinCapacity h hr
    case cnt => exact cntRule_withinCapacity h hr
    case bld => obtain rfl := bldRule_ok hr; exact h
    case drv => obtain ⟨c, -, rfl⟩ := drvRule_ok hr; exact h
    case ser => exact serRule_withinCapacity h hr
    case enc => exact encRule_withinCapacity h hr
    case fin => exact finRule_withinCapacity h hr
    case byt => exact bytRule_withinCapacity h hr
    case par => obtain ⟨p, -, rfl⟩ := parRule_ok hr; exact h
    case dec => exact decRule_withinCapacity h hr
    case ras => exact rasRule_withinCapacity h hr
    case rdb => obtain ⟨-, rfl⟩ := rdbRule_ok hr; exact h
    case rdt => obtain ⟨-, rfl⟩ := rdtRule_ok hr; exact h

/-- Settles O57: an append that does not fit is a fault, and `CNT` counts a buffer whose cells `FREQ_W` bits can count. -/
theorem stepKeepsCapacity : Obligations.StepKeepsCapacity := fun _ _ h ht => withinCapacity_keptByRules.step h ht

end Sys2Proof.Machine

/-! ## Command words: the fields of a word (R90, R91, R94) -/

namespace Sys2Proof

/-- The bits of `IMM` that a format requires to be 0 (R91). -/
def immMask : Format → Byte
  | .n => BitVec.allOnes 8
  | .t => BitVec.allOnes 4 ++ 0#4
  | .b => 0

theorem word_eq_fields (w : Word) : opField w ++ rsvField w ++ immField w = w := by
  have hhigh : opField w ++ rsvField w = w.extractLsb' 8 8 := BitVec.extractLsb'_append_extractLsb'_eq_extractLsb' rfl
  rw [hhigh]
  exact BitVec.extractLsb'_append_extractLsb'

theorem immField_eq_append (w : Word) : immHiField w ++ w.extractLsb' 0 4 = immField w :=
  BitVec.extractLsb'_append_extractLsb'_eq_extractLsb' rfl

theorem bitVec_append_inj {m n : Nat} {a c : BitVec m} {b d : BitVec n} : a ++ b = c ++ d ↔ a = c ∧ b = d := by
  refine ⟨fun h => ⟨?_, ?_⟩, fun ⟨ha, hb⟩ => ha ▸ hb ▸ rfl⟩
  · simpa only [BitVec.extractLsb'_append_eq_left] using congrArg (BitVec.extractLsb' n m) h
  · simpa only [BitVec.extractLsb'_append_eq_right] using congrArg (BitVec.extractLsb' 0 n) h

theorem bitVec_and_not_of_and_eq_zero {n : Nat} {x m : BitVec n} (h : x &&& m = 0#n) : x &&& ~~~m = x := by
  calc x &&& ~~~m
    _ = x &&& m ||| x &&& ~~~m := by rw [h, BitVec.zero_or]
    _ = x := by rw [← BitVec.and_or_distrib_left, BitVec.or_not_self, BitVec.and_allOnes]

/-- Format `T` reserves the upper half of `IMM`. -/
theorem immField_and_immMask_t (w : Word) : immField w &&& immMask .t = 0 ↔ immHiField w = 0 := by
  have hsplit : immField w &&& immMask .t = immHiField w ++ 0#4 := by
    rw [← immField_eq_append, immMask, BitVec.and_append, BitVec.and_allOnes, BitVec.and_zero]
  rw [hsplit]
  exact BitVec.append_left_inj (s₂ := 0) 0#4

/-- R94 with one mask for the three formats. -/
theorem wordWellFormed_iff {w : Word} :
    wordWellFormed w = true ↔ rsvField w = 0 ∧ immField w &&& immMask (formatOf (opField w)) = 0 := by
  rw [wordWellFormed, Bool.and_eq_true, beq_iff_eq]
  refine and_congr_right fun _ => ?_
  cases formatOf (opField w) with
  | n => rw [immMask, BitVec.and_allOnes, beq_iff_eq]
  | t => rw [immField_and_immMask_t, beq_iff_eq]
  | b => simp [immMask]

/-! ## The rows of the opcode map (R93) -/

/-- The row of an opcode: the map lists the opcodes in ascending order. -/
def rowOf (op : BitVec 4) : OpcodeRow := opcodeMap[op.toNat]'op.isLt

theorem opcodeMap_eq_map_rowOf : opcodeMap = (List.finRange 16).map fun i => rowOf (BitVec.ofFin i) := rfl

theorem exists_rowOf_of_mem {r : OpcodeRow} (hr : r ∈ opcodeMap) : ∃ op, rowOf op = r := by
  obtain ⟨i, -, hi⟩ := List.mem_map.1 (opcodeMap_eq_map_rowOf ▸ hr)
  exact ⟨_, hi⟩

theorem rowOf_mem (op : BitVec 4) : rowOf op ∈ opcodeMap := List.getElem_mem _

/-- A row's mask is every bit of a word but its operand, and its pattern is its opcode. -/
theorem rowOf_mask_pattern (op : BitVec 4) :
    (rowOf op).mask = BitVec.allOnes 4 ++ BitVec.allOnes 4 ++ immMask (formatOf op) ∧
      (rowOf op).pattern = op ++ 0#4 ++ 0#8 := by
  revert op; decide

/-- A word selects the row of its own opcode when it is well formed, and no other row. -/
theorem selects_rowOf_iff {w : Word} {op : BitVec 4} :
    (w &&& (rowOf op).mask == (rowOf op).pattern) = true ↔ opField w = op ∧ wordWellFormed w = true := by
  obtain ⟨hmask, hpattern⟩ := rowOf_mask_pattern op
  have hand : w &&& (rowOf op).mask = opField w ++ rsvField w ++ (immField w &&& immMask (formatOf op)) := by
    conv_lhs => rw [← word_eq_fields w, hmask, BitVec.and_append, BitVec.and_append, BitVec.and_allOnes, BitVec.and_allOnes]
  rw [beq_iff_eq, hand, hpattern, bitVec_append_inj, bitVec_append_inj, and_assoc, wordWellFormed_iff]
  exact and_congr_right fun hop => hop ▸ Iff.rfl

theorem not_selects_of_illFormed {w : Word} (h : wordWellFormed w = false) {r : OpcodeRow} (hr : r ∈ opcodeMap) :
    ¬ (w &&& r.mask == r.pattern) = true := by
  obtain ⟨op, rfl⟩ := exists_rowOf_of_mem hr
  exact fun hselect => Bool.false_ne_true (h.symm.trans (selects_rowOf_iff.1 hselect).2)

/-- Settles O3: the map has one row per opcode, and a word can only select the row of its own. -/
theorem opcodeMapSelectsOneRow : Obligations.OpcodeMapSelectsOneRow := by
  intro w
  rw [← List.countP_eq_length_filter, opcodeMap_eq_map_rowOf, List.countP_map]
  cases h : wordWellFormed w with
  | false => exact List.countP_eq_zero.2 fun i _ => not_selects_of_illFormed h (rowOf_mem _)
  | true =>
    calc (List.finRange 16).countP ((fun r => w &&& r.mask == r.pattern) ∘ fun i => rowOf (BitVec.ofFin i))
      _ = (List.finRange 16).count (opField w).toFin := by
        refine List.countP_congr fun i _ => selects_rowOf_iff.trans ?_
        rw [and_iff_left h, ← BitVec.toFin_inj, beq_iff_eq, eq_comm]
      _ = 1 := List.count_eq_one_of_mem (List.nodup_finRange 16) (List.mem_finRange _)

/-! ## The decoder (R93, R94) -/

theorem decode_of_wellFormed {w : Word} (h : wordWellFormed w = true) : decode w = .ok ((rowOf (opField w)).build w) := by
  unfold decode
  split
  · next r hr =>
    have hselect : (w &&& r.mask == r.pattern) = true := List.find?_some (p := fun r : OpcodeRow => w &&& r.mask == r.pattern) hr
    obtain ⟨op, rfl⟩ := exists_rowOf_of_mem (List.mem_of_find?_eq_some hr)
    rw [(selects_rowOf_iff.1 hselect).1]
  · next hnone => exact absurd (selects_rowOf_iff.2 ⟨rfl, h⟩) (List.find?_eq_none.1 hnone _ (rowOf_mem (opField w)))

theorem decode_of_illFormed {w : Word} (h : wordWellFormed w = false) : decode w = .error .reservedBits := by
  have hnone : opcodeMap.find? (fun r => w &&& r.mask == r.pattern) = none :=
    List.find?_eq_none.2 fun _ => not_selects_of_illFormed h
  rw [decode, hnone]

/-! ## The encoder (R90, R91, R97) -/

/-- The encoder writes only well-formed words, each with its command's opcode. -/
theorem wordWellFormed_opField_encode (i : Instr) : wordWellFormed (encode i) = true ∧ opField (encode i) = opcodeOf i := by
  cases i with
  | stat => exact Laws.Encodes.stat
  | clr => exact Laws.Encodes.clr
  | tok t => exact Laws.Encodes.tok t
  | sym s => exact Laws.Encodes.sym s
  | cnt => exact Laws.Encodes.cnt
  | bld => exact Laws.Encodes.bld
  | drv => exact Laws.Encodes.drv
  | ser => exact Laws.Encodes.ser
  | enc => exact Laws.Encodes.enc
  | fin => exact Laws.Encodes.fin
  | byt b => exact Laws.Encodes.byt b
  | par => exact Laws.Encodes.par
  | dec => exact Laws.Encodes.dec
  | ras => exact Laws.Encodes.ras
  | rdb => exact Laws.Encodes.rdb
  | rdt => exact Laws.Encodes.rdt

/-- The row of a command's opcode reads the command back from its word: the operand is the low end of the word. -/
theorem rowOf_build_encode (i : Instr) : (rowOf (opcodeOf i)).build (encode i) = i := by
  have hlow (op t : BitVec 4) : (op ++ 0#4 ++ (0#4 ++ t)).extractLsb' 0 4 = t := by
    rw [BitVec.extractLsb'_append_eq_of_add_le (by decide), BitVec.extractLsb'_append_eq_right]
  cases i
  case tok t => exact congrArg Instr.tok (hlow _ t)
  case sym x => exact congrArg Instr.sym (hlow _ x)
  case byt b => exact congrArg Instr.byt BitVec.extractLsb'_append_eq_right
  all_goals rfl

/-- Settles O1: the word of a command selects the row of its opcode, which reads the operand back. -/
theorem decodeInvertsEncode : Obligations.DecodeInvertsEncode := by
  intro i
  obtain ⟨hwf, hop⟩ := wordWellFormed_opField_encode i
  rw [decode_of_wellFormed hwf, hop, rowOf_build_encode]

/-- A row builds the command of its opcode, with the bits of `IMM` that its format does not reserve as the operand. -/
theorem opcodeOf_operandOf_build (op : BitVec 4) (w : Word) :
    opcodeOf ((rowOf op).build w) = op ∧ operandOf ((rowOf op).build w) = immField w &&& ~~~immMask (formatOf op) := by
  have hn : 0 = immField w &&& ~~~immMask .n := by
    rw [immMask, BitVec.not_allOnes, BitVec.and_zero]; rfl
  have ht : 0#4 ++ w.extractLsb' 0 4 = immField w &&& ~~~immMask .t := by
    rw [← immField_eq_append, immMask, BitVec.not_append, BitVec.and_append, BitVec.not_allOnes, BitVec.and_zero,
      BitVec.not_zero, BitVec.and_allOnes]
  have hb : immField w = immField w &&& ~~~immMask .b := BitVec.and_allOnes.symm
  obtain ⟨i⟩ := op
  fin_cases i
  exacts [⟨rfl, hn⟩, ⟨rfl, hn⟩, ⟨rfl, ht⟩, ⟨rfl, ht⟩, ⟨rfl, hn⟩, ⟨rfl, hn⟩, ⟨rfl, hn⟩, ⟨rfl, hn⟩, ⟨rfl, hn⟩, ⟨rfl, hn⟩,
    ⟨rfl, hb⟩, ⟨rfl, hn⟩, ⟨rfl, hn⟩, ⟨rfl, hn⟩, ⟨rfl, hn⟩, ⟨rfl, hn⟩]

theorem encode_rowOf_build {w : Word} (h : wordWellFormed w = true) : encode ((rowOf (opField w)).build w) = w := by
  obtain ⟨hrsv, himm⟩ := wordWellFormed_iff.1 h
  obtain ⟨hop, hoperand⟩ := opcodeOf_operandOf_build (opField w) w
  have hw := word_eq_fields w
  rw [hrsv] at hw
  rw [encode, hop, hoperand, bitVec_and_not_of_and_eq_zero himm]
  exact hw

/-- Settles O2: a well-formed word is the word of the command its row builds, and an ill-formed word selects no row. -/
theorem decodeAcceptsExactlyTheWellFormedWords : Obligations.DecodeAcceptsExactlyTheWellFormedWords := fun _ =>
  ⟨fun h => ⟨_, decode_of_wellFormed h, encode_rowOf_build h⟩, decode_of_illFormed⟩

/-- Settles O4: the operand fills the low byte, and `RSV` adds nothing. -/
theorem wordIsOpcodeTimes4096PlusOperand : Obligations.WordIsOpcodeTimes4096PlusOperand := by
  intro i
  have himm := (operandOf i).isLt
  rw [encode, BitVec.toNat_append, BitVec.toNat_append, ← Nat.shiftLeft_add_eq_or_of_lt himm, BitVec.toNat_ofNat,
    Nat.zero_mod, Nat.or_zero, Nat.shiftLeft_eq, Nat.shiftLeft_eq]
  omega

/-- Settles O5: each word is looked up in the map. -/
theorem specWordsDecode : Obligations.SpecWordsDecode := by
  unfold Obligations.SpecWordsDecode
  decide

end Sys2Proof

/-! ## The response to each command (R95) -/

namespace Sys2Proof.Machine

open Sys2Proof

theorem toNat_decide_mul (p : Prop) [Decidable p] (n : Nat) : (decide p).toNat * n = if p then n else 0 := by
  by_cases hp : p <;> simp [hp]

/-- The status bits of R95, each by its condition on the state. -/
theorem respond_rsp_toNat (s : State) (d : Byte) :
    (s.respond d).rsp.toNat = (if s.phase = .fault then 0x8000 else 0) +
      (if (s.phase = .doneEnc ∧ s.ord < s.bitbuf.length / 8) ∨ (s.phase = .doneDec ∧ s.ord < s.otok.length) then 0x4000 else 0) +
      s.errCause.toNat * 2048 + d.toNat := by
  have hfault : faultBit s = decide (s.phase = .fault) := rfl
  have hmore : moreBit s = decide
      ((s.phase = .doneEnc ∧ s.ord < s.bitbuf.length / 8) ∨ (s.phase = .doneDec ∧ s.ord < s.otok.length)) := by
    simp [moreBit, Bool.beq_eq_decide_eq]
  rw [State.respond_rsp, respWord_toNat, hfault, hmore, toNat_decide_mul, toNat_decide_mul]

theorem toNat_zero_append_nibble (x : BitVec 4) : (0#4 ++ x).toNat = x.toNat := by
  rw [BitVec.toNat_append, BitVec.toNat_ofNat, Nat.zero_mod, Nat.zero_shiftLeft, Nat.zero_or]

theorem byteAt_toNat (buf : List Bool) (i : Nat) : (byteAt buf i).toNat = bitRead buf (8 * i) 8 := by
  rw [byteAt, BitVec.toNat_ofNat, Nat.mod_eq_of_lt (bitRead_lt _ _ _)]

/-- `DETAIL * 16 + PHASE` (R250). -/
theorem statData_toNat (s : State) : (statData s).toNat = s.errDetail.toNat * 16 + (phaseCode s.phase).toNat := by
  rw [statData, BitVec.toNat_append, ← Nat.shiftLeft_add_eq_or_of_lt (phaseCode s.phase).isLt, Nat.shiftLeft_eq]

theorem rdbRule_data {s u : State} {d : Byte} (h : rdbRule s = .ok (u, d)) : d = byteAt u.bitbuf s.ord := by
  unfold rdbRule at h
  split at h
  · cases h
  · cases h; rfl

theorem rdtRule_data {s u : State} {d : Byte} (h : rdtRule s = .ok (u, d)) :
    ∃ k, u.otok[s.ord]? = some k ∧ d = 0#4 ++ tokenCode k := by
  unfold rdtRule at h
  split at h
  · cases h
  · next k hk => cases h; exact ⟨k, hk, rfl⟩

/-- The commands other than `STAT`, `RDB` and `RDT` have the data result 0. -/
theorem ruleOf_data_eq_zero {i : Instr} {s u : State} {d : Byte} (h1 : i ≠ .stat) (h2 : i ≠ .rdb) (h3 : i ≠ .rdt)
    (h : ruleOf i s = .ok (u, d)) : d = 0 := by
  cases i
  case stat | rdb | rdt => contradiction
  case clr | bld => cases h; rfl
  case ser =>
    obtain ⟨_, -, h⟩ := bind_eq_ok.1 h
    obtain ⟨_, -, h⟩ := bind_eq_ok.1 h
    obtain ⟨_, -, h⟩ := bind_eq_ok.1 h
    cases h; rfl
  case enc | byt =>
    obtain ⟨_, -, h⟩ := bind_eq_ok.1 h
    cases h; rfl
  case fin =>
    obtain ⟨_, -, h⟩ := bind_eq_ok.1 h
    split at h
    · cases h
    · cases h; rfl
  case cnt | drv | par | dec | ras =>
    simp only [ruleOf, cntRule, drvRule, parRule, decRule, rasRule] at h
    split at h
    · cases h
    · cases h; rfl
  case sym =>
    simp only [ruleOf, symRule] at h
    split at h
    · cases h
    · split at h
      · cases h
      · obtain ⟨_, -, h⟩ := bind_eq_ok.1 h
        cases h; rfl
  case tok =>
    simp only [ruleOf, tokRule] at h
    split at h
    · cases h
    all_goals
      obtain ⟨_, -, h⟩ := bind_eq_ok.1 h
      cases h; rfl

/-- A command answers 0 in `FAULT`, and elsewhere the data result of its own rule. -/
theorem exec_next_respond {i : Instr} {s t : State} (h1 : i ≠ .stat) (h : exec i s = .next t) :
    ∃ u d, t = u.respond d ∧ (u.phase = .fault ∧ d = 0 ∨ u.phase ≠ .fault ∧ ruleOf i s = .ok (u, d)) := by
  by_cases h2 : i = .clr
  · subst h2; cases h
    exact ⟨s.clear, 0, rfl, .inr ⟨by simp [State.reset], rfl⟩⟩
  rw [exec_eq_command h1 h2] at h
  rcases command_next h with ⟨hf, rfl⟩ | ⟨-, hl, u, d, hr, rfl⟩ | ⟨-, e, rfl, -⟩
  · exact ⟨s, 0, rfl, .inl ⟨hf, rfl⟩⟩
  · obtain ⟨hp, -⟩ := ruleOf_frame h1 h2 hl hr
    exact ⟨u, d, rfl, .inr ⟨(ne_fault_of_mem_phaseTable hp).2, hr⟩⟩
  · exact ⟨_, 0, rfl, .inl ⟨rfl, rfl⟩⟩

/-- Settles O18: the response is `respWord` of the state after, and its data result is the own rule's. -/
theorem responseWordTellsTheStateAfter : Obligations.ResponseWordTellsTheStateAfter := by
  intro i s t h
  by_cases h1 : i = .stat
  · subst h1; cases h
    exact ⟨_, (statData s).isLt, respond_rsp_toNat s _, fun _ => statData_toNat s, nofun, nofun, fun hne => absurd rfl hne⟩
  obtain ⟨u, d, rfl, ⟨hf, rfl⟩ | ⟨hf, hr⟩⟩ := exec_next_respond h1 h
  · exact ⟨_, (0 : Byte).isLt, respond_rsp_toNat u 0, fun hi => absurd hi h1, fun _ hn => absurd hf hn, fun _ hn => absurd hf hn,
      fun _ _ => rfl⟩
  refine ⟨_, d.isLt, respond_rsp_toNat u d, fun hi => absurd hi h1, ?_, ?_, ?_⟩
  · rintro rfl -
    rw [rdbRule_data hr, byteAt_toNat, State.respond_bitbuf]
  · rintro rfl -
    obtain ⟨k, hk, rfl⟩ := rdtRule_data hr
    exact ⟨k, hk, toNat_zero_append_nibble _⟩
  · rintro - (⟨h2, h3⟩ | hfault)
    · rw [ruleOf_data_eq_zero h1 h2 h3 hr]; rfl
    · exact absurd hfault hf

end Sys2Proof.Machine

/-! ## Command words with a nibble operand, and the head of a rule (R22, R90, R91, R93) -/

namespace Sys2Proof.Machine

open Sys2Proof Sys2Proof.Safety

/-- The word of a command whose operand is the low nibble of `IMM`: the opcode's word plus the operand. -/
theorem encode_of_nibble {i : Instr} {c : Word} {x : BitVec 4} (hop : c.toNat = (opcodeOf i).toNat * 4096)
    (hx : operandOf i = 0#4 ++ x) : encode i = c + x.setWidth 16 := by
  have hop_lt := (opcodeOf i).isLt
  have hx_lt := x.isLt
  refine BitVec.eq_of_toNat_eq ?_
  rw [wordIsOpcodeTimes4096PlusOperand i, hx, toNat_zero_append_nibble, BitVec.toNat_add, hop, BitVec.toNat_setWidth]
  omega

theorem encode_tok (t : BitVec 4) : encode (.tok t) = 0x2000 + t.setWidth 16 := encode_of_nibble (by simp [opcodeOf]) rfl

theorem encode_sym (x : BitVec 4) : encode (.sym x) = 0x3000 + x.setWidth 16 := encode_of_nibble (by simp [opcodeOf]) rfl

/-- The word a rule's head names is the one the encoder writes, and its phases are those of the table. -/
theorem ruleHead_of_encode {i : Instr} {w : Word} (h1 : i ≠ .stat) (h2 : i ≠ .clr) (hw : encode i = w) :
    RuleHead i w ((phaseTable i).map Prod.fst) :=
  ⟨hw ▸ decodeInvertsEncode i, fun s hf hp => wrongPhaseRaisesSequenceError i s h1 h2 hf hp⟩

end Sys2Proof.Machine

/-! ## Command sequences in `FAULT` (R281) -/

namespace Sys2Proof.Machine

open Sys2Proof Sys2Proof.Safety

/-- The faulted state already carries the response a later command gives. -/
theorem faulted_respond (e : ErrCode) (s : State) : (faulted e s).respond 0 = faulted e s := by
  rw [← raise_eq_faulted]; rfl

/-- Commands other than `STAT` and `CLR` leave a faulted state as it is. -/
theorem execAll_faulted {is : List Instr} (h : ∀ i ∈ is, i ≠ .stat ∧ i ≠ .clr) (e : ErrCode) (s : State) :
    execAll is (faulted e s) = .next (faulted e s) := by
  induction is with
  | nil => rfl
  | cons i is ih =>
    obtain ⟨⟨h1, h2⟩, htail⟩ := List.forall_mem_cons.1 h
    rw [execAll, exec_eq_command h1 h2, command_in_fault rfl, faulted_respond]
    exact ih htail

theorem execAll_cons_of_next {i : Instr} {is : List Instr} {s t : State} (h : exec i s = .next t) :
    execAll (i :: is) s = execAll is t := by
  rw [execAll, h]

/-- A command that appends `m` symbols or faults, then commands that append `n` more or fault: together they append `m + n` symbols
or fault. -/
theorem execAll_cons_symbufFull {i : Instr} {is : List Instr} {s t u : State} {m n : Nat}
    (hfirst : exec i s = .next (if fits s.cfg.symbufCap s.symbuf.length m then t else faulted .symbufFull s))
    (hrest : execAll is t = .next (if fits t.cfg.symbufCap t.symbuf.length n then u else faulted .symbufFull t))
    (his : ∀ j ∈ is, j ≠ .stat ∧ j ≠ .clr) (hlen : t.symbuf.length = s.symbuf.length + m) (hcfg : t.cfg = s.cfg)
    (hinbox : t.inbox = s.inbox) :
    execAll (i :: is) s =
      .next (if fits s.cfg.symbufCap s.symbuf.length (m + n) then u else faulted .symbufFull s) := by
  rw [execAll_cons_of_next hfirst]
  by_cases hm : fits s.cfg.symbufCap s.symbuf.length m = true
  · have hfault : faulted .symbufFull t = faulted .symbufFull s := by rw [faulted, hcfg, hinbox, faulted]
    rw [if_pos hm, hrest, hlen, hcfg, hfault]
    simp only [fits_add, hm, true_and]
  · rw [if_neg hm, execAll_faulted his, if_neg fun hmn => hm (fits_add.1 hmn).1]

end Sys2Proof.Machine

/-! ## The record front end (R133, R136) -/

namespace Sys2Proof.Machine

open Sys2Proof Sys2Proof.Safety

/-! ### Appends with their capacity check (R65) -/

/-- What follows an append sees the symbol in the buffer, or does not run. -/
theorem symAppend_bind {α : Type} (x : Sym) (s : State) (k : State → Except Stop α) :
    (symAppend x s >>= k) = if fits s.cfg.symbufCap s.symbuf.length 1 then k { s with symbuf := s.symbuf ++ [x] }
      else .error (.raise .symbufFull) := by
  unfold symAppend
  split <;> rfl

/-- Two checks of one cell each, with the same fault, are one check of two. -/
theorem ite_fits_one_one {α : Type} (cap : Option Nat) (len : Nat) (a b : α) :
    (if fits cap len 1 then (if fits cap (len + 1) 1 then a else b) else b) = if fits cap len 2 then a else b := by
  by_cases h : fits cap len 1 = true <;> simp [h, fits_add (m := 1) (n := 1)]

/-! ### One command in its legal phases -/

section

variable {s u : State}

/-- In `IDLE` and `INGEST` a command that is legal there runs its own rule. -/
theorem exec_front {i : Instr} (hp : s.phase = .idle ∨ s.phase = .ingest) (h1 : i ≠ .stat) (h2 : i ≠ .clr)
    (hi : (phaseTable i).map Prod.fst = [.idle, .ingest]) : exec i s = answer (ruleOf i s) s := by
  rw [exec_eq_command h1 h2]
  refine command_legal (by rintro hf; simp [hf] at hp) ((legalIn_iff h1 h2).2 ?_)
  simpa [hi] using hp

theorem exec_tok_front (hp : s.phase = .idle ∨ s.phase = .ingest) (t : BitVec 4) :
    exec (.tok t) s = answer (tokRule t s) s := exec_front hp nofun nofun rfl

theorem exec_sym_front (hp : s.phase = .idle ∨ s.phase = .ingest) (x : BitVec 4) :
    exec (.sym x) s = answer (symRule x s) s := exec_front hp nofun nofun rfl

theorem answer_raise (e : ErrCode) : answer (.error (.raise e)) s = .next (faulted e s) :=
  congrArg Host.Outcome.next (raise_eq_faulted e s)

/-- `ERR` is 0 outside `FAULT` (R24). -/
theorem err_zero_of_front (hp : s.phase = .idle ∨ s.phase = .ingest) (herr : ErrWf s) :
    s.errCause = 0 ∧ s.errDetail = 0 := by
  have hf : s.phase ≠ .fault := by rintro hf; simp [hf] at hp
  rwa [ErrWf, if_neg hf] at herr

/-- A rule that ends in `INGEST` answers 0 (R95). -/
theorem answer_ingest (hu : u.errCause = 0) :
    answer (.ok ({ u with phase := .ingest }, 0)) s = .next { u with phase := .ingest, rsp := 0 } :=
  congrArg Host.Outcome.next (respond_zero nofun nofun nofun hu)

/-- The last lines of `TOK` and `SYM` after an append of `n` symbols that gave `u` or did not fit. -/
theorem answer_append_ingest (hs : s.errCause = 0) (hu : u.errCause = s.errCause) (n : Nat) :
    answer ((if fits s.cfg.symbufCap s.symbuf.length n then Except.ok u else .error (.raise .symbufFull)) >>= fun v =>
        .ok ({ v with phase := .ingest }, 0)) s =
      .next (if fits s.cfg.symbufCap s.symbuf.length n then { u with phase := .ingest, rsp := 0 }
        else faulted .symbufFull s) := by
  split
  · exact answer_ingest (hu.trans hs)
  · exact answer_raise _

end

/-! ### Operands (R92, R100, R101) -/

theorem tokenOperand_digit (d : Fin 10) : tokenOperand (BitVec.ofNat 4 d.val) = some (.digit d) := by
  revert d; decide

theorem tokenOperand_eq_none {t : BitVec 4} (h : 12 ≤ t.toNat) : tokenOperand t = none := by
  revert t; decide

theorem symOperand_sym (x : Sym) : symOperand (BitVec.ofNat 4 x.val) = some x := by
  revert x; decide

theorem symOperand_eq_none {x : BitVec 4} (h : 11 ≤ x.toNat) : symOperand x = none := dif_neg (by omega)

/-! ### `TOK` and `SYM` by their operand -/

theorem tokRule_digit (d : Fin 10) (s : State) :
    tokRule (BitVec.ofNat 4 d.val) s = tokDigit d s >>= fun v => .ok ({ v with phase := .ingest }, 0) := by
  rw [tokRule, tokenOperand_digit]

theorem tokRule_end (s : State) : tokRule 10 s = tokEnd s >>= fun v => .ok ({ v with phase := .ingest }, 0) := rfl

theorem tokRule_minus (s : State) : tokRule 11 s = tokMinus s >>= fun v => .ok ({ v with phase := .ingest }, 0) := rfl

theorem tokRule_bad {t : BitVec 4} (h : 12 ≤ t.toNat) (s : State) : tokRule t s = .error (.raise .badToken) := by
  rw [tokRule, tokenOperand_eq_none h]; rfl

theorem symRule_sym {s : State} (ho : s.recOpen = false) (x : Sym) :
    symRule (BitVec.ofNat 4 x.val) s = symAppend x s >>= fun v => .ok ({ v with phase := .ingest }, 0) := by
  simp only [symRule, ho, symOperand_sym, Bool.false_eq_true, if_false]

/-! ### The symbols of a digit -/

/-- After a non-zero digit every digit is itself. -/
theorem digitSymbols_of_recNz {s : State} (h : (s.recOpen && s.recNz) = true) (d : Fin 10) :
    digitSymbols s d = [symOfDigit d] := if_pos (by simpa using h)

theorem digitSymbols_leading_zero {s : State} (h : (s.recOpen && s.recNz) = false) : digitSymbols s 0 = [] := by
  rw [digitSymbols, if_neg (by simpa using h), if_pos rfl]

/-- The first non-zero digit of a record, with the sign marker if the record is negative. -/
theorem digitSymbols_first {s : State} (h : (s.recOpen && s.recNz) = false) {d : Fin 10} (hd : d ≠ 0) :
    digitSymbols s d = (if s.recOpen && s.recNeg then [0] else []) ++ [symOfDigit d] := by
  rw [digitSymbols, if_neg (by simpa using h), if_neg hd]
  by_cases hneg : (s.recOpen && s.recNeg) = true
  · rw [if_pos hneg, if_pos (by simpa using hneg)]; rfl
  · rw [if_neg hneg, if_neg (by simpa using hneg)]; rfl

/-! ### The token rules with their capacity check -/

/-- A digit, after the flags of its record are set up: the ways of R133 to append, and the flag for a non-zero digit. -/
theorem tokDigitAppend_eq (d : Fin 10) {s : State} (ho : s.recOpen = true) :
    tokDigitAppend d s = if fits s.cfg.symbufCap s.symbuf.length (digitSymbols s d).length then
      .ok { s with symbuf := s.symbuf ++ digitSymbols s d, recNz := s.recNz || d != 0 }
      else .error (.raise .symbufFull) := by
  by_cases hnz : s.recNz = true
  case pos =>
    rw [digitSymbols_of_recNz (by simp [ho, hnz])]
    simp [tokDigitAppend, symAppend, hnz]
  have hleading : (s.recOpen && s.recNz) = false := by simp [hnz]
  by_cases hd : d = 0
  case pos =>
    have hflag : (s.recNz || d != 0) = s.recNz := by simp [hd]
    rw [hflag, hd, digitSymbols_leading_zero hleading, List.append_nil, tokDigitAppend, if_pos ⟨rfl, by simpa using hnz⟩]
    exact (if_pos (fits_zero _ _)).symm
  have hflag : (s.recNz || d != 0) = true := by simp [hd]
  rw [tokDigitAppend, if_neg fun h => hd h.1, if_neg hnz, digitSymbols_first hleading hd, hflag]
  have hsign : (s.recOpen && s.recNeg) = s.recNeg := by simp [ho]
  rw [hsign]
  by_cases hneg : s.recNeg = true
  · rw [if_pos hneg, if_pos hneg, symAppend_bind]
    simp [symAppend, ite_fits_one_one]
  · rw [if_neg hneg, if_neg hneg]
    rfl

/-- The record flags set up for a digit: a record that is not open is begun without sign (R133). -/
def inRecord (s : State) : State :=
  { s with recOpen := true, recNeg := s.recOpen && s.recNeg, recNd := true, recNz := s.recOpen && s.recNz }

theorem tokDigit_eq_tokDigitAppend (d : Fin 10) (s : State) : tokDigit d s = tokDigitAppend d (inRecord s) := by
  cases ho : s.recOpen <;> simp [tokDigit, inRecord, openRecFlags, ho]

theorem digitSymbols_inRecord (s : State) (d : Fin 10) : digitSymbols (inRecord s) d = digitSymbols s d := by
  simp [digitSymbols, inRecord]

/-- A digit opens the record where none is open (R133). -/
theorem tokDigit_eq (d : Fin 10) (s : State) :
    tokDigit d s = if fits s.cfg.symbufCap s.symbuf.length (digitSymbols s d).length then
      .ok { inRecord s with symbuf := s.symbuf ++ digitSymbols s d, recNz := (s.recOpen && s.recNz) || d != 0 }
      else .error (.raise .symbufFull) := by
  rw [tokDigit_eq_tokDigitAppend, tokDigitAppend_eq d rfl, digitSymbols_inRecord]
  rfl

/-- `END` of a record with a digit (R133). -/
theorem tokEnd_eq {s : State} (ho : s.recOpen = true) (hnd : s.recNd = true) :
    tokEnd s = if fits s.cfg.symbufCap s.symbuf.length (if s.recNz then 1 else 2) then
      .ok (clearRecFlags { s with symbuf := s.symbuf ++ if s.recNz then [Sym.sep] else [0, Sym.sep] })
      else .error (.raise .symbufFull) := by
  have hopen : ¬(s.recOpen = false ∨ s.recNd = false) := by simp [ho, hnd]
  rw [tokEnd, if_neg hopen]
  by_cases hnz : s.recNz = true
  · rw [if_pos hnz, if_pos hnz, if_pos hnz]
    exact symAppend_bind _ _ _
  · rw [if_neg hnz, if_neg hnz, if_neg hnz]
    simp [symAppend_bind, ite_fits_one_one]

/-! ### The statements on one command -/

/-- Settles O19: `MINUS` opens the record and appends nothing. -/
theorem tokMinusOpensANegativeRecord : Obligations.TokMinusOpensANegativeRecord := by
  intro s hp herr ho
  have hrule : tokMinus s = .ok (openRecFlags true s) := if_neg (by simp [ho])
  rw [exec_tok_front hp, tokRule_minus, hrule]
  exact answer_ingest (u := openRecFlags true s) (err_zero_of_front hp herr).1

/-- Settles O20: the digit's own rule, then the shared last line of `TOK`. -/
theorem tokDigitAppendsItsSymbols : Obligations.TokDigitAppendsItsSymbols := by
  intro s d hp herr
  rw [exec_tok_front hp, tokRule_digit, tokDigit_eq]
  exact answer_append_ingest (err_zero_of_front hp herr).1 (by rfl) _

/-- Settles O21: the rule of `END`, then the shared last line of `TOK`. -/
theorem tokEndClosesTheRecord : Obligations.TokEndClosesTheRecord := by
  intro s hp herr ho hnd
  rw [exec_tok_front hp, tokRule_end, tokEnd_eq ho hnd]
  exact answer_append_ingest (err_zero_of_front hp herr).1 (by rfl) _

/-- Settles O22: the three ways through the rule of `SYM`, in the order of its checks. -/
theorem symAppendsOneSymbol : Obligations.SymAppendsOneSymbol := by
  refine ⟨fun x => ruleHead_of_encode nofun nofun (encode_sym x), fun s hp herr => ⟨?_, ?_, ?_⟩⟩
  · intro ho x
    rw [exec_sym_front hp, symRule, if_pos ho, answer_raise]
  · intro ho x hx
    rw [exec_sym_front hp, symRule, if_neg (by simp [ho]), symOperand_eq_none hx]
    exact answer_raise _
  · intro ho x
    rw [exec_sym_front hp, symRule_sym ho, symAppend]
    exact answer_append_ingest (err_zero_of_front hp herr).1 (by rfl) _

/-- Settles O23: each fault of `TOK` is raised before anything is appended. -/
theorem tokFaults : Obligations.TokFaults := by
  refine ⟨fun t => ruleHead_of_encode nofun nofun (encode_tok t), fun s hp => ⟨?_, ?_, ?_⟩⟩
  · intro t ht
    rw [exec_tok_front hp, tokRule_bad ht, answer_raise]
  · intro ho
    rw [exec_tok_front hp, tokRule_minus, tokMinus, if_pos ho]
    exact answer_raise _
  · intro hnd
    rw [exec_tok_front hp, tokRule_end, tokEnd, if_pos hnd]
    exact answer_raise _

/-! ### A whole record (R134) -/

/-- The state `MINUS` leaves where no record is open. -/
def afterMinus (s : State) : State := { openRecFlags true s with phase := .ingest, rsp := 0 }

/-- The state a digit leaves when its symbols fit. -/
def afterDigit (d : Fin 10) (s : State) : State :=
  { s with
    symbuf := s.symbuf ++ digitSymbols s d
    recOpen := true
    recNeg := s.recOpen && s.recNeg
    recNd := true
    recNz := (s.recOpen && s.recNz) || d != 0
    phase := .ingest
    rsp := 0 }

/-- The symbols that the rest of a record's digits and its `END` append. -/
def restSymbols : List (Fin 10) → State → List Sym
  | [], s => if s.recNz then [Sym.sep] else [0, Sym.sep]
  | d :: ds, s => digitSymbols s d ++ restSymbols ds (afterDigit d s)

/-- The state after a record that appended `syms`. -/
def recordClosed (syms : List Sym) (s : State) : State :=
  { s with
    symbuf := s.symbuf ++ syms
    recOpen := false
    recNeg := false
    recNd := false
    recNz := false
    phase := .ingest
    rsp := 0 }

/-- The commands of the rest of a record: digits, then `END`. -/
def restCommands (ds : List (Fin 10)) : List Instr := ds.map (fun d => .tok (BitVec.ofNat 4 d.val)) ++ [.tok 10]

theorem restCommands_ne {ds : List (Fin 10)} : ∀ i ∈ restCommands ds, i ≠ .stat ∧ i ≠ .clr := by
  intro i hi
  obtain ⟨d, -, rfl⟩ | rfl : (∃ d ∈ ds, Instr.tok (BitVec.ofNat 4 d.val) = i) ∨ i = .tok 10 := by
    simpa [restCommands] using hi
  · exact ⟨nofun, nofun⟩
  · exact ⟨nofun, nofun⟩

/-- A record as text is the optional `MINUS`, then the rest of the record. -/
theorem textCommands_eq (neg : Bool) (ds : List (Fin 10)) :
    textCommands (neg, ds) = (if neg then [.tok 11] else []) ++ restCommands ds := List.append_assoc _ _ _

theorem recordClosed_afterDigit (d : Fin 10) (syms : List Sym) (s : State) :
    recordClosed syms (afterDigit d s) = recordClosed (digitSymbols s d ++ syms) s := by
  simp [recordClosed, afterDigit]

/-- Digits and `END` append the symbols of the digits one after the other, if all fit. The record is open with a digit, or a digit
is to come. -/
theorem execAll_restCommands {ds : List (Fin 10)} {s : State} (hp : s.phase = .idle ∨ s.phase = .ingest) (herr : ErrWf s)
    (hds : s.recOpen = true ∧ s.recNd = true ∨ ds ≠ []) :
    execAll (restCommands ds) s = .next (if fits s.cfg.symbufCap s.symbuf.length (restSymbols ds s).length then
      recordClosed (restSymbols ds s) s else faulted .symbufFull s) := by
  induction ds generalizing s with
  | nil =>
    obtain ⟨ho, hnd⟩ : s.recOpen = true ∧ s.recNd = true := by simpa using hds
    have hlen : (restSymbols [] s).length = if s.recNz then 1 else 2 := by
      rw [restSymbols]; split <;> rfl
    rw [hlen]
    exact execAll_cons_of_next (tokEndClosesTheRecord s hp herr ho hnd)
  | cons d ds ih =>
    have herr' : ErrWf (afterDigit d s) := err_zero_of_front (s := s) hp herr
    have hrest := ih (s := afterDigit d s) (.inr rfl) herr' (.inl ⟨rfl, rfl⟩)
    rw [recordClosed_afterDigit] at hrest
    rw [restSymbols, List.length_append]
    exact execAll_cons_symbufFull (tokDigitAppendsItsSymbols s d hp herr) hrest restCommands_ne List.length_append rfl rfl

/-! ### The symbols of a record are a projection (R130) -/

/-- After a non-zero digit the rest of the record is its digits and `SEP`. -/
theorem restSymbols_of_recNz {ds : List (Fin 10)} {s : State} (ho : s.recOpen = true) (hnz : s.recNz = true) :
    restSymbols ds s = ds.map symOfDigit ++ [Sym.sep] := by
  induction ds generalizing s with
  | nil => rw [restSymbols, if_pos hnz]; rfl
  | cons d ds ih =>
    rw [restSymbols, digitSymbols_of_recNz (by simp [ho, hnz]), ih rfl (by simp [afterDigit, ho, hnz])]
    rfl

/-- A leading zero does not change the integer a record writes. -/
theorem textValue_zero_cons (neg : Bool) (ds : List (Fin 10)) : textValue (neg, 0 :: ds) = textValue (neg, ds) := by
  simp [textValue, value_cons]

/-- A digit sequence with a non-zero first digit is projected as it stands, after the sign marker if it is negative. -/
theorem project_textValue (neg : Bool) {d : Fin 10} (hd : d ≠ 0) (ds : List (Fin 10)) :
    project (textValue (neg, d :: ds)) = (if neg then [0] else []) ++ (d :: ds).map symOfDigit ++ [Sym.sep] := by
  have hdigits : digits (value (d :: ds)) = d :: ds := digits_value (by simp) (by simpa using hd)
  have hpos : 0 < value (d :: ds) := by
    refine Nat.pos_of_ne_zero fun h0 => hd ?_
    rw [h0, digits_zero] at hdigits
    exact (List.cons.inj hdigits).1.symm
  cases neg
  · simp [project, textValue, hdigits]
  · simp [project, textValue, hdigits, hpos]

/-- Before a non-zero digit: leading zeros append nothing, and what is left is the projection of the signed value. -/
theorem restSymbols_eq_project {ds : List (Fin 10)} {s : State} (hnz : (s.recOpen && s.recNz) = false)
    (hds : s.recOpen = true ∨ ds ≠ []) : restSymbols ds s = project (textValue (s.recOpen && s.recNeg, ds)) := by
  induction ds generalizing s with
  | nil =>
    have ho : s.recOpen = true := by simpa using hds
    have hzero : textValue (s.recOpen && s.recNeg, []) = 0 := by simp [textValue, value]
    rw [restSymbols, if_neg (by simpa [ho] using hnz), hzero]
    rfl
  | cons d ds ih =>
    rw [restSymbols]
    by_cases hd : d = 0
    · subst hd
      rw [digitSymbols_leading_zero hnz, List.nil_append, textValue_zero_cons, ih (by simp [afterDigit, hnz]) (.inl rfl)]
      simp [afterDigit]
    · rw [digitSymbols_first hnz hd, restSymbols_of_recNz rfl (by simp [afterDigit, hd]), project_textValue _ hd]
      simp

/-- Settles O24: the optional `MINUS`, then the rest of the record. -/
theorem recordEntryProjectsItsValue : Obligations.RecordEntryProjectsItsValue := by
  rintro s ⟨neg, ds⟩ hp herr ho hne
  rw [textCommands_eq]
  cases neg
  case false =>
    have hsyms : restSymbols ds s = project (textValue (false, ds)) := by
      rw [restSymbols_eq_project (by simp [ho]) (.inr hne), ho, Bool.false_and]
    rw [← hsyms]
    exact execAll_restCommands hp herr (.inr hne)
  case true =>
    have herr' : ErrWf (afterMinus s) := err_zero_of_front (s := s) hp herr
    have hsyms : restSymbols ds (afterMinus s) = project (textValue (true, ds)) := restSymbols_eq_project rfl (.inl rfl)
    refine (execAll_cons_of_next (tokMinusOpensANegativeRecord s hp herr ho)).trans ?_
    rw [← hsyms]
    exact execAll_restCommands (.inr rfl) herr' (.inr hne)

end Sys2Proof.Machine

/-! ## The counter and the degenerate trees (R150, R151, R154, R155) -/

namespace Sys2Proof.Machine

open Sys2Proof Sys2Proof.Safety

/-! ### The counts (R150) -/

@[simp] theorem getElem_countSyms (S : List Sym) (x : Sym) : (countSyms S)[x] = S.count x := by
  simp [countSyms]

/-- Every cell of a stream is counted under one symbol. -/
theorem sum_countSyms (S : List Sym) : (allSyms.map fun x => (countSyms S)[x]).sum = S.length := by
  simp only [getElem_countSyms]
  calc (allSyms.map fun x => S.count x).sum
    _ = ∑ x : Sym, S.count x := (Fin.sum_univ_def fun x => S.count x).symm
    _ = ∑ x : Sym, (S : Multiset Sym).count x := by simp only [Multiset.coe_count]
    _ = S.length := Multiset.sum_count_eq_card fun x _ => Finset.mem_univ x

/-- Settles O26: the rule of `CNT` without an open record, then the counts of a stream. -/
theorem cntCountsEverySymbol : Obligations.CntCountsEverySymbol := by
  refine ⟨ruleHead_of_encode nofun nofun rfl, fun s hp herr => ?_⟩
  have hexec : exec .cnt s = answer (cntRule s) s := exec_front hp nofun nofun rfl
  refine ⟨fun ho => ?_, fun ho => ?_⟩
  · rw [hexec, cntRule, if_pos ho, answer_raise]
  · refine ⟨{ s with freq := countSyms s.symbuf, phase := .counted, rsp := 0 }, ?_, rfl, fun x => ?_, sum_countSyms _⟩
    · rw [hexec, cntRule, if_neg (by simp [ho])]
      exact congrArg Host.Outcome.next (respond_zero nofun nofun nofun (err_zero_of_front hp herr).1)
    · exact (getElem_countSyms s.symbuf x).trans List.count_eq_length_filter

/-! ### `BLD` by the number of symbols (R154) -/

theorem buildTree_of_no_symbol {f : Vector Nat 11} (t : Tree) (h : presentSyms f = []) :
    buildTree f t = { t with variant := .empty, k := 0, root := none, nextId := 11 } := by
  simp only [buildTree, h]
  rfl

theorem buildTree_of_one_symbol {f : Vector Nat 11} {x : Sym} (t : Tree) (h : presentSyms f = [x]) :
    buildTree f t = { t with
      variant := .single, k := 1, root := some (leafOf x), nextId := 11, weight := t.weight.set (leafOf x) f[x] } := by
  simp only [buildTree, h]
  rfl

/-- With two or more symbols the loop runs over their leaves. -/
theorem buildTree_of_symbols {f : Vector Nat 11} {x y : Sym} {syms : List Sym} (h : presentSyms f = x :: y :: syms) :
    buildTree f Tree.reset =
      { (buildLoop internalIds ((presentSyms f).map leafOf) (seedTree f)).2 with
        root := (buildLoop internalIds ((presentSyms f).map leafOf) (seedTree f)).1.head? } := by
  simp only [buildTree, seedTree, h]

theorem presentSyms_eq_nil {f : Vector Nat 11} (h : ∀ y : Sym, f[y] = 0) : presentSyms f = [] :=
  List.eq_nil_iff_forall_not_mem.2 fun y hy => (mem_presentSyms.1 hy).ne' (h y)

theorem presentSyms_eq_singleton {f : Vector Nat 11} {x : Sym} (hx : 0 < f[x]) (h : ∀ y : Sym, y ≠ x → f[y] = 0) :
    presentSyms f = [x] := by
  have hmem (y : Sym) : y ∈ presentSyms f ↔ y ∈ [x] := by
    rw [mem_presentSyms, List.mem_singleton]
    refine ⟨fun hy => by_contra fun hne => hy.ne' (h y hne), ?_⟩
    rintro rfl
    exact hx
  exact List.perm_singleton.1 ((List.perm_ext_iff_of_nodup (allSyms_nodup.filter _) (List.nodup_singleton x)).2 hmem)

/-- In `COUNTED` the command `BLD` replaces the tree registers and answers 0. -/
theorem exec_bld_counted {s : State} (hp : s.phase = .counted) (herr : ErrWf s) :
    exec .bld s = .next { s with tree := buildTree s.freq s.tree, phase := .built, rsp := 0 } := by
  have hf : s.phase ≠ .fault := by simp [hp]
  rw [ErrWf, if_neg hf] at herr
  rw [exec_eq_command (i := .bld) nofun nofun, command_legal hf (by rw [hp]; rfl)]
  exact congrArg Host.Outcome.next (respond_zero nofun nofun nofun herr.1)

/-- Settles O27: no symbol and one symbol are the first two cases of `buildTree`. -/
theorem bldMakesTheDegenerateShapes : Obligations.BldMakesTheDegenerateShapes := by
  refine ⟨ruleHead_of_encode nofun nofun rfl, fun s hp herr => ⟨fun hzero => ?_, fun x hx hzero => ?_⟩⟩
  · rw [exec_bld_counted hp herr, buildTree_of_no_symbol _ (presentSyms_eq_nil hzero)]
  · rw [exec_bld_counted hp herr, buildTree_of_one_symbol _ (presentSyms_eq_singleton hx hzero)]

end Sys2Proof.Machine

/-! ## The order of the merges (R153, R154)

A merge takes the two lowest candidates, and the candidates it leaves are those that wait for a later merge. No later merge changes the
weight of a node already made, so the comparison made then still holds in the finished tree. -/

namespace Sys2Proof.Machine

open Sys2Proof Sys2Proof.Safety

/-- Node `u` waits while `n` is made: it is a candidate still, or its parent is made later than `n`. -/
def Waits (active : List NodeId) (t : Tree) (n u : NodeId) : Prop :=
  u ∈ active ∨ ∃ q, t.parent[u] = some q ∧ n < q

/-- Each node made so far has children lower than every older node that waited while it was made. -/
def MergesLowest (active : List NodeId) (t : Tree) : Prop :=
  ∀ (n c u : NodeId) (slot : Bool), childOf t n slot = some c → u < n → Waits active t n u → lower t.weight c u = true

theorem mergesLowest_of_no_child {active : List NodeId} {t : Tree} (h : t.child = Tree.reset.child) :
    MergesLowest active t := by
  intro n c u slot hc
  rw [childOf_congr h, childOf_reset] at hc
  cases hc

/-- `lower` reads the weights of its two nodes only. -/
theorem lower_mergeNodes {t : Tree} {a b n c d : NodeId} (hc : n ≠ c) (hd : n ≠ d) :
    lower (mergeNodes t a b n).weight c d = lower t.weight c d := by
  simp only [lower, getElem_mergeNodes_weight, if_neg hc, if_neg hd]

/-- The two lowest candidates are lower than every other one. -/
theorem lower_of_two_lowest {w : Vector Nat 21} {active : List NodeId} {a b u : NodeId} (hnodup : active.Nodup)
    (ha : lowest w active = some a) (hb : lowest w (active.erase a) = some b) (hu : u ∈ (active.erase a).erase b) :
    lower w a u = true ∧ lower w b u = true := by
  obtain ⟨hub, hu⟩ := (hnodup.erase a).mem_erase_iff.1 hu
  obtain ⟨hua, hmem⟩ := hnodup.mem_erase_iff.1 hu
  exact ⟨(lowest_spec ha).2 u hmem hua, (lowest_spec hb).2 u hu hub⟩

section

variable {f : Vector Nat 11} {m : Nat} {active : List NodeId} {t : Tree} {a b k n u : NodeId}

/-- What waits after a merge, other than the node it made, waited before it too. -/
theorem Waits.of_merge (ha : a ∈ active) (hb : b ∈ active) (hu : k ≠ u)
    (hw : Waits ((active.erase a).erase b ++ [k]) (mergeNodes t a b k) n u) : Waits active t n u := by
  rcases hw with hmem | ⟨q, hq, hnq⟩
  · rcases List.mem_append.1 hmem with hrest | hlast
    · exact .inl (List.mem_of_mem_erase (List.mem_of_mem_erase hrest))
    · exact absurd (List.mem_singleton.1 hlast).symm hu
  · rw [getElem_mergeNodes_parent] at hq
    split at hq
    · next huab =>
      rcases huab with rfl | rfl
      exacts [.inl ha, .inl hb]
    · exact .inr ⟨q, hq, hnq⟩

/-- What still waits when the newest node is made is a candidate that the merge leaves. -/
theorem Forest.mem_of_waits_newest (h : Forest f (m + 1) active t) (hn : n.val = m) (hw : Waits active t n u) :
    u ∈ active := by
  rcases hw with hmem | ⟨q, hq, hnq⟩
  · exact hmem
  · have hlt : n.val < q.val := hnq
    have hrange := (h.linked.parent_range u q hq).2
    omega

/-- A merge of the two lowest candidates keeps the order of the merges. -/
theorem MergesLowest.merge (hlow : MergesLowest active t) (h : Forest f m active t) (hm : 11 ≤ m) (hk : k.val = m)
    (ha : lowest t.weight active = some a) (hb : lowest t.weight (active.erase a) = some b) :
    MergesLowest ((active.erase a).erase b ++ [k]) (mergeNodes t a b k) := by
  intro n c u slot hc hun hw
  have hma := (lowest_spec ha).1
  have hmb := (lowest_spec hb).1
  have hforest := h.merge hm hk hma hmb
  have hcn := hforest.parent_gt c n (hforest.linked.parent_of_child hc)
  have hnm : n.val < m + 1 := (hforest.linked.parent_range c n (hforest.linked.parent_of_child hc)).2
  have hne {v : NodeId} (hv : v < n) : k ≠ v := by
    rintro rfl
    have hlt : k.val < n.val := hv
    omega
  rw [lower_mergeNodes (hne hcn) (hne hun)]
  by_cases hnk : n = k
  · subst hnk
    have hrest : u ∈ (active.erase a).erase b := by
      refine (List.mem_append.1 (hforest.mem_of_waits_newest hk hw)).resolve_right fun hlast => ?_
      exact hun.ne (List.mem_singleton.1 hlast)
    obtain ⟨hau, hbu⟩ := lower_of_two_lowest h.nodup ha hb hrest
    have hcab : c = a ∨ c = b := by
      have hp := hforest.linked.parent_of_child hc
      rw [getElem_mergeNodes_parent] at hp
      by_contra hcab
      rw [if_neg hcab] at hp
      exact absurd (h.linked.parent_range c n hp).2 (by omega)
    rcases hcab with rfl | rfl
    exacts [hau, hbu]
  · rw [childOf_mergeNodes_ne t a b hnk] at hc
    exact hlow n c u slot hc hun (hw.of_merge hma (List.mem_of_mem_erase hmb) (hne hun))

/-- The loop keeps the order of its merges. -/
theorem mergesLowest_buildLoop {ids : List NodeId} (hlow : MergesLowest active t) (h : Forest f m active t) (hm : 11 ≤ m)
    (hids : ids.map Fin.val = List.range' m ids.length) :
    MergesLowest (buildLoop ids active t).1 (buildLoop ids active t).2 := by
  induction ids generalizing m active t with
  | nil => exact hlow
  | cons k ids ih =>
    rw [List.length_cons, List.range'_succ, List.map_cons, List.cons.injEq] at hids
    obtain ⟨hk, hids⟩ := hids
    unfold buildLoop
    split
    · exact hlow
    · next a ha =>
      split
      · exact hlow
      · next b hb =>
        exact ih (hlow.merge h hm hk ha hb) (h.merge hm hk (lowest_spec ha).1 (lowest_spec hb).1) (by omega) hids

end

/-- In the tree of any counts every merge took the lowest candidates. -/
theorem exists_mergesLowest_buildTree (f : Vector Nat 11) : ∃ active, MergesLowest active (buildTree f Tree.reset) := by
  rcases h : presentSyms f with _ | ⟨x, _ | ⟨y, syms⟩⟩
  · rw [buildTree_of_no_symbol _ h]
    exact ⟨[], mergesLowest_of_no_child rfl⟩
  · rw [buildTree_of_one_symbol _ h]
    exact ⟨[], mergesLowest_of_no_child rfl⟩
  · rw [buildTree_of_symbols h]
    exact ⟨_, mergesLowest_buildLoop (mergesLowest_of_no_child rfl) (forest_seed f) le_rfl (by decide)⟩

/-- Settles O29: a node whose parent is made after `n` waited while `n` was made. -/
theorem bldMergesTheTwoLowest : Obligations.BldMergesTheTwoLowest := by
  intro f n a b u q ha hb _ _ hun hq hnq
  obtain ⟨active, hlow⟩ := exists_mergesLowest_buildTree f
  have hw : Waits active (buildTree f Tree.reset) n u := .inr ⟨q, hq, hnq⟩
  exact ⟨lower_iff.1 (hlow n a u false ha hun hw), lower_iff.1 (hlow n b u true hb hun hw)⟩

end Sys2Proof.Machine

/-! ## One command in a phase it is legal in (R22, R96) -/

namespace Sys2Proof.Machine

open Sys2Proof Sys2Proof.Safety

/-- In a phase of its row of the table a command runs its own rule. -/
theorem exec_eq_answer {i : Instr} {s : State} (h1 : i ≠ .stat) (h2 : i ≠ .clr)
    (hp : s.phase ∈ (phaseTable i).map Prod.fst) : exec i s = answer (ruleOf i s) s := by
  obtain ⟨row, hrow, hphase⟩ := List.mem_map.1 hp
  rw [exec_eq_command h1 h2]
  exact command_legal (hphase ▸ (ne_fault_of_mem_phaseTable hrow).1) ((legalIn_iff h1 h2).2 hp)

/-- `ERR` is 0 outside `FAULT` (R24). -/
theorem errCause_eq_zero {s : State} (h : ErrWf s) (hf : s.phase ≠ .fault) : s.errCause = 0 := by
  rw [ErrWf, if_neg hf] at h
  exact h.1

end Sys2Proof.Machine

/-! ## Reading a header (R178)

Field `i` of a header stands at positions `3 + 4 i` to `6 + 4 i`. What `PAR` reads is said here once in terms of the fields, whatever tree
they spell. -/

namespace Sys2Proof.Machine

open Sys2Proof Sys2Proof.Safety

/-! ### One field -/

/-- Field `i` of the header in the buffer (R66, R104). -/
def headerField (buf : List Bool) (i : Nat) : Nat := bitRead buf (3 + 4 * i) 4

theorem fieldAt_eq (s : State) (i : Nat) : fieldAt s i = headerField s.bitbuf i := rfl

theorem read4_available {buf : List Bool} {limit i : Nat} (h : 7 + 4 * i ≤ limit) :
    read4 buf limit (3 + 4 * i) = .ok (headerField buf i, 3 + 4 * (i + 1)) := if_neg (by omega)

theorem read4_short {buf : List Bool} {limit i : Nat} (h : limit < 7 + 4 * i) :
    read4 buf limit (3 + 4 * i) = .error .header := if_pos (by omega)

theorem read4_first {buf : List Bool} {limit : Nat} (h : 7 ≤ limit) : read4 buf limit 3 = .ok (headerField buf 0, 7) :=
  read4_available (i := 0) h

/-! ### A run of fields (stages B and C) -/

/-- Field `i` is available and in range. -/
def FieldLegal (buf : List Bool) (limit top i : Nat) : Prop := 7 + 4 * i ≤ limit ∧ headerField buf i ≤ top

theorem fieldTop_leaf {j : Nat} (h : j ≤ 10) : fieldTop j = 10 := if_pos h

theorem fieldTop_inner {j : Nat} (h : 11 ≤ j) : fieldTop j = 9 := if_neg (by omega)

/-- Field `i` is reported as `e`: availability is checked before the value (R179). -/
def FieldFault (buf : List Bool) (limit top i : Nat) (e : ErrCode) : Prop :=
  limit < 7 + 4 * i ∧ e = .header ∨ 7 + 4 * i ≤ limit ∧ top < headerField buf i ∧ e = .reservedField

/-- The `n` fields from field `i` on. -/
def fieldList (buf : List Bool) (i n : Nat) : List Nat := (List.range' i n).map (headerField buf)

@[simp] theorem fieldList_length (buf : List Bool) (i n : Nat) : (fieldList buf i n).length = n := by simp [fieldList]

theorem fieldList_succ (buf : List Bool) (i n : Nat) :
    fieldList buf i (n + 1) = headerField buf i :: fieldList buf (i + 1) n := rfl

theorem fieldList_append (buf : List Bool) (i m n : Nat) :
    fieldList buf i m ++ fieldList buf (i + m) n = fieldList buf i (m + n) := by
  simp only [fieldList, ← List.map_append, List.range'_append_1]

theorem getElem_fieldList {buf : List Bool} {n i : Nat} (h : i < (fieldList buf 0 n).length) :
    (fieldList buf 0 n)[i] = headerField buf i := by
  simp [fieldList]

section

variable {buf : List Bool} {limit top i n : Nat}

/-- A legal field is the first of those read. -/
theorem readFields_succ (h : FieldLegal buf limit top i) :
    readFields buf limit top (n + 1) (3 + 4 * i) =
      readFields buf limit top n (3 + 4 * (i + 1)) >>= fun x => .ok (headerField buf i :: x.1, x.2) := by
  obtain ⟨havail, hrange⟩ := h
  simp only [readFields, read4_available havail, bind, Except.bind, if_neg (Nat.not_lt.2 hrange)]

theorem readFields_legal (h : ∀ j, i ≤ j → j < i + n → FieldLegal buf limit top j) :
    readFields buf limit top n (3 + 4 * i) = .ok (fieldList buf i n, 3 + 4 * (i + n)) := by
  induction n generalizing i with
  | zero => rfl
  | succ n ih =>
    rw [readFields_succ (h i le_rfl (by omega)), ih fun j hj hjn => h j (by omega) (by omega), fieldList_succ,
      Nat.add_right_comm i 1 n]
    rfl

/-- The first field that is not legal is the one reported. -/
theorem readFields_fault {m : Nat} {e : ErrCode} (h : ∀ j, i ≤ j → j < m → FieldLegal buf limit top j) (hi : i ≤ m)
    (hm : m < i + n) (hfault : FieldFault buf limit top m e) : readFields buf limit top n (3 + 4 * i) = .error e := by
  induction n generalizing i with
  | zero => omega
  | succ n ih =>
    rcases hi.eq_or_lt with rfl | hlt
    · rcases hfault with ⟨hshort, rfl⟩ | ⟨havail, hhigh, rfl⟩
      · simp only [readFields, read4_short hshort, bind, Except.bind]
      · simp only [readFields, read4_available havail, bind, Except.bind, if_pos hhigh]
    · rw [readFields_succ (h i le_rfl hlt), ih (fun j hj hjm => h j (by omega) hjm) hlt (by omega)]
      rfl

end

/-! ### A `FULL` header (stages B to E) -/

/-- The leaves present among the first eleven fields. -/
def leafCount (buf : List Bool) : Nat := (presentLeaves (fieldList buf 0 11)).length

theorem leafCount_le (buf : List Bool) : leafCount buf ≤ 11 := presentLeaves_length_le _

/-- The statements count the same leaves. -/
theorem leavesPresent_eq (s : State) : leavesPresent s = leafCount s.bitbuf := by
  have hrange : List.range 11 = allSyms.map Fin.val := by decide
  rw [leavesPresent, hrange, List.filter_map, List.length_map, leafCount, presentLeaves]
  refine congrArg List.length (List.filter_congr fun x _ => ?_)
  have hx : x.val < (fieldList s.bitbuf 0 11).length := by simp
  rw [Function.comp_apply, List.getD_eq_getElem _ _ hx, getElem_fieldList, fieldAt_eq]

section

variable {buf : List Bool} {limit : Nat} {t : Tree}

/-- A leaf field that is not legal is reported before the leaves are counted. -/
theorem parseFull_leaf_fault {m : Nat} {e : ErrCode} (h : ∀ j, 1 ≤ j → j < m → FieldLegal buf limit 10 j) (h1 : 1 ≤ m)
    (hm : m ≤ 10) (hfault : FieldFault buf limit 10 m e) : parseFull buf limit 7 (headerField buf 0) t = .error e := by
  have hread : readFields buf limit 10 10 7 = .error e := readFields_fault h h1 (by omega) hfault
  simp only [parseFull, hread, bind, Except.bind]

/-- With eleven legal leaf fields, the leaves are counted, then the inner fields read and the nodes linked. -/
theorem parseFull_leaves (h : ∀ j, 1 ≤ j → j < 11 → FieldLegal buf limit 10 j) :
    parseFull buf limit 7 (headerField buf 0) t =
      if leafCount buf < 2 then .error .tooFewLeaves
      else readFields buf limit 9 (leafCount buf - 2) (3 + 4 * 11) >>= fun x =>
        linkAll (rootOf (fieldList buf 0 11)) (allNodes.zip (fieldList buf 0 11 ++ x.1)) t >>= fun u =>
          if allReachRoot u (rootOf (fieldList buf 0 11)) (leafCount buf) then
            .ok ({ u with
              variant := .full, k := BitVec.ofNat 4 (leafCount buf), root := some (rootOf (fieldList buf 0 11))
              nextId := BitVec.ofNat 5 ((rootOf (fieldList buf 0 11)).val + 1) }, x.2)
          else .error .cycle := by
  have hread : readFields buf limit 10 10 7 = .ok (fieldList buf 1 10, 3 + 4 * 11) := readFields_legal (i := 1) h
  rw [parseFull, hread]
  rfl

/-- With every field legal, only the linking and the check of R181 are left. -/
theorem parseFull_fields {r : NodeId} (hr : r.val = 9 + leafCount buf) (hk : 2 ≤ leafCount buf)
    (h : ∀ j, j < r.val → FieldLegal buf limit (fieldTop j) j) :
    parseFull buf limit 7 (headerField buf 0) t =
      linkAll r (allNodes.zip (fieldList buf 0 r.val)) t >>= fun u =>
        if allReachRoot u r (leafCount buf) then
          .ok ({ u with
            variant := .full, k := BitVec.ofNat 4 (leafCount buf), root := some r
            nextId := BitVec.ofNat 5 (r.val + 1) }, 3 + 4 * r.val)
        else .error .cycle := by
  have hroot : rootOf (fieldList buf 0 11) = r := Fin.ext hr.symm
  have hlen : 11 + (leafCount buf - 2) = r.val := by omega
  have hleaf : ∀ j, 1 ≤ j → j < 11 → FieldLegal buf limit 10 j := fun j _ hj =>
    fieldTop_leaf (Nat.le_of_lt_succ hj) ▸ h j (by omega)
  have hinner : ∀ j, 11 ≤ j → j < 11 + (leafCount buf - 2) → FieldLegal buf limit 9 j := fun j h11 hj =>
    fieldTop_inner h11 ▸ h j (by omega)
  have hread := readFields_legal hinner
  have happend := fieldList_append buf 0 11 (leafCount buf - 2)
  rw [Nat.zero_add, hlen] at happend
  rw [parseFull_leaves hleaf, if_neg (by omega), hread, hlen, hroot, ← happend]
  rfl

/-! ### The first field (stage A) -/

theorem parseHeader_full (h7 : 7 ≤ limit) (h0 : headerField buf 0 ≤ 10) :
    parseHeader buf limit t = parseFull buf limit 7 (headerField buf 0) t := by
  simp only [parseHeader, read4_first h7, bind, Except.bind]
  rw [if_neg (by omega), if_neg (by omega), if_neg (by omega)]

theorem parseHeader_short (h7 : limit < 7) : parseHeader buf limit t = .error .header := by
  rw [parseHeader, read4_short (i := 0) h7]
  rfl

theorem parseHeader_reserved (h7 : 7 ≤ limit) (h11 : 11 ≤ headerField buf 0) (h13 : headerField buf 0 ≤ 13) :
    parseHeader buf limit t = .error .reservedField := by
  simp only [parseHeader, read4_first h7, bind, Except.bind]
  rw [if_neg (by omega), if_neg (by omega), if_pos (by omega)]

theorem parseHeader_empty (h7 : 7 ≤ limit) (h0 : headerField buf 0 = 15) :
    parseHeader buf limit t = .ok ({ t with variant := .empty, k := 0, root := none }, 7) := by
  simp only [parseHeader, read4_first h7, bind, Except.bind]
  rw [if_pos h0]

/-- A first field 14 is followed by the symbol. -/
theorem parseHeader_single (h7 : 7 ≤ limit) (h0 : headerField buf 0 = 14) :
    parseHeader buf limit t = read4 buf limit 7 >>= fun x =>
      if h : x.1 < 11 then .ok ({ t with variant := .single, k := 1, root := some (leafOf ⟨x.1, h⟩) }, x.2)
      else .error .badSingleSym := by
  simp only [parseHeader, read4_first h7, bind, Except.bind]
  rw [if_neg (by omega), if_pos h0]

end

/-! ### The blob -/

theorem parseBlob_ok {buf : List Bool} {t T : Tree} {e : Nat} (h3 : 3 ≤ buf.length)
    (h : parseHeader buf (buf.length - bitRead buf 0 3) t = .ok (T, e)) :
    parseBlob buf t = .ok ⟨bitRead buf 0 3, buf.length - bitRead buf 0 3, e, T⟩ := by
  simp only [parseBlob, if_neg (Nat.not_lt.2 h3), h, bind, Except.bind]

theorem parseBlob_error {buf : List Bool} {t : Tree} {e : ErrCode} (h3 : 3 ≤ buf.length)
    (h : parseHeader buf (buf.length - bitRead buf 0 3) t = .error e) : parseBlob buf t = .error e := by
  simp only [parseBlob, if_neg (Nat.not_lt.2 h3), h, bind, Except.bind]

/-! ### The command `PAR` -/

section

variable {s : State} (hp : s.phase = .idle ∨ s.phase = .load)
include hp

theorem exec_par_answer : exec .par s = answer (parRule s) s :=
  exec_eq_answer nofun nofun (by simpa [phaseTable] using hp)

theorem exec_par_blob_fault {e : ErrCode} (h : parseBlob s.bitbuf s.tree = .error e) :
    exec .par s = .next (faulted e s) := by
  rw [exec_par_answer hp, parRule, h, ← raise_eq_faulted]
  rfl

/-- The limit the statements name is the one `PAR` takes; what `PAR` raises on the header it enters as a fault. -/
theorem exec_par_fault {e : ErrCode} (h3 : 3 ≤ s.bitbuf.length)
    (h : parseHeader s.bitbuf (limitOf s) s.tree = .error e) : exec .par s = .next (faulted e s) :=
  exec_par_blob_fault hp (parseBlob_error h3 h)

theorem exec_par_parsed (herr : ErrWf s) (h3 : 3 ≤ s.bitbuf.length) {p : Nat} (hpad : bitRead s.bitbuf 0 3 = p) {T : Tree}
    {e : Nat} (h : parseHeader s.bitbuf (s.bitbuf.length - p) s.tree = .ok (T, e)) :
    exec .par s = .next { s with
      pad := p, limit := s.bitbuf.length - p, hdrEnd := e, tree := T, phase := .parsed, rsp := 0 } := by
  subst hpad
  have hf : s.phase ≠ .fault := by rintro hf; simp [hf] at hp
  have hcause := errCause_eq_zero herr hf
  rw [exec_par_answer hp, parRule, parseBlob_ok h3 h]
  exact congrArg Host.Outcome.next (respond_zero nofun nofun nofun hcause)

end

theorem le_length_of_le_limitOf {s : State} {n : Nat} (h : n ≤ limitOf s) : n ≤ s.bitbuf.length :=
  h.trans (Nat.sub_le _ _)

/-- Settles O37: by the first check that fails, the length, the first field or the symbol. -/
theorem parFirstFieldFaults : Obligations.ParFirstFieldFaults := by
  refine ⟨ruleHead_of_encode nofun nofun rfl, fun s hp => ⟨fun h => ?_, fun h3 h7 => ?_, fun h7 h11 h13 => ?_,
    fun h7 h11 h0 => ?_, fun h11 h0 hsym => ?_⟩⟩
  · exact exec_par_blob_fault hp (if_pos h)
  · exact exec_par_fault hp h3 (parseHeader_short h7)
  · exact exec_par_fault hp (le_length_of_le_limitOf (by omega)) (parseHeader_reserved h7 h11 h13)
  · refine exec_par_fault hp (le_length_of_le_limitOf (by omega)) ?_
    have hread : read4 s.bitbuf (limitOf s) 7 = .error .header := read4_short (i := 1) h11
    rw [parseHeader_single h7 h0, hread]
    rfl
  · refine exec_par_fault hp (le_length_of_le_limitOf (by omega)) ?_
    have hread : read4 s.bitbuf (limitOf s) 7 = .ok (headerField s.bitbuf 1, 11) := read4_available (i := 1) h11
    rw [parseHeader_single (by omega) h0, hread]
    exact dif_neg (Nat.not_lt.2 hsym)

/-- What `PAR` raises in stages B to E. -/
theorem exec_par_full_fault {s : State} (hp : s.phase = .idle ∨ s.phase = .load) (h7 : 7 ≤ limitOf s)
    (h0 : fieldAt s 0 ≤ 10) {e : ErrCode}
    (h : parseFull s.bitbuf (limitOf s) 7 (headerField s.bitbuf 0) s.tree = .error e) :
    exec .par s = .next (faulted e s) :=
  exec_par_fault hp (le_length_of_le_limitOf (by omega)) ((parseHeader_full h7 h0).trans h)

/-- The first field that is not legal, at a leaf or at an inner node, is the fault of `PAR`. -/
theorem exec_par_field_fault {s : State} (hp : s.phase = .idle ∨ s.phase = .load) (h7 : 7 ≤ limitOf s)
    (h0 : fieldAt s 0 ≤ 10) {i : Nat} (h1 : 1 ≤ i)
    (hlegal : ∀ j, j < i → 7 + 4 * j ≤ limitOf s ∧ fieldAt s j ≤ fieldTop j)
    (hi : i ≤ 10 ∨ 2 ≤ leavesPresent s ∧ i < 9 + leavesPresent s) {e : ErrCode}
    (hfault : FieldFault s.bitbuf (limitOf s) (fieldTop i) i e) : exec .par s = .next (faulted e s) := by
  refine exec_par_full_fault hp h7 h0 ?_
  have hlegal : ∀ j, j < i → FieldLegal s.bitbuf (limitOf s) (fieldTop j) j := hlegal
  have hleaf : ∀ j, j < i → j ≤ 10 → FieldLegal s.bitbuf (limitOf s) 10 j := fun j hj hj10 =>
    fieldTop_leaf hj10 ▸ hlegal j hj
  by_cases hi10 : i ≤ 10
  · rw [fieldTop_leaf hi10] at hfault
    exact parseFull_leaf_fault (fun j _ hj => hleaf j hj (by omega)) h1 hi10 hfault
  · obtain ⟨hk, hik⟩ := hi.resolve_left hi10
    rw [leavesPresent_eq] at hk hik
    rw [fieldTop_inner (by omega)] at hfault
    have hinner : ∀ j, 11 ≤ j → j < i → FieldLegal s.bitbuf (limitOf s) 9 j := fun j hj11 hj =>
      fieldTop_inner hj11 ▸ hlegal j hj
    rw [parseFull_leaves fun j _ hj => hleaf j (by omega) (by omega), if_neg (by omega),
      readFields_fault hinner (by omega) (by omega) hfault]
    rfl

/-- Settles O38: the fields in stream order, with the count of the leaves after the eleventh. -/
theorem parFieldFaultsInStreamOrder : Obligations.ParFieldFaultsInStreamOrder := by
  intro s hp h7 h0
  refine ⟨fun i h1 hlegal hi => ⟨fun hshort => ?_, fun havail hhigh => ?_⟩, fun hlegal hk => ?_⟩
  · exact exec_par_field_fault hp h7 h0 h1 hlegal hi (.inl ⟨hshort, rfl⟩)
  · exact exec_par_field_fault hp h7 h0 h1 hlegal hi (.inr ⟨havail, hhigh, rfl⟩)
  · refine exec_par_full_fault hp h7 h0 ?_
    rw [leavesPresent_eq] at hk
    rw [parseFull_leaves fun j _ hj => hlegal j (by omega), if_pos hk]

/-! ### A header as it is written -/

/-- The pad-length written in front is read back. -/
theorem bitRead_pad {p : Nat} (hp : p < 8) (rest : List Bool) : bitRead (natBits 3 p ++ rest) 0 3 = p :=
  (bitRead_natBits 3 p rest).trans (Nat.mod_eq_of_lt hp)

theorem flatMap_natBits_length (w : Nat) (fs : List Nat) : (fs.flatMap (natBits w)).length = w * fs.length := by
  simp [List.length_flatMap, Nat.mul_comm]

/-- The fields written after the pad-length are the fields of the header. -/
theorem headerField_written (p : Nat) {fs : List Nat} (rest : List Bool) {i : Nat} (hi : i < fs.length)
    (hv : fs[i] ≤ 15) : headerField (natBits 3 p ++ fs.flatMap (natBits 4) ++ rest) i = fs[i] := by
  have hsplit : natBits 3 p ++ fs.flatMap (natBits 4) ++ rest =
      (natBits 3 p ++ (fs.take i).flatMap (natBits 4)) ++
        (natBits 4 fs[i] ++ ((fs.drop (i + 1)).flatMap (natBits 4) ++ rest)) := by
    conv_lhs => rw [← List.take_append_drop i fs, List.drop_eq_getElem_cons hi]
    simp only [List.flatMap_append, List.flatMap_cons, List.append_assoc]
  have hpos : 3 + 4 * i = (natBits 3 p ++ (fs.take i).flatMap (natBits 4)).length := by
    rw [List.length_append, natBits_length, flatMap_natBits_length, List.length_take, Nat.min_eq_left hi.le]
  rw [headerField, hsplit, hpos, bitRead_append_right, bitRead_natBits, Nat.mod_eq_of_lt (by omega)]

/-- Settles O34: the first field, 15 or 14, and the symbol are those written. -/
theorem parReadsTheDegenerateHeaders : Obligations.ParReadsTheDegenerateHeaders := by
  refine fun s p rest hp herr hp8 => ⟨fun hbits hlen => ?_, fun x hbits hlen => ?_⟩
  · have hpad : bitRead s.bitbuf 0 3 = p := by rw [hbits, List.append_assoc, bitRead_pad hp8]
    have h0 : headerField s.bitbuf 0 = 15 := by
      rw [hbits]
      exact headerField_written p (fs := [15]) rest Nat.zero_lt_one le_rfl
    exact exec_par_parsed hp herr (by omega) hpad (parseHeader_empty (by omega) h0)
  · have hbits' : s.bitbuf = natBits 3 p ++ [14, x.val].flatMap (natBits 4) ++ rest := by simpa using hbits
    have hpad : bitRead s.bitbuf 0 3 = p := by rw [hbits', List.append_assoc, bitRead_pad hp8]
    have h0 : headerField s.bitbuf 0 = 14 := by
      rw [hbits']
      exact headerField_written p (fs := [14, x.val]) rest (i := 0) (by simp) (by simp)
    have h1 : headerField s.bitbuf 1 = x.val := by
      rw [hbits']
      exact headerField_written p (fs := [14, x.val]) rest (i := 1) (by simp) (by simp; omega)
    refine exec_par_parsed hp herr (by omega) hpad ?_
    have hread : read4 s.bitbuf (s.bitbuf.length - p) 7 = .ok (headerField s.bitbuf 1, 11) :=
      read4_available (i := 1) (by omega)
    rw [parseHeader_single (by omega) h0, hread, h1]
    exact dif_pos x.isLt

end Sys2Proof.Machine

/-! ## The fields of a finished tree (R170, R173) -/

namespace Sys2Proof.Machine

open Sys2Proof Sys2Proof.Safety

/-- `f(n)` of R170 for a node below the root of a finished tree: `ABSENT`, or the parent's index. -/
def parentField (t : Tree) (n : NodeId) : Nat :=
  match t.parent[n] with
  | none => 10
  | some p => p.val - 11

theorem parentField_le (t : Tree) (n : NodeId) : parentField t n ≤ 10 := by
  unfold parentField
  split <;> omega

/-- Below the root every leaf and every inner node of a finished tree has a field. -/
theorem fieldOf_fullTree {t : Tree} {r n : NodeId} (h : FullTree t r) (hn : n < r) :
    fieldOf t n = .ok (parentField t n) := by
  rw [fieldOf_ok_iff, parentField]
  cases hp : t.parent[n] with
  | none =>
    have hleaf : ¬ 11 ≤ n.val := fun h11 => by simpa [hp] using (h.inner_parent n h11).2 hn
    exact .inl ⟨rfl, by omega, rfl⟩
  | some p => exact .inr ⟨p, rfl, (h.parent_range n p hp).1, rfl⟩

/-- The header of a finished tree: one field per node below the root. -/
def treeFields (t : Tree) (r : NodeId) : List Nat := (allNodes.take r.val).map (parentField t)

@[simp] theorem treeFields_length (t : Tree) (r : NodeId) : (treeFields t r).length = r.val := by
  simp [treeFields, allNodes]

theorem getElem_treeFields {t : Tree} {r : NodeId} {i : Nat} (hi : i < (treeFields t r).length) :
    (treeFields t r)[i] = parentField t ⟨i, by have := treeFields_length t r; omega⟩ := by
  simp [treeFields, allNodes]

theorem headerFields_fullTree {t : Tree} {r : NodeId} (h : FullTree t r) : headerFields t = .ok (treeFields t r) := by
  refine headerFields_full h.variant_full h.root_eq (treeFields_length t r) fun n hn => ?_
  rw [getElem_treeFields hn]
  exact fieldOf_fullTree h (Fin.lt_def.2 (by simpa using hn))

/-! ### The command `SER` -/

theorem bitAppend_eq (bs : List Bool) (s : State) :
    bitAppend bs s = if fits s.cfg.bitbufCap s.bitbuf.length bs.length then .ok { s with bitbuf := s.bitbuf ++ bs }
      else .error (.raise .bitbufFull) := rfl

/-- `SER`'s loop with its capacity check: the fields fit together or the loop faults (R65, R173). -/
theorem appendFields_eq (fs : List Nat) (s : State) :
    appendFields fs s = if fits s.cfg.bitbufCap s.bitbuf.length (4 * fs.length) then
        .ok { s with bitbuf := s.bitbuf ++ fs.flatMap (natBits 4) }
      else .error (.raise .bitbufFull) := by
  induction fs generalizing s with
  | nil => simp [appendFields]
  | cons v vs ih =>
    rw [appendFields, bitAppend_eq, natBits_length, List.length_cons, Nat.mul_succ, Nat.add_comm]
    by_cases hv : fits s.cfg.bitbufCap s.bitbuf.length 4 = true
    · rw [if_pos hv]
      refine (ih _).trans ?_
      simp [fits_add, hv]
    · rw [if_neg hv, if_neg fun h => hv (fits_add.1 h).1]
      rfl

/-- `SER` from the fields of its tree. -/
theorem serRule_eq {s : State} {fs : List Nat} (h : headerFields s.tree = .ok fs) :
    serRule s = if fits s.cfg.bitbufCap 0 (3 + 4 * fs.length) then
        .ok ({ s with
          bitbuf := [false, false, false] ++ fs.flatMap (natBits 4), hdrEnd := 3 + 4 * fs.length
          phase := .serialized }, 0)
      else .error (.raise .bitbufFull) := by
  have hbits : natBits 3 0 = [false, false, false] := rfl
  have hempty : ([] : List Bool).length = 0 := rfl
  rw [serRule, h]
  simp only [bind, Except.bind, bitAppend_eq, natBits_length, hempty, List.nil_append]
  by_cases h3 : fits s.cfg.bitbufCap 0 3 = true
  · simp only [if_pos h3, appendFields_eq, natBits_length]
    by_cases hf : fits s.cfg.bitbufCap 3 (4 * fs.length) = true
    · have hall : fits s.cfg.bitbufCap 0 (3 + 4 * fs.length) = true := fits_add.2 ⟨h3, by simpa using hf⟩
      simp only [if_pos hf, if_pos hall, hbits, List.length_append, flatMap_natBits_length]
      rfl
    · have hall : ¬ fits s.cfg.bitbufCap 0 (3 + 4 * fs.length) = true := fun hall => hf (by simpa using (fits_add.1 hall).2)
      rw [if_neg hf, if_neg hall]
  · rw [if_neg h3, if_neg fun hall => h3 (fits_add.1 hall).1]

theorem exec_ser_derived {s : State} {fs : List Nat} (hp : s.phase = .derived) (herr : ErrWf s)
    (h : headerFields s.tree = .ok fs) :
    exec .ser s = .next (if fits s.cfg.bitbufCap 0 (3 + 4 * fs.length) then
      { s with
        bitbuf := [false, false, false] ++ fs.flatMap (natBits 4)
        hdrEnd := 3 + 4 * fs.length
        phase := .serialized
        rsp := 0 }
      else faulted .bitbufFull s) := by
  have hcause := errCause_eq_zero herr (by simp [hp])
  rw [exec_eq_answer (i := .ser) nofun nofun (by simp [phaseTable, hp]), ruleOf, serRule_eq h]
  split
  · exact congrArg Host.Outcome.next (respond_zero nofun nofun nofun hcause)
  · exact answer_raise _

/-- Settles O33: by the variant, the fields of the tree, which `SER` appends after the placeholder or faults. -/
theorem serWritesPlaceholderAndFields : Obligations.SerWritesPlaceholderAndFields := by
  refine ⟨ruleHead_of_encode nofun nofun rfl, fun s hp herr hwf hne => ?_⟩
  unfold TreeWf at hwf
  cases hv : s.tree.variant <;> simp only [hv] at hwf hne
  case none => exact absurd rfl hne
  case empty =>
    have hfs : headerFields s.tree = .ok [15] := by simp only [headerFields, hv]
    exact ⟨[15], exec_ser_derived hp herr hfs, fun _ => rfl, nofun, nofun⟩
  case single =>
    obtain ⟨-, ⟨x, hx⟩, -⟩ := hwf
    have hsym : symOf (leafOf x) = some x := dif_pos x.isLt
    have hfs : headerFields s.tree = .ok [14, x.val] := by simp only [headerFields, hv, hx, Option.bind_some, hsym]
    refine ⟨[14, x.val], exec_ser_derived hp herr hfs, nofun, fun y _ hy => ?_, nofun⟩
    obtain rfl : x = y := leafOf_injective (Option.some.inj (hx.symm.trans hy))
    rfl
  case full =>
    obtain ⟨r, hfull⟩ := hwf
    refine ⟨treeFields s.tree r, exec_ser_derived hp herr (headerFields_fullTree hfull), nofun, nofun, fun q _ hq => ?_⟩
    obtain rfl : r = q := Option.some.inj (hfull.root_eq.symm.trans hq)
    refine ⟨treeFields_length _ _, fun n hn => ?_⟩
    have hlt : n.val < (treeFields s.tree r).length := by simpa using hn
    rw [List.getElem?_eq_getElem hlt, getElem_treeFields hlt]
    rfl

end Sys2Proof.Machine

/-! ## Node files are determined by the parents (R30, R31)

The first slot of a node holds its smallest child and the second slot a larger one, so files whose `PARENT` and `CHILD` agree are equal
where their parents are. -/

namespace Sys2Proof.Machine

open Sys2Proof Sys2Proof.Safety

section

variable {t : Tree} {m : Nat} {p n : NodeId}

theorem LinkedBelow.first_slot_iff (h : LinkedBelow t m) :
    childOf t p false = some n ↔ t.parent[n] = some p ∧ ∀ q : NodeId, t.parent[q] = some p → n ≤ q := by
  constructor
  · intro hn
    refine ⟨h.parent_of_child hn, fun q hq => ?_⟩
    obtain ⟨b, hb⟩ := h.child_of_parent hq
    cases b
    · exact (Option.some.inj (hn.symm.trans hb)).le
    · exact (h.slots_ascend p n q hn hb).le
  · rintro ⟨hn, hleast⟩
    obtain ⟨b, hb⟩ := h.child_of_parent hn
    cases b
    · exact hb
    · cases ha : childOf t p false with
      | none => exact absurd (h.first_slot_first p ha) (by simp [hb])
      | some a => exact absurd (h.slots_ascend p a n ha hb) (hleast a (h.parent_of_child ha)).not_gt

theorem LinkedBelow.second_slot_iff (h : LinkedBelow t m) :
    childOf t p true = some n ↔ t.parent[n] = some p ∧ ∃ q : NodeId, t.parent[q] = some p ∧ q < n := by
  constructor
  · intro hn
    refine ⟨h.parent_of_child hn, ?_⟩
    cases ha : childOf t p false with
    | none => exact absurd (h.first_slot_first p ha) (by simp [hn])
    | some a => exact ⟨a, h.parent_of_child ha, h.slots_ascend p a n ha hn⟩
  · rintro ⟨hn, q, hq, hqn⟩
    obtain ⟨b, hb⟩ := h.child_of_parent hn
    cases b
    · exact absurd hqn ((h.first_slot_iff.1 hb).2 q hq).not_gt
    · exact hb

theorem LinkedBelow.childOf_eq {u : Tree} {m' : Nat} (h : LinkedBelow t m) (h' : LinkedBelow u m')
    (hparent : t.parent = u.parent) (p : NodeId) (b : Bool) : childOf t p b = childOf u p b := by
  refine Option.ext fun n => ?_
  cases b
  · rw [h.first_slot_iff, h'.first_slot_iff, hparent]
  · rw [h.second_slot_iff, h'.second_slot_iff, hparent]

end

/-- The child file is what `childOf` reads of the internal nodes. -/
theorem child_eq_of_childOf {t u : Tree} (h : ∀ (p : NodeId) (b : Bool), childOf t p b = childOf u p b) :
    t.child = u.child := by
  refine Vector.ext fun i hi => ?_
  have h11 : 11 ≤ 11 + i := Nat.le_add_right _ _
  have hslot (b : Bool) := h ⟨11 + i, by omega⟩ b
  simp only [childOf, h11, dite_true, Nat.add_sub_cancel_left] at hslot
  exact Prod.ext (hslot false) (hslot true)

/-- A finished tree's node files agree with each other. -/
theorem linkedBelow_of_fullTree {t : Tree} {r : NodeId} (h : FullTree t r) : LinkedBelow t (r.val + 1) where
  parent_range n p hp := ⟨(h.parent_range n p hp).1, Nat.lt_succ_of_le (h.parent_range n p hp).2⟩
  child_iff := h.child_iff
  slots_ascend p a b ha hb := by
    obtain ⟨h11, hr⟩ := h.parent_range a p ((h.child_iff a p).1 (.inl ha))
    obtain ⟨c, d, hc, hd, hcd⟩ := h.children p h11 hr
    rwa [Option.some.inj (ha.symm.trans hc), Option.some.inj (hb.symm.trans hd)]
  first_slot_first p hp := by
    by_contra hb
    obtain ⟨b, hb⟩ := Option.ne_none_iff_exists'.1 hb
    obtain ⟨h11, hr⟩ := h.parent_range b p ((h.child_iff b p).1 (.inr hb))
    obtain ⟨c, -, hc, -⟩ := h.children p h11 hr
    rw [hp] at hc
    cases hc

/-! ### The node files that a header spells -/

/-- A field names the parent; `ABSENT` names none, as there is no node 21. -/
theorem parent_eq_some_iff_of_fieldOf {t : Tree} {n p : NodeId} {v : Nat} (h : fieldOf t n = .ok v) :
    t.parent[n] = some p ↔ p.val = 11 + v := by
  rcases fieldOf_ok_iff.1 h with ⟨hn, -, rfl⟩ | ⟨q, hq, h11, rfl⟩
  · have := p.isLt
    rw [hn]
    simp
    omega
  · rw [hq, Option.some.injEq, Fin.ext_iff]
    omega

/-- The node files in which the nodes below `i`, and no other, are linked as the header's fields say. -/
structure LinkedFields (buf : List Bool) (i : Nat) (r : NodeId) (t : Tree) : Prop where
  linked : LinkedBelow t (r.val + 1)
  field : ∀ n : NodeId, n.val < i → fieldOf t n = .ok (headerField buf n.val)
  rest : ∀ n : NodeId, i ≤ n.val → t.parent[n] = none
  weight : t.weight = Vector.replicate 21 0

/-- Stage D makes them. -/
theorem linkedFields_of_linkAll {buf : List Bool} {i : Nat} {r : NodeId} {t : Tree}
    (h : linkAll r (allNodes.zip (fieldList buf 0 i)) Tree.reset = .ok t) : LinkedFields buf i r t := by
  obtain ⟨hlink, hfield, hrest, hweight⟩ := linkAll_reset h
  refine ⟨hlink, fun n hn => ?_, fun n hn => hrest n (by simpa using hn), hweight⟩
  rw [hfield n (by simpa using hn), getElem_fieldList]

section

variable {buf : List Bool} {i : Nat} {r : NodeId} {t u : Tree}

theorem LinkedFields.parent_iff (h : LinkedFields buf i r t) {n p : NodeId} :
    t.parent[n] = some p ↔ n.val < i ∧ p.val = 11 + headerField buf n.val := by
  by_cases hn : n.val < i
  · rw [parent_eq_some_iff_of_fieldOf (h.field n hn), and_iff_right hn]
  · simp [h.rest n (Nat.not_lt.1 hn), hn]

theorem LinkedFields.parent_eq (h : LinkedFields buf i r t) (h' : LinkedFields buf i r u) : t.parent = u.parent :=
  Vector.ext fun j hj => Option.ext fun p => by
    have hn := h.parent_iff (n := ⟨j, hj⟩) (p := p)
    exact hn.trans h'.parent_iff.symm

/-- A header spells one tree. -/
theorem LinkedFields.child_eq (h : LinkedFields buf i r t) (h' : LinkedFields buf i r u) : t.child = u.child :=
  child_eq_of_childOf (h.linked.childOf_eq h'.linked (h.parent_eq h'))

/-- The second slot of `p` is filled once two nodes have named `p`. -/
theorem LinkedFields.second_slot_ne_none_iff (h : LinkedFields buf i r t) (hi : i ≤ 21) {p : NodeId} {v : Nat}
    (hp : p.val = 11 + v) :
    childOf t p true ≠ none ↔ ∃ a b, a < b ∧ b < i ∧ headerField buf a = v ∧ headerField buf b = v := by
  rw [Option.ne_none_iff_exists']
  constructor
  · rintro ⟨n, hn⟩
    obtain ⟨hnp, q, hq, hqn⟩ := h.linked.second_slot_iff.1 hn
    obtain ⟨hni, hnv⟩ := h.parent_iff.1 hnp
    obtain ⟨-, hqv⟩ := h.parent_iff.1 hq
    exact ⟨q.val, n.val, hqn, hni, by omega, by omega⟩
  · rintro ⟨a, b, hab, hb, hav, hbv⟩
    have named (j : Nat) (hj : j < i) (hv : headerField buf j = v) : t.parent[(⟨j, by omega⟩ : NodeId)] = some p :=
      h.parent_iff.2 ⟨hj, by simp only [hv, hp]⟩
    exact ⟨⟨b, by omega⟩, h.linked.second_slot_iff.2 ⟨named b hb hbv, _, named a (hab.trans hb) hav, hab⟩⟩

end

end Sys2Proof.Machine

/-! ## Where stage D breaks (R178, R180) -/

namespace Sys2Proof.Machine

open Sys2Proof Sys2Proof.Safety

/-! ### One turn -/

section

variable {r n p : NodeId} {v : Nat} {t : Tree}

theorem linkNode_absent (h : n.val ≤ 10 ∧ v = 10) : linkNode r n v t = .ok t := if_pos h

theorem linkNode_above (hv : ¬ (n.val ≤ 10 ∧ v = 10)) (h : r.val < 11 + v) : linkNode r n v t = .error .noSuchNode := by
  rw [linkNode, if_neg hv, dif_neg (by omega)]

theorem linkNode_third (hv : ¬ (n.val ≤ 10 ∧ v = 10)) (hp : p.val = 11 + v) (hr : p ≤ r)
    (h0 : childOf t p false ≠ none) (h1 : childOf t p true ≠ none) : linkNode r n v t = .error .thirdChild := by
  have hle : 11 + v ≤ r.val := hp ▸ hr
  have hnamed : (⟨11 + v, by omega⟩ : NodeId) = p := Fin.ext hp.symm
  rw [linkNode, if_neg hv, dif_pos hle]
  simp only [hnamed, if_neg h0, if_neg h1]

theorem linkNode_free (hv : ¬ (n.val ≤ 10 ∧ v = 10)) (hp : p.val = 11 + v) (hr : p ≤ r) (h1 : childOf t p true = none) :
    ∃ u, linkNode r n v t = .ok u := by
  have hle : 11 + v ≤ r.val := hp ▸ hr
  have hnamed : (⟨11 + v, by omega⟩ : NodeId) = p := Fin.ext hp.symm
  rw [linkNode, if_neg hv, dif_pos hle]
  simp only [hnamed, if_pos h1]
  split
  · exact ⟨_, rfl⟩
  · exact ⟨_, rfl⟩

end

/-! ### What breaks a turn -/

theorem namesParent_iff {s : State} {i : Nat} : namesParent s i = true ↔ ¬ (i ≤ 10 ∧ fieldAt s i = 10) := by
  rw [namesParent, Bool.not_eq_true', Bool.eq_false_iff, Ne, Bool.and_eq_true, decide_eq_true_iff, beq_iff_eq]

/-- Two of the first `i` numbers have a property. -/
theorem two_le_length_filter_range {i : Nat} {P : Nat → Bool} :
    2 ≤ ((List.range i).filter P).length ↔ ∃ a b, a < b ∧ b < i ∧ P a = true ∧ P b = true := by
  have hcard : ((List.range i).filter P).length = ((Finset.range i).filter fun j => P j = true).card := by
    rw [← List.toFinset_card_of_nodup (List.nodup_range.filter _)]
    congr 1
    ext j
    simp
  rw [hcard]
  refine Finset.one_lt_card_iff.trans ⟨?_, ?_⟩
  · rintro ⟨a, b, ha, hb, hab⟩
    obtain ⟨hai, ha⟩ := Finset.mem_filter.1 ha
    obtain ⟨hbi, hb⟩ := Finset.mem_filter.1 hb
    rcases lt_or_gt_of_ne hab with h | h
    · exact ⟨a, b, h, Finset.mem_range.1 hbi, ha, hb⟩
    · exact ⟨b, a, h, Finset.mem_range.1 hai, hb, ha⟩
  · rintro ⟨a, b, hab, hb, hPa, hPb⟩
    exact ⟨a, b, Finset.mem_filter.2 ⟨Finset.mem_range.2 (hab.trans hb), hPa⟩,
      Finset.mem_filter.2 ⟨Finset.mem_range.2 hb, hPb⟩, hab.ne⟩

/-- The statement's count of the smaller nodes that have named the same parent. -/
theorem two_le_namers_iff {s : State} {i v : Nat} (hv : v ≠ 10) :
    2 ≤ ((List.range i).filter fun j => namesParent s j && fieldAt s j == v).length ↔
      ∃ a b, a < b ∧ b < i ∧ headerField s.bitbuf a = v ∧ headerField s.bitbuf b = v := by
  have hnames (j : Nat) : (namesParent s j && fieldAt s j == v) = true ↔ headerField s.bitbuf j = v := by
    rw [Bool.and_eq_true, namesParent_iff, beq_iff_eq, fieldAt_eq]
    exact and_iff_right_of_imp fun hj habsent => hv (hj.symm.trans habsent.2)
  simp only [two_le_length_filter_range, hnames]

section

variable {s : State} {r : NodeId} (hr : r.val = 9 + leavesPresent s)
include hr

/-- A field that does not break the linking is linked. -/
theorem linkNode_of_not_breaks {i : NodeId} {t : Tree} (h : LinkedFields s.bitbuf i.val r t) (hb : ¬ breaksLinking s i.val) :
    ∃ u, linkNode r i (headerField s.bitbuf i.val) t = .ok u := by
  by_cases habsent : i.val ≤ 10 ∧ headerField s.bitbuf i.val = 10
  · exact ⟨t, linkNode_absent habsent⟩
  rw [breaksLinking, and_iff_right (namesParent_iff.2 habsent), not_or, ← hr, fieldAt_eq] at hb
  obtain ⟨hle, hcount⟩ := hb
  obtain ⟨p, hp⟩ : ∃ p : NodeId, p.val = 11 + headerField s.bitbuf i.val := ⟨⟨_, by omega⟩, rfl⟩
  rw [two_le_namers_iff (by omega), ← h.second_slot_ne_none_iff i.isLt.le hp, not_not] at hcount
  exact linkNode_free habsent hp (Fin.le_def.2 (by omega)) hcount

/-- A field that breaks the linking is reported, a parent above the root before a third child (R179). -/
theorem linkNode_of_breaks {i : NodeId} {t : Tree} (h : LinkedFields s.bitbuf i.val r t) (hb : breaksLinking s i.val) :
    linkNode r i (headerField s.bitbuf i.val) t =
      .error (if 9 + leavesPresent s < 11 + fieldAt s i.val then .noSuchNode else .thirdChild) := by
  obtain ⟨hnames, hb⟩ := hb
  have hnames := namesParent_iff.1 hnames
  rw [← hr, fieldAt_eq] at *
  split
  · next habove => exact linkNode_above hnames habove
  · next hle =>
    obtain ⟨p, hp⟩ : ∃ p : NodeId, p.val = 11 + headerField s.bitbuf i.val := ⟨⟨_, by omega⟩, rfl⟩
    have hsecond := (h.second_slot_ne_none_iff i.isLt.le hp).2 ((two_le_namers_iff (by omega)).1 (hb.resolve_left hle))
    exact linkNode_third hnames hp (Fin.le_def.2 (by omega)) (fun h0 => hsecond (h.linked.first_slot_first p h0)) hsecond

end

/-! ### The turns of stage D -/

theorem linkAll_append (r : NodeId) (l l' : List (NodeId × Nat)) (t : Tree) :
    linkAll r (l ++ l') t = linkAll r l t >>= linkAll r l' := by
  induction l generalizing t with
  | nil => rfl
  | cons x xs ih =>
    rw [List.cons_append, linkAll, linkAll]
    cases linkNode r x.1 x.2 t with
    | error e => rfl
    | ok u => exact ih u

/-- The turns before node `i`, its turn, and the turns after it. -/
theorem zip_fieldList_split (buf : List Bool) (i : NodeId) (m : Nat) :
    allNodes.zip (fieldList buf 0 (i.val + 1 + m)) = allNodes.zip (fieldList buf 0 i.val) ++
      (i, headerField buf i.val) :: (allNodes.drop (i.val + 1)).zip (fieldList buf (i.val + 1) m) := by
  have hi : i.val < allNodes.length := by simp [allNodes]
  have hnodes : allNodes = allNodes.take i.val ++ i :: allNodes.drop (i.val + 1) := by
    conv_lhs => rw [← List.take_append_drop i.val allNodes, List.drop_eq_getElem_cons hi]
    simp [allNodes]
  have hlen : (allNodes.take i.val).length = (fieldList buf 0 i.val).length := by
    rw [fieldList_length, List.length_take, Nat.min_eq_left hi.le]
  have hfields : fieldList buf 0 (i.val + 1 + m) =
      fieldList buf 0 i.val ++ headerField buf i.val :: fieldList buf (i.val + 1) m := by
    rw [Nat.add_assoc, Nat.add_comm 1 m, ← fieldList_append, Nat.zero_add, fieldList_succ]
  have hbefore : allNodes.zip (fieldList buf 0 i.val) = (allNodes.take i.val).zip (fieldList buf 0 i.val) := by
    have hzip := List.zip_append (r₁ := i :: allNodes.drop (i.val + 1)) (r₂ := []) hlen
    rwa [← hnodes, List.append_nil, List.zip_nil_right, List.append_nil] at hzip
  rw [hfields, hbefore]
  conv_lhs => rw [hnodes]
  rw [List.zip_append hlen, List.zip_cons_cons]

section

variable {s : State} {r : NodeId} (hr : r.val = 9 + leavesPresent s)
include hr

/-- Stage D completes for the nodes before the first that breaks it. -/
theorem linkAll_of_not_breaks {i : Nat} (hi : i ≤ 21) (hb : ∀ j, j < i → ¬ breaksLinking s j) :
    ∃ u, linkAll r (allNodes.zip (fieldList s.bitbuf 0 i)) Tree.reset = .ok u := by
  induction i with
  | zero => exact ⟨Tree.reset, by simp [fieldList, linkAll]⟩
  | succ i ih =>
    obtain ⟨u, hu⟩ := ih (by omega) fun j hj => hb j (by omega)
    obtain ⟨n, rfl⟩ : ∃ n : NodeId, n.val = i := ⟨⟨i, by omega⟩, rfl⟩
    obtain ⟨w, hw⟩ := linkNode_of_not_breaks hr (linkedFields_of_linkAll hu) (hb n.val (Nat.lt_succ_self _))
    refine ⟨w, ?_⟩
    rw [← Nat.add_zero (n.val + 1), zip_fieldList_split, linkAll_append, hu]
    simp only [bind, Except.bind, linkAll, hw, fieldList, List.range'_zero, List.map_nil, List.zip_nil_right]

/-- The first node that breaks stage D is the one reported. -/
theorem linkAll_of_breaks {i : Nat} (hi : i < r.val) (hb : breaksLinking s i) (hfirst : ∀ j, j < i → ¬ breaksLinking s j) :
    linkAll r (allNodes.zip (fieldList s.bitbuf 0 r.val)) Tree.reset =
      .error (if 9 + leavesPresent s < 11 + fieldAt s i then .noSuchNode else .thirdChild) := by
  obtain ⟨n, rfl⟩ : ∃ n : NodeId, n.val = i := ⟨⟨i, by omega⟩, rfl⟩
  obtain ⟨u, hu⟩ := linkAll_of_not_breaks hr (by omega) hfirst
  obtain ⟨m, hm⟩ : ∃ m, r.val = n.val + 1 + m := ⟨r.val - (n.val + 1), by omega⟩
  rw [hm, zip_fieldList_split, linkAll_append, hu]
  simp only [bind, Except.bind, linkAll, linkNode_of_breaks hr (linkedFields_of_linkAll hu) hb]

/-- A parent walk that reaches the root is the statement's walk by the fields. -/
theorem climbFields_of_climbParents {t : Tree} (h : LinkedFields s.bitbuf r.val r t) {k : Nat} {n : NodeId}
    (hn : climbParents t r k (some n) = some r) : climbFields s k n.val = 9 + leavesPresent s := by
  induction k generalizing n with
  | zero =>
    obtain rfl : n = r := Option.some.inj hn
    exact hr
  | succ k ih =>
    by_cases hnr : n = r
    · subst hnr
      rw [climbFields, if_pos hr, ih (climbParents_root t n k)]
    · obtain ⟨p, hp, hk⟩ := (climbParents_succ_eq_root hnr).1 hn
      have hne : n.val ≠ 9 + leavesPresent s := fun hv => hnr (Fin.ext (hv.trans hr.symm))
      rw [climbFields, if_neg hne, fieldAt_eq, ← (h.parent_iff.1 hp).2, ih hk]

end

/-- Settles O39: stage D stops at the first node that breaks it; where none does, stage E is the walk by the fields. -/
theorem parStructureFaults : Obligations.ParStructureFaults := by
  intro s hp hreset hk hlegal
  have hkeq := leavesPresent_eq s
  have hk11 := leafCount_le s.bitbuf
  obtain ⟨r, hr⟩ : ∃ r : NodeId, r.val = 9 + leavesPresent s := ⟨⟨_, by omega⟩, rfl⟩
  obtain ⟨h7, h0⟩ := hlegal 0 (by omega)
  have hparse := parseFull_fields (t := Tree.reset) (hkeq ▸ hr) (hkeq ▸ hk) fun j hj => hlegal j (hr ▸ hj)
  refine ⟨fun i hi hb hfirst => ?_, fun hnone n h11 hn hclimb => ?_⟩
  · refine exec_par_full_fault hp h7 h0 ?_
    rw [hreset, hparse, linkAll_of_breaks hr (by omega) hb hfirst]
    rfl
  · refine exec_par_full_fault hp h7 h0 ?_
    obtain ⟨u, hu⟩ := linkAll_of_not_breaks hr (by omega) fun j hj => hnone j (hr ▸ hj)
    obtain ⟨m, rfl⟩ : ∃ m : NodeId, m.val = n := ⟨⟨n, by omega⟩, rfl⟩
    have hstuck : ¬ allReachRoot u r (leafCount s.bitbuf) = true := fun hall =>
      hclimb (climbFields_of_climbParents hr (linkedFields_of_linkAll hu)
        (climbParents_of_allReachRoot (hkeq ▸ hall) m h11 (Fin.lt_def.2 (by omega))))
    rw [hreset, hparse, hu]
    exact if_neg hstuck

/-! ## A finished tree is rebuilt (R182, R184) -/

section

variable {s : State} {r : NodeId} {T : Tree}

/-- No field of linked node files breaks the linking: no node has three children. -/
theorem LinkedFields.not_breaks (h : LinkedFields s.bitbuf r.val r T) (hr : r.val = 9 + leavesPresent s) {i : Nat}
    (hi : i < r.val) : ¬ breaksLinking s i := by
  obtain ⟨n, rfl⟩ : ∃ n : NodeId, n.val = i := ⟨⟨i, by omega⟩, rfl⟩
  rintro ⟨hnames, hb⟩
  have hnames := namesParent_iff.1 hnames
  obtain ⟨p, hp⟩ : ∃ p, T.parent[n] = some p := by
    refine (fieldOf_ok_iff.1 (h.field n hi)).elim (fun hnone => ?_) fun ⟨p, hp, _⟩ => ⟨p, hp⟩
    exact absurd hnone.2 hnames
  obtain ⟨-, hpv⟩ := h.parent_iff.1 hp
  have hple := (h.linked.parent_range n p hp).2
  rcases hb with habove | hcount
  · rw [fieldAt_eq] at habove
    omega
  · rw [fieldAt_eq] at hcount
    obtain ⟨a, b, hab, hbn, ha, hb⟩ := (two_le_namers_iff (by omega)).1 hcount
    have hparent (c : Nat) (hc : c < n.val) (hv : headerField s.bitbuf c = headerField s.bitbuf n.val) :
        T.parent[(⟨c, by omega⟩ : NodeId)] = some p := h.parent_iff.2 ⟨hc.trans hi, by simp only [hv, hpv]⟩
    have hslot : childOf T p true = some ⟨b, by omega⟩ :=
      h.linked.second_slot_iff.2 ⟨hparent b hbn hb, _, hparent a (by omega) ha, hab⟩
    have hslot' : childOf T p true = some n :=
      h.linked.second_slot_iff.2 ⟨hp, _, hparent a (by omega) ha, hab.trans hbn⟩
    exact hbn.ne (Fin.ext_iff.1 (Option.some.inj (hslot.symm.trans hslot')))

theorem allReachRoot_of_fullTree (h : FullTree T r) : allReachRoot T r T.k.toNat = true := by
  refine List.all_eq_true.2 fun n hn => ?_
  obtain ⟨hmem, hlt⟩ := List.mem_filter.1 hn
  have h11 : ∀ m ∈ internalIds, 11 ≤ m.val := by decide
  have hparent := (h.inner_parent n (h11 n hmem)).2 (by simpa using hlt)
  rw [h.reaches_root n (.inr hparent), beq_self_eq_true]

theorem allReachRoot_congr {u : Tree} (h : u.parent = T.parent) (k : Nat) : allReachRoot u r k = allReachRoot T r k := by
  simp only [allReachRoot, climbParents_congr h]

/-- The leaves of a finished tree are those its header says are present. -/
theorem leafCount_of_fullTree {buf : List Bool} (h : FullTree T r) (hfields : LinkedFields buf r.val r T) :
    leafCount buf = T.k.toNat := by
  obtain ⟨hk2, hr⟩ := h.root_val
  rw [leafCount, ← h.leaf_count, linkedLeaves_eq_presentLeaves (inner := []) (fieldList_length buf 0 11)]
  intro n hn
  have hn11 : n.val < 11 := by simpa using hn
  rw [hfields.field n (by omega)]
  simp [fieldList]

end

/-- The header of a finished tree, where it is written, spells the node files of the tree. -/
theorem linkedFields_of_fullTree {T : Tree} {r : NodeId} (h : FullTree T r) (hweight : T.weight = Vector.replicate 21 0)
    {p : Nat} {rest : List Bool} :
    LinkedFields (natBits 3 p ++ (treeFields T r).flatMap (natBits 4) ++ rest) r.val r T where
  linked := linkedBelow_of_fullTree h
  field n hn := by
    have hlt : n.val < (treeFields T r).length := by simpa using hn
    have hget : (treeFields T r)[n.val] = parentField T n := getElem_treeFields hlt
    have hle := parentField_le T n
    rw [headerField_written p rest hlt (by omega), hget]
    exact fieldOf_fullTree h hn
  rest n hn := by
    obtain ⟨hk2, hr⟩ := h.root_val
    have hnot : ¬ n < r := Nat.not_lt.2 hn
    simpa [hnot] using h.inner_parent n (by omega)
  weight := hweight

/-- Every field of linked node files is in range: the leaves' up to `ABSENT`, the inner nodes' up to 9 (R106). -/
theorem LinkedFields.field_le {buf : List Bool} {r : NodeId} {T : Tree} (h : LinkedFields buf r.val r T) {j : Nat}
    (hj : j < r.val) : headerField buf j ≤ fieldTop j := by
  have hfield := fieldOf_ok_iff.1 (h.field ⟨j, by omega⟩ hj)
  rcases hfield with ⟨-, hle, hv⟩ | ⟨q, -, -, hv⟩
  · rw [fieldTop_leaf hle]
    exact hv.le
  · have hq : q.val - 11 ≤ 9 := by omega
    exact (hv.le.trans hq).trans (by unfold fieldTop; split <;> omega)

/-- The header of linked node files that are a finished tree is parsed to that tree. -/
theorem parseFull_fullTree {s : State} {T : Tree} {r : NodeId} {limit : Nat} (h : FullTree T r)
    (hfields : LinkedFields s.bitbuf r.val r T) (hlimit : 3 + 4 * r.val ≤ limit) :
    parseFull s.bitbuf limit 7 (headerField s.bitbuf 0) Tree.reset = .ok (T, 3 + 4 * r.val) := by
  obtain ⟨hk2, hrk⟩ := h.root_val
  have hleaf := leafCount_of_fullTree h hfields
  have hr : r.val = 9 + leavesPresent s := by rw [leavesPresent_eq, hleaf, hrk]
  obtain ⟨u, hu⟩ := linkAll_of_not_breaks hr (i := r.val) (by omega) fun j hj => hfields.not_breaks hr hj
  have hu' := linkedFields_of_linkAll hu
  have hparent := hu'.parent_eq hfields
  have hlegal (j : Nat) (hj : j < r.val) : FieldLegal s.bitbuf limit (fieldTop j) j := ⟨by omega, hfields.field_le hj⟩
  have hk : BitVec.ofNat 4 T.k.toNat = T.k := by simp
  have hnext : BitVec.ofNat 5 (r.val + 1) = T.nextId := by simp [← h.nextId_eq]
  rw [parseFull_fields (hleaf ▸ hrk) (hleaf ▸ hk2) hlegal, hu]
  simp only [bind, Except.bind]
  rw [hleaf, allReachRoot_congr hparent, if_pos (allReachRoot_of_fullTree h), hk, hnext, hparent, hu'.child_eq hfields,
    hu'.weight.trans hfields.weight.symm, ← h.root_eq, ← h.variant_full]

/-- Settles O35: the header of a finished tree spells its node files, stage D rebuilds them, and they pass stage E. -/
theorem parRebuildsEveryFinishedTree : Obligations.ParRebuildsEveryFinishedTree := by
  intro s T r fs p rest hp herr hreset hfull hweight hfs hp8 hbits hlen
  obtain rfl : treeFields T r = fs := Except.ok.inj ((headerFields_fullTree hfull).symm.trans hfs)
  have hfields : LinkedFields s.bitbuf r.val r T := hbits ▸ linkedFields_of_fullTree hfull hweight
  have hpad : bitRead s.bitbuf 0 3 = p := by rw [hbits, List.append_assoc, bitRead_pad hp8]
  obtain ⟨hk2, hr⟩ := hfull.root_val
  have h0 : headerField s.bitbuf 0 ≤ 10 := hfields.field_le (by omega)
  rw [treeFields_length] at hlen ⊢
  refine exec_par_parsed hp herr (by omega) hpad ?_
  rw [hreset, parseHeader_full (by omega) h0]
  exact parseFull_fullTree hfull hfields (by omega)

end Sys2Proof.Machine

/-! ## Every symbol of the stream has a code (R201, R202, R212) -/

namespace Sys2Proof.Machine

open Sys2Proof Sys2Proof.Safety

theorem getElem_set_sym {α : Type} (v : Vector α 11) (a n : Sym) (x : α) : (v.set a x)[n] = if a = n then x else v[n] := by
  simp [Fin.getElem_fin, Vector.getElem_set, Fin.ext_iff]

/-- The walk of R200 only adds bits. -/
theorem climbCode_length_le {t : Tree} {fuel : Nat} {n : NodeId} {acc w : List Bool} (h : climbCode t fuel n acc = some w) :
    acc.length ≤ w.length := by
  fun_induction climbCode t fuel n acc
  case case1 | case3 => exact (congrArg List.length (Option.some.inj h)).le
  case case5 ih => exact (Nat.le_succ _).trans (ih h)
  all_goals cases h

/-- The walk from a leaf below the root records at least one bit. -/
theorem codeOf_ne_nil {t : Tree} {x : Sym} {w : List Bool} (hroot : t.root ≠ some (leafOf x)) (h : codeOf t x = some w) :
    w ≠ [] := by
  unfold codeOf climbCode at h
  rw [if_neg hroot] at h
  split at h
  · cases h
  · split at h
    · exact List.ne_nil_of_length_pos (climbCode_length_le h)
    · cases h

/-- `DRV` on a `FULL` tree (R202): the code of every leaf in the tree is its path; symbols not yet met keep theirs. -/
theorem deriveLoop_ok {t : Tree} {syms : List Sym} {codes codes' : Vector (List Bool) 11}
    (h : deriveLoop t syms codes = .ok codes') (hnodup : syms.Nodup) :
    (∀ x ∈ syms, t.parent[leafOf x] ≠ none → codeOf t x = some codes'[x]) ∧ ∀ x, x ∉ syms → codes'[x] = codes[x] := by
  induction syms generalizing codes with
  | nil => cases h; simp
  | cons s ss ih =>
    obtain ⟨hs, hss⟩ := List.nodup_cons.1 hnodup
    unfold deriveLoop at h
    split at h
    · next hnone =>
      obtain ⟨hin, hout⟩ := ih h hss
      refine ⟨List.forall_mem_cons.2 ⟨fun hx => absurd hnone hx, hin⟩, fun x hx => hout x fun hmem => hx ?_⟩
      exact List.mem_cons_of_mem _ hmem
    · split at h
      · cases h
      · next w hw =>
        obtain ⟨hin, hout⟩ := ih h hss
        refine ⟨List.forall_mem_cons.2 ⟨fun _ => ?_, hin⟩, fun x hx => ?_⟩
        · rw [hout s hs, getElem_set_sym, if_pos rfl, hw]
        · obtain ⟨hne, hmem⟩ := not_or.1 (mt List.mem_cons.2 hx)
          rw [hout x hmem, getElem_set_sym, if_neg (Ne.symm hne)]

theorem deriveCodes_of_single {t : Tree} {x : Sym} {codes : Vector (List Bool) 11} (hv : t.variant = .single)
    (hr : t.root = some (leafOf x)) (h : deriveCodes t = .ok codes) : codes[x] = [false] := by
  have hsym : symOf (leafOf x) = some x := dif_pos x.isLt
  simp only [deriveCodes, hv, hr, Option.bind_some, hsym, Except.ok.injEq] at h
  rw [← h, getElem_set_sym, if_pos rfl]

theorem deriveCodes_of_full {t : Tree} {r : NodeId} {x : Sym} {codes : Vector (List Bool) 11} (hfull : FullTree t r)
    (hx : t.parent[leafOf x] ≠ none) (h : deriveCodes t = .ok codes) : codes[x] ≠ [] := by
  obtain ⟨hk, hr⟩ := hfull.root_val
  have hroot : t.root ≠ some (leafOf x) := by
    rw [hfull.root_eq, Ne, Option.some.injEq]
    intro hrx
    have := hrx ▸ leafOf_lt x
    omega
  simp only [deriveCodes, hfull.variant_full] at h
  exact codeOf_ne_nil hroot ((deriveLoop_ok h allSyms_nodup).1 x (List.mem_finRange x) hx)

/-- The codes of the tree of a stream's counts: every symbol of the stream is in the tree, so it has one. -/
theorem code_ne_nil_of_mem {S : List Sym} {codes : Vector (List Bool) 11}
    (h : deriveCodes (buildTree (countSyms S) Tree.reset) = .ok codes) {x : Sym} (hx : x ∈ S) : codes[x] ≠ [] := by
  have hpos : 0 < (countSyms S)[x] := by rw [getElem_countSyms]; exact List.count_pos_iff.2 hx
  have hmem : x ∈ presentSyms (countSyms S) := mem_presentSyms.2 hpos
  match hsyms : presentSyms (countSyms S) with
  | [] => simp [hsyms] at hmem
  | [y] =>
    obtain rfl : x = y := by simpa [hsyms] using hmem
    rw [buildTree_of_one_symbol _ hsyms] at h
    simp [deriveCodes_of_single rfl rfl h]
  | y :: z :: rest =>
    have hK : 2 ≤ (presentSyms (countSyms S)).length := by simp [hsyms]
    obtain ⟨t, r, hforest, ht⟩ := buildTree_full hK
    rw [ht] at h
    exact deriveCodes_of_full (hforest.fullTree hK) (Option.ne_none_iff_isSome.2 ((hforest.isSome_parent_leaf hK x).2 hpos)) h

end Sys2Proof.Machine

/-! ## The faults a run can meet (R183, R212, R278)

`ErrorsIn` says of a computation which errors it can end in, and goes through its sequences. It is shown of every own rule, with the faults
that a run can meet. -/

namespace Sys2Proof.Machine

open Sys2Proof Sys2Proof.Safety

/-- Every error the computation can end in has the property. -/
def ErrorsIn {ε α : Type} (P : ε → Prop) (x : Except ε α) : Prop := ∀ e, x = .error e → P e

theorem errorsIn_ok {ε α : Type} {P : ε → Prop} (a : α) : ErrorsIn P (.ok a : Except ε α) := nofun

theorem errorsIn_error {ε α : Type} {P : ε → Prop} {e : ε} (h : P e) : ErrorsIn P (.error e : Except ε α) := by
  rintro _ ⟨⟩
  exact h

theorem ErrorsIn.bind {ε α β : Type} {P : ε → Prop} {x : Except ε α} {f : α → Except ε β} (hx : ErrorsIn P x)
    (hf : ∀ a, x = .ok a → ErrorsIn P (f a)) : ErrorsIn P (x >>= f) := by
  cases x with
  | error e => exact errorsIn_error (hx e rfl)
  | ok a => exact hf a rfl

/-- The faults a run can meet: not `NODE_COUNT`, not `NO_CODE`, and with unbounded buffers no `CapacityError`. -/
def RunFault (c : Config) (e : ErrCode) : Prop := e ≠ .nodeCount ∧ e ≠ .noCode ∧ (c = Config.reference → causeCode e ≠ 7)

/-- The same of the end of a rule; that the model does not stop is no matter here. -/
def RunStop (c : Config) : Stop → Prop
  | .raise e => RunFault c e
  | .stuck _ => True

/-- A fault of another kind than these is met in any configuration. -/
theorem runFault_of_cause {c : Config} {e : ErrCode} (h : e ≠ .nodeCount ∧ e ≠ .noCode ∧ causeCode e ≠ 7) : RunFault c e :=
  ⟨h.1, h.2.1, fun _ => h.2.2⟩

/-- A full buffer is met only where it is bounded (R65). -/
theorem runStop_of_not_fits {c : Config} {cap : Option Nat} {len n : Nat} (hcap : c = Config.reference → cap = none)
    (hf : ¬ fits cap len n = true) {e : ErrCode} (he : e ≠ .nodeCount ∧ e ≠ .noCode) : RunStop c (.raise e) :=
  ⟨he.1, he.2, fun hc => absurd (by rw [hcap hc, fits_none]) hf⟩

theorem errorsIn_fits {α : Type} {c : Config} {cap : Option Nat} {len n : Nat} {a : α} {e : ErrCode}
    (hcap : c = Config.reference → cap = none) (he : e ≠ .nodeCount ∧ e ≠ .noCode) :
    ErrorsIn (RunStop c) (if fits cap len n then .ok a else .error (.raise e)) := by
  split
  · exact errorsIn_ok a
  · next hf => exact errorsIn_error (runStop_of_not_fits hcap hf he)

/-! ### Appends -/

theorem symAppend_errorsIn (x : Sym) (s : State) : ErrorsIn (RunStop s.cfg) (symAppend x s) :=
  errorsIn_fits (fun hc => by rw [hc]; rfl) (by decide)

theorem bitAppend_errorsIn (bs : List Bool) (s : State) : ErrorsIn (RunStop s.cfg) (bitAppend bs s) :=
  errorsIn_fits (fun hc => by rw [hc]; rfl) (by decide)

theorem tokMinus_errorsIn (s : State) : ErrorsIn (RunStop s.cfg) (tokMinus s) := by
  unfold tokMinus
  split
  · exact errorsIn_error (runFault_of_cause (by decide))
  · exact errorsIn_ok _

theorem tokDigit_errorsIn (d : Fin 10) (s : State) : ErrorsIn (RunStop s.cfg) (tokDigit d s) := by
  rw [tokDigit_eq]
  exact errorsIn_fits (fun hc => by rw [hc]; rfl) (by decide)

theorem tokEnd_errorsIn (s : State) : ErrorsIn (RunStop s.cfg) (tokEnd s) := by
  by_cases hopen : s.recOpen = true ∧ s.recNd = true
  · rw [tokEnd_eq hopen.1 hopen.2]
    exact errorsIn_fits (fun hc => by rw [hc]; rfl) (by decide)
  · have hclosed : s.recOpen = false ∨ s.recNd = false := by simpa [imp_iff_not_or] using hopen
    rw [tokEnd, if_pos hclosed]
    exact errorsIn_error (runFault_of_cause (by decide))

theorem appendFields_errorsIn (fs : List Nat) (s : State) : ErrorsIn (RunStop s.cfg) (appendFields fs s) := by
  rw [appendFields_eq]
  exact errorsIn_fits (fun hc => by rw [hc]; rfl) (by decide)

/-- Where every symbol has a code, `ENC` meets no `NO_CODE`. -/
theorem appendCodes_errorsIn {S : List Sym} {s : State} (h : ∀ x ∈ S, s.code[x] ≠ []) :
    ErrorsIn (RunStop s.cfg) (appendCodes S s) := by
  induction S generalizing s with
  | nil => exact errorsIn_ok s
  | cons x xs ih =>
    obtain ⟨hx, hxs⟩ := List.forall_mem_cons.1 h
    rw [appendCodes, if_neg hx]
    refine (bitAppend_errorsIn _ s).bind fun u hu => ?_
    obtain ⟨-, rfl⟩ := bitAppend_ok.1 hu
    exact ih hxs

/-! ### The tree decoder (R178) -/

section

variable {c : Config} {buf : List Bool} {limit : Nat}

theorem read4_errorsIn (pos : Nat) : ErrorsIn (RunFault c) (read4 buf limit pos) := by
  unfold read4
  split
  · exact errorsIn_error (runFault_of_cause (by decide))
  · exact errorsIn_ok _

theorem readFields_errorsIn (top n pos : Nat) : ErrorsIn (RunFault c) (readFields buf limit top n pos) := by
  induction n generalizing pos with
  | zero => exact errorsIn_ok _
  | succ n ih =>
    refine (read4_errorsIn pos).bind fun x _ => ?_
    dsimp only
    split
    · exact errorsIn_error (runFault_of_cause (by decide))
    · exact (ih x.2).bind fun y _ => errorsIn_ok _

theorem linkNode_errorsIn (r n : NodeId) (v : Nat) (t : Tree) : ErrorsIn (RunFault c) (linkNode r n v t) := by
  unfold linkNode
  split
  · exact errorsIn_ok _
  · split
    · dsimp only
      split
      · exact errorsIn_ok _
      · split
        · exact errorsIn_ok _
        · exact errorsIn_error (runFault_of_cause (by decide))
    · exact errorsIn_error (runFault_of_cause (by decide))

theorem linkAll_errorsIn (r : NodeId) (l : List (NodeId × Nat)) (t : Tree) : ErrorsIn (RunFault c) (linkAll r l t) := by
  induction l generalizing t with
  | nil => exact errorsIn_ok t
  | cons x xs ih => exact (linkNode_errorsIn r x.1 x.2 t).bind fun u _ => ih u

theorem parseFull_errorsIn (pos f0 : Nat) (t : Tree) : ErrorsIn (RunFault c) (parseFull buf limit pos f0 t) := by
  refine (readFields_errorsIn 10 10 pos).bind fun leaves _ => ?_
  dsimp only
  split
  · exact errorsIn_error (runFault_of_cause (by decide))
  · refine (readFields_errorsIn 9 _ leaves.2).bind fun inner _ => (linkAll_errorsIn _ _ t).bind fun u _ => ?_
    split
    · exact errorsIn_ok _
    · exact errorsIn_error (runFault_of_cause (by decide))

theorem parseHeader_errorsIn (t : Tree) : ErrorsIn (RunFault c) (parseHeader buf limit t) := by
  refine (read4_errorsIn 3).bind fun first _ => ?_
  dsimp only
  split
  · exact errorsIn_ok _
  split
  · refine (read4_errorsIn first.2).bind fun symbol _ => ?_
    split
    · exact errorsIn_ok _
    · exact errorsIn_error (runFault_of_cause (by decide))
  split
  · exact errorsIn_error (runFault_of_cause (by decide))
  · exact parseFull_errorsIn _ _ t

/-- No rule of the decoder raises `NODE_COUNT`: the ids are counted from the present leaves, which are at most eleven (R183). -/
theorem parseBlob_errorsIn (t : Tree) : ErrorsIn (RunFault c) (parseBlob buf t) := by
  unfold parseBlob
  split
  · exact errorsIn_error (runFault_of_cause (by decide))
  · exact (parseHeader_errorsIn t).bind fun x _ => errorsIn_ok _

end

/-! ### Codes, fields, symbols and records -/

section

variable {c : Config}

theorem deriveLoop_errorsIn (t : Tree) (syms : List Sym) (codes : Vector (List Bool) 11) :
    ErrorsIn (RunStop c) (deriveLoop t syms codes) := by
  fun_induction deriveLoop t syms codes
  case case1 => exact errorsIn_ok _
  case case3 => exact errorsIn_error trivial
  all_goals assumption

theorem deriveCodes_errorsIn (t : Tree) : ErrorsIn (RunStop c) (deriveCodes t) := by
  unfold deriveCodes
  dsimp only
  split
  · exact errorsIn_ok _
  · exact errorsIn_ok _
  · split
    · exact errorsIn_error trivial
    · exact errorsIn_ok _
  · exact deriveLoop_errorsIn t _ _

theorem fieldOf_errorsIn (t : Tree) (n : NodeId) : ErrorsIn (RunStop c) (fieldOf t n) := by
  unfold fieldOf
  split
  all_goals
    split
    · exact errorsIn_ok _
    · exact errorsIn_error trivial

theorem fieldsOf_errorsIn (t : Tree) (ns : List NodeId) : ErrorsIn (RunStop c) (fieldsOf t ns) := by
  induction ns with
  | nil => exact errorsIn_ok _
  | cons n ns ih => exact (fieldOf_errorsIn t n).bind fun v _ => ih.bind fun vs _ => errorsIn_ok _

theorem headerFields_errorsIn (t : Tree) : ErrorsIn (RunStop c) (headerFields t) := by
  unfold headerFields
  split
  · exact errorsIn_error trivial
  · exact errorsIn_ok _
  · split
    · exact errorsIn_error trivial
    · exact errorsIn_ok _
  · split
    · exact errorsIn_error trivial
    · exact fieldsOf_errorsIn t _

section

variable {cap : Option Nat} (hcap : c = Config.reference → cap = none)
include hcap

theorem decodeSingle_errorsIn (x : Option Sym) (bs : List Bool) (out : List Sym) :
    ErrorsIn (RunStop c) (decodeSingle cap x bs out) := by
  fun_induction decodeSingle cap x bs out
  case case1 => exact errorsIn_ok _
  case case2 => exact errorsIn_error (runFault_of_cause (by decide))
  case case3 => exact errorsIn_error trivial
  case case4 hx _ ih => exact hx ▸ ih
  case case5 hf => exact errorsIn_error (runStop_of_not_fits hcap hf (by decide))

theorem decodeFull_errorsIn (t : Tree) (root : NodeId) (bs : List Bool) (at? : Option NodeId) (out : List Sym) :
    ErrorsIn (RunStop c) (decodeFull cap t root bs at? out) := by
  fun_induction decodeFull cap t root bs at? out
  case case1 => exact errorsIn_ok _
  case case2 => exact errorsIn_error (runFault_of_cause (by decide))
  case case3 => exact errorsIn_error trivial
  case case4 ih => exact ih
  case case5 ih => exact ih
  case case6 hf => exact errorsIn_error (runStop_of_not_fits hcap hf (by decide))

theorem decodeBody_errorsIn (t : Tree) (buf : List Bool) (hdrEnd limit : Nat) :
    ErrorsIn (RunStop c) (decodeBody cap t buf hdrEnd limit) := by
  unfold decodeBody
  split
  · exact errorsIn_ok _
  · split
    · exact errorsIn_ok _
    · exact errorsIn_error (runFault_of_cause (by decide))
  · split
    · exact errorsIn_error trivial
    · exact decodeSingle_errorsIn hcap _ _ _
  · split
    · exact errorsIn_error trivial
    · split
      · exact errorsIn_error trivial
      · exact decodeFull_errorsIn hcap t _ _ _ _

theorem reassembleLoop_errorsIn (S : List Sym) (g : List (Fin 10)) (recs : List Int) (otok : List Token) :
    ErrorsIn (RunStop c) (reassembleLoop cap S g recs otok) := by
  fun_induction reassembleLoop cap S g recs otok
  case case1 => exact errorsIn_ok _
  case case2 ih => exact ih
  case case3 => exact errorsIn_error (runFault_of_cause (by decide))
  case case4 ih => exact ih
  case case5 hf => exact errorsIn_error (runStop_of_not_fits hcap hf (by decide))

theorem reassemble_errorsIn (S : List Sym) : ErrorsIn (RunStop c) (reassemble cap S) := by
  unfold reassemble
  split
  · exact errorsIn_error (runFault_of_cause (by decide))
  · exact reassembleLoop_errorsIn hcap S _ _ _

end

end

/-! ### The own rules -/

section

variable (s : State)

theorem tokRule_errorsIn (t : BitVec 4) : ErrorsIn (RunStop s.cfg) (tokRule t s) := by
  unfold tokRule
  dsimp only
  split
  all_goals refine ErrorsIn.bind ?_ fun u _ => errorsIn_ok _
  · exact errorsIn_error (runFault_of_cause (by decide))
  · exact tokMinus_errorsIn s
  · exact tokDigit_errorsIn _ s
  · exact tokEnd_errorsIn s

theorem symRule_errorsIn (x : BitVec 4) : ErrorsIn (RunStop s.cfg) (symRule x s) := by
  unfold symRule
  split
  · exact errorsIn_error (runFault_of_cause (by decide))
  · split
    · exact errorsIn_error (runFault_of_cause (by decide))
    · exact (symAppend_errorsIn _ s).bind fun u _ => errorsIn_ok _

theorem cntRule_errorsIn : ErrorsIn (RunStop s.cfg) (cntRule s) := by
  unfold cntRule
  split
  · exact errorsIn_error (runFault_of_cause (by decide))
  · exact errorsIn_ok _

theorem drvRule_errorsIn : ErrorsIn (RunStop s.cfg) (drvRule s) := by
  unfold drvRule
  split
  · next e he => exact errorsIn_error (deriveCodes_errorsIn s.tree e he)
  · exact errorsIn_ok _

theorem serRule_errorsIn : ErrorsIn (RunStop s.cfg) (serRule s) := by
  refine (headerFields_errorsIn s.tree).bind fun fs _ => (bitAppend_errorsIn _ { s with bitbuf := [] }).bind fun u hu => ?_
  obtain ⟨-, rfl⟩ := bitAppend_ok.1 hu
  exact (appendFields_errorsIn fs _).bind fun v _ => errorsIn_ok _

/-- In `SERIALIZED` every symbol has a code: the tree is that of the symbols' counts (R212). -/
theorem encRule_errorsIn (h : PhaseHolds s) (hp : s.phase = .serialized) : ErrorsIn (RunStop s.cfg) (encRule s) := by
  simp only [PhaseHolds, hp] at h
  obtain ⟨hs, hcodes, -⟩ := h
  have htree : s.tree = buildTree (countSyms s.symbuf) Tree.reset := congrArg State.tree hs
  rw [htree] at hcodes
  exact (appendCodes_errorsIn fun x hx => code_ne_nil_of_mem hcodes hx).bind fun u _ => errorsIn_ok _

theorem finRule_errorsIn : ErrorsIn (RunStop s.cfg) (finRule s) := by
  refine (bitAppend_errorsIn _ { s with pad := padLength s.bitbuf.length }).bind fun u _ => ?_
  split
  · exact errorsIn_error trivial
  · exact errorsIn_ok _

theorem bytRule_errorsIn (b : Byte) : ErrorsIn (RunStop s.cfg) (bytRule b s) :=
  (bitAppend_errorsIn _ s).bind fun _ _ => errorsIn_ok _

theorem parRule_errorsIn : ErrorsIn (RunStop s.cfg) (parRule s) := by
  unfold parRule
  split
  · next e he => exact errorsIn_error (parseBlob_errorsIn s.tree e he)
  · exact errorsIn_ok _

theorem decRule_errorsIn : ErrorsIn (RunStop s.cfg) (decRule s) := by
  unfold decRule
  split
  · next e he => exact errorsIn_error (decodeBody_errorsIn (fun hc => by rw [hc]; rfl) _ _ _ _ e he)
  · exact errorsIn_ok _

theorem rasRule_errorsIn : ErrorsIn (RunStop s.cfg) (rasRule s) := by
  unfold rasRule
  split
  · next e he => exact errorsIn_error (reassemble_errorsIn (fun hc => by rw [hc]; rfl) _ e he)
  · exact errorsIn_ok _

theorem rdbRule_errorsIn : ErrorsIn (RunStop s.cfg) (rdbRule s) := by
  unfold rdbRule
  split
  · exact errorsIn_error (runFault_of_cause (by decide))
  · exact errorsIn_ok _

theorem rdtRule_errorsIn : ErrorsIn (RunStop s.cfg) (rdtRule s) := by
  unfold rdtRule
  split
  · exact errorsIn_error (runFault_of_cause (by decide))
  · exact errorsIn_ok _

end

/-- Of all own rules `ENC`'s alone needs what its phase promises. -/
theorem ruleOf_errorsIn {i : Instr} {s : State} (h : PhaseHolds s) (hl : legalIn i s.phase = true) :
    ErrorsIn (RunStop s.cfg) (ruleOf i s) := by
  cases i
  case stat | clr | bld => exact errorsIn_ok _
  case tok t => exact tokRule_errorsIn s t
  case sym x => exact symRule_errorsIn s x
  case cnt => exact cntRule_errorsIn s
  case drv => exact drvRule_errorsIn s
  case ser => exact serRule_errorsIn s
  case enc => exact encRule_errorsIn s h (by simpa [legalIn] using hl)
  case fin => exact finRule_errorsIn s
  case byt b => exact bytRule_errorsIn s b
  case par => exact parRule_errorsIn s
  case dec => exact decRule_errorsIn s
  case ras => exact rasRule_errorsIn s
  case rdb => exact rdbRule_errorsIn s
  case rdt => exact rdtRule_errorsIn s

/-! ### One step -/

/-- `ERR` is 0, or that of a fault a run can meet. -/
def ErrOfRun (c : Config) (t : State) : Prop :=
  t.errCause = 0 ∨ ∃ e, RunFault c e ∧ t.errCause = causeCode e ∧ t.errDetail = detailCode e

theorem errOfRun_raise {c : Config} {e : ErrCode} (h : RunFault c e) (s : State) : ErrOfRun c (s.raise e) :=
  .inr ⟨e, h, rfl, rfl⟩

theorem errCause_of_phaseHolds {s : State} (h : PhaseHolds s) (hf : s.phase ≠ .fault) : s.errCause = 0 := by
  cases hp : s.phase <;> simp only [PhaseHolds, hp] at h
  case fault => exact absurd hp hf
  case idle | counted | built => exact congrArg State.errCause h
  all_goals exact congrArg State.errCause h.1

section

variable {s t : State} (h : PhaseHolds s) (hf : s.phase ≠ .fault)
include h hf

theorem exec_errOfRun {i : Instr} (ht : exec i s = .next t) : ErrOfRun s.cfg t := by
  have hzero := errCause_of_phaseHolds h hf
  by_cases h1 : i = .stat
  · subst h1; cases ht
    exact .inl hzero
  by_cases h2 : i = .clr
  · subst h2; cases ht
    exact .inl rfl
  rw [exec_eq_command h1 h2] at ht
  rcases command_next ht with ⟨hfault, -⟩ | ⟨-, hl, u, d, hr, rfl⟩ | ⟨-, e, rfl, ⟨hr, hl⟩ | ⟨rfl, -⟩⟩
  · exact absurd hfault hf
  · obtain ⟨-, ⟨hcause, -⟩, -⟩ := ruleOf_frame h1 h2 hl hr
    exact .inl (hcause.trans hzero)
  · exact errOfRun_raise (ruleOf_errorsIn h hl _ hr) s
  · exact errOfRun_raise (runFault_of_cause (by decide)) s

theorem takeCommand_errOfRun {w : Word} (ht : takeCommand w s = .next t) : ErrOfRun s.cfg t := by
  unfold takeCommand at ht
  split at ht
  · cases ht
    rw [illFormed, if_neg hf]
    exact errOfRun_raise (runFault_of_cause (by decide)) s
  · exact exec_errOfRun h hf ht

theorem step_errOfRun (ht : step s = .next t) : ErrOfRun s.cfg t := by
  unfold step at ht
  split at ht
  · cases ht
    exact .inl (errCause_of_phaseHolds h hf)
  · cases ht
    exact .inl rfl
  · next w rest _ => exact takeCommand_errOfRun (s := { s with inbox := rest }) (phaseHolds_port s.rsp rest h) hf ht

end

/-- No other fault has the code of `NODE_COUNT` or of `NO_CODE` (R270 to R274). -/
theorem eq_of_fault_code (e : ErrCode) :
    ((causeCode e, detailCode e) = (causeCode .nodeCount, detailCode .nodeCount) → e = .nodeCount) ∧
      ((causeCode e, detailCode e) = (causeCode .noCode, detailCode .noCode) → e = .noCode) := by
  cases e <;> decide

/-- Settles O60: a step ends with `ERR` 0 or in a fault that a run can meet. -/
theorem unreachableFaultsAreNeverRaised : Obligations.UnreachableFaultsAreNeverRaised := by
  intro s t h hf ht
  rcases step_errOfRun h hf ht with hzero | ⟨e, ⟨hnode, hcode, hcap⟩, hcause, hdetail⟩
  · rw [hzero]
    have hnode : (0 : BitVec 3) ≠ causeCode .nodeCount := by decide
    have hcode : (0 : BitVec 3) ≠ causeCode .noCode := by decide
    exact ⟨fun heq => hnode (congrArg Prod.fst heq), fun heq => hcode (congrArg Prod.fst heq), fun _ => by decide⟩
  · rw [hcause, hdetail]
    exact ⟨fun heq => hnode ((eq_of_fault_code e).1 heq), fun heq => hcode ((eq_of_fault_code e).2 heq), hcap⟩

end Sys2Proof.Machine

/-! ## Code paths of a finished tree (R200)

`CodePath` climbs from a node to the root; `nodeFrom` descends the same path from the root. In a finished tree the two agree, so a node has
one path and the walk of R200 finds it. -/

namespace Sys2Proof.Machine

open Sys2Proof Sys2Proof.Safety

/-- The node that a bit sequence leads to from `n`, one child slot per bit. -/
def nodeFrom (t : Tree) (n : NodeId) (w : List Bool) : Option NodeId := w.foldlM (childOf t) n

@[simp] theorem nodeFrom_nil (t : Tree) (n : NodeId) : nodeFrom t n [] = some n := rfl

theorem nodeFrom_cons (t : Tree) (n : NodeId) (b : Bool) (w : List Bool) :
    nodeFrom t n (b :: w) = (childOf t n b).bind fun m => nodeFrom t m w := List.foldlM_cons

theorem nodeFrom_append (t : Tree) (n : NodeId) (u v : List Bool) :
    nodeFrom t n (u ++ v) = (nodeFrom t n u).bind fun m => nodeFrom t m v := List.foldlM_append

theorem nodeFrom_concat (t : Tree) (n : NodeId) (w : List Bool) (b : Bool) :
    nodeFrom t n (w ++ [b]) = (nodeFrom t n w).bind fun m => childOf t m b := by
  simp [nodeFrom_append, nodeFrom_cons]

/-- No bit leads on from a leaf. -/
theorem nodeFrom_leaf {t : Tree} {x : Sym} {w : List Bool} (hw : w ≠ []) : nodeFrom t (leafOf x) w = none := by
  obtain ⟨b, w, rfl⟩ := List.exists_cons_of_ne_nil hw
  rw [nodeFrom_cons, childOf_leaf b (leafOf_lt x), Option.bind_none]

theorem symOf_eq_some {n : NodeId} {x : Sym} : symOf n = some x ↔ n = leafOf x := by
  simp only [symOf, Option.dite_none_right_eq_some, Option.some.injEq]
  exact ⟨fun ⟨_, hx⟩ => hx ▸ rfl, fun hn => hn ▸ ⟨leafOf_lt x, rfl⟩⟩

theorem walkFrom_eq_some {t : Tree} {n : NodeId} {w : List Bool} {x : Sym} :
    walkFrom t n w = some x ↔ nodeFrom t n w = some (leafOf x) := by
  induction w generalizing n with
  | nil => rw [walkFrom, nodeFrom_nil, Option.some.injEq, symOf_eq_some]
  | cons b w ih =>
    rw [nodeFrom_cons, walkFrom]
    cases childOf t n b with
    | none => simp
    | some m => exact ih

/-- A node has one path to the root, since it has one parent. -/
theorem codePath_unique {t : Tree} {n : NodeId} {u v : List Bool} (hu : CodePath t n u) (hv : CodePath t n v) : u = v := by
  induction hu generalizing v with
  | root r hr =>
    cases hv with
    | root => rfl
    | step _ _ _ hn => exact absurd hr hn
  | step n p w hn hp _ ih =>
    cases hv with
    | root _ hr => exact absurd hr hn
    | step _ q v' _ hq hv' =>
      obtain rfl : p = q := Option.some.inj (hp.symm.trans hq)
      rw [ih hv']

section

variable {t : Tree} {r : NodeId} (h : FullTree t r)
include h

theorem parent_root_of_fullTree : t.parent[r] = none := by
  have hr : 11 ≤ r.val := by have := h.root_val; omega
  simpa using (h.inner_parent r hr).not.2 (lt_irrefl r)

theorem ne_root_of_parent {n p : NodeId} (hp : t.parent[n] = some p) : n ≠ r := by
  rintro rfl
  simp [parent_root_of_fullTree h] at hp

theorem leafOf_ne_root (x : Sym) : leafOf x ≠ r := by
  have := h.root_val
  exact fun hx => absurd (hx ▸ leafOf_lt x) (by omega)

/-- The bit that R200 records names the slot the node stands in. -/
theorem childOf_eq_iff_of_fullTree {p n : NodeId} {b : Bool} :
    childOf t p b = some n ↔ t.parent[n] = some p ∧ b = if childOf t p false = some n then false else true := by
  have hlink := linkedBelow_of_fullTree h
  constructor
  · intro hc
    refine ⟨hlink.parent_of_child hc, ?_⟩
    cases b with
    | false => rw [if_pos hc]
    | true => rw [if_neg fun hf => lt_irrefl n (hlink.slots_ascend p n n hf hc)]
  · rintro ⟨hp, rfl⟩
    split
    · assumption
    · next hf => exact ((h.child_iff n p).2 hp).resolve_left hf

/-- Climbing from a node and descending from the root are the same path. -/
theorem codePath_iff_nodeFrom {n : NodeId} {w : List Bool} : CodePath t n w ↔ nodeFrom t r w = some n := by
  constructor
  · intro hw
    induction hw with
    | root q hq => exact hq ▸ h.root_eq.symm
    | step n p w _ hp _ ih => rw [nodeFrom_concat, ih]; exact (childOf_eq_iff_of_fullTree h).2 ⟨hp, rfl⟩
  · intro hw
    induction w using List.reverseRecOn generalizing n with
    | nil => exact .root n (h.root_eq.trans hw)
    | append_singleton w b ih =>
      rw [nodeFrom_concat, Option.bind_eq_some_iff] at hw
      obtain ⟨p, hw, hc⟩ := hw
      obtain ⟨hp, rfl⟩ := (childOf_eq_iff_of_fullTree h).1 hc
      have hn : t.root ≠ some n := fun hn => ne_root_of_parent h hp (Option.some.inj (hn.symm.trans h.root_eq))
      exact .step n p w hn hp (ih hw)

/-- A node of the tree has a path: its parents reach the root (R157). -/
theorem exists_codePath {n : NodeId} {k : Nat} (hk : climbParents t r k (some n) = some r) : ∃ w, CodePath t n w := by
  induction k generalizing n with
  | zero => exact ⟨[], .root n (h.root_eq.trans hk.symm)⟩
  | succ k ih =>
    by_cases hn : n = r
    · exact ⟨[], .root n (hn ▸ h.root_eq)⟩
    · obtain ⟨p, hp, hk⟩ := (climbParents_succ_eq_root hn).1 hk
      obtain ⟨w, hw⟩ := ih hk
      exact ⟨_, .step n p w (fun hr => hn (Option.some.inj (hr.symm.trans h.root_eq))) hp hw⟩

/-- A path is not longer than any climb that reaches the root. -/
theorem codePath_length_le_climb {n : NodeId} {w : List Bool} {k : Nat} (hw : CodePath t n w)
    (hk : climbParents t r k (some n) = some r) : w.length ≤ k := by
  induction hw generalizing k with
  | root => exact Nat.zero_le k
  | step n p w hn hp _ ih =>
    have hnr : n ≠ r := fun hnr => hn (hnr ▸ h.root_eq)
    cases k with
    | zero => exact absurd (Option.some.inj hk) hnr
    | succ k =>
      rw [climbParents_succ k hnr hp] at hk
      rw [List.length_append]
      exact Nat.succ_le_succ (ih hk)

theorem codePath_length_le {n : NodeId} {w : List Bool} (hw : CodePath t n w) : w.length ≤ t.k.toNat - 1 := by
  refine codePath_length_le_climb h hw (h.reaches_root n ?_)
  cases hw with
  | root _ hr => exact .inl (Option.some.inj (hr.symm.trans h.root_eq))
  | step _ p _ _ hp => exact .inr (Option.isSome_of_eq_some hp)

theorem climbCode_of_codePath {n : NodeId} {w acc : List Bool} {fuel : Nat} (hw : CodePath t n w) (hlen : w.length ≤ fuel) :
    climbCode t fuel n acc = some (w ++ acc) := by
  induction hw generalizing fuel acc with
  | root r hr => cases fuel <;> simp [climbCode, hr]
  | step n p w hn hp _ ih =>
    rw [List.length_append, List.length_singleton] at hlen
    obtain ⟨fuel, rfl⟩ : ∃ k, fuel = k + 1 := ⟨fuel - 1, by omega⟩
    have hbit : slotBit t p n = if childOf t p false = some n then false else true := by
      by_cases hf : childOf t p false = some n <;> simp [slotBit, hf]
    simp only [climbCode, hn, hp, (h.parent_range n p hp).1, if_true, if_false]
    rw [ih (by omega), hbit, List.append_assoc, List.singleton_append]

/-- The walk of R200 ends within its 20 steps, at the path. -/
theorem climbCode_eq_path {n : NodeId} {w : List Bool} (hw : CodePath t n w) : climbCode t 20 n [] = some w := by
  have hlen := codePath_length_le h hw
  have := h.root_val
  rw [climbCode_of_codePath h hw (by omega), List.append_nil]

theorem exists_codePath_of_parent {n : NodeId} (hp : t.parent[n].isSome) : ∃ w, CodePath t n w :=
  exists_codePath h (h.reaches_root n (.inr hp))

end

end Sys2Proof.Machine

/-! ## The code table of a finished tree (R200, R204, R205) -/

namespace Sys2Proof.Machine

open Sys2Proof Sys2Proof.Safety

section

variable {t : Tree} {r : NodeId} {codes : Vector (List Bool) 11} (h : FullTree t r) (hc : CodesOf t codes)
include h hc

theorem codesOf_full (x : Sym) : if t.parent[leafOf x] = none then codes[x] = [] else CodePath t (leafOf x) codes[x] := by
  rw [CodesOf, h.variant_full] at hc
  exact hc x

/-- The paths to the leaf of a symbol are its code, where it has one. -/
theorem codePath_leaf_iff {x : Sym} {w : List Bool} : CodePath t (leafOf x) w ↔ codes[x] = w ∧ w ≠ [] := by
  have hx := codesOf_full h hc x
  constructor
  · intro hw
    have hlinked : t.parent[leafOf x] ≠ none ∧ w ≠ [] := by
      cases hw with
      | root _ hr => exact absurd (Option.some.inj (hr.symm.trans h.root_eq)) (leafOf_ne_root h x)
      | step _ p w _ hp => simp [hp]
    rw [if_neg hlinked.1] at hx
    exact ⟨codePath_unique hx hw, hlinked.2⟩
  · rintro ⟨rfl, hne⟩
    split at hx
    · exact absurd hx hne
    · exact hx

theorem nodeFrom_leaf_iff {x : Sym} {w : List Bool} : nodeFrom t r w = some (leafOf x) ↔ codes[x] = w ∧ w ≠ [] :=
  (codePath_iff_nodeFrom h).symm.trans (codePath_leaf_iff h hc)

theorem code_ne_nil_iff {x : Sym} : codes[x] ≠ [] ↔ t.parent[leafOf x].isSome := by
  rw [← Option.ne_none_iff_isSome]
  have hx := codesOf_full h hc x
  split at hx
  · next hnone => simp [hx, hnone]
  · next hsome => exact iff_of_true ((codePath_leaf_iff h hc).1 hx).2 hsome

theorem codePath_code {x : Sym} (hx : codes[x] ≠ []) : CodePath t (leafOf x) codes[x] := (codePath_leaf_iff h hc).2 ⟨rfl, hx⟩

/-- A code ends at a leaf, and no bit leads on from there. -/
theorem eq_of_code_isPrefix {x y : Sym} (hx : codes[x] ≠ []) (hy : codes[y] ≠ []) (hxy : codes[x] <+: codes[y]) : x = y := by
  obtain ⟨v, hv⟩ := hxy
  have hnx := (nodeFrom_leaf_iff h hc).2 ⟨rfl, hx⟩
  have hny := (nodeFrom_leaf_iff h hc).2 ⟨rfl, hy⟩
  rw [← hv, nodeFrom_append, hnx, Option.bind_some] at hny
  by_cases hne : v = []
  · rw [hne, nodeFrom_nil, Option.some.injEq] at hny
    exact leafOf_injective hny
  · rw [nodeFrom_leaf hne] at hny
    cases hny

end

/-- Settles O32: the walk ends at a leaf exactly when its bits are the path to it. -/
theorem lookupInvertsTheCodeTable : Obligations.LookupInvertsTheCodeTable := by
  intro t r codes h hc w x
  rw [lookup, h.root_eq]
  exact walkFrom_eq_some.trans (nodeFrom_leaf_iff h hc)

end Sys2Proof.Machine

/-! ## The Kraft sum (R204)

A node at depth `d` has mass `1 / 2 ^ d`. The mass of an internal node is that of its two children, so the mass of all nodes below the root
is that of all internal nodes, and what the leaves have is left for the root. -/

namespace Sys2Proof.Machine

open Sys2Proof Sys2Proof.Safety

theorem mem_linkedNodes {t : Tree} {n : NodeId} : n ∈ linkedNodes t ↔ t.parent[n].isSome := by
  simp only [linkedNodes, Finset.mem_filter, Finset.mem_univ, true_and]

/-- `1 / 2 ^ d` for a node at depth `d`. -/
def nodeMass (t : Tree) (n : NodeId) : ℚ := 1 / 2 ^ ((climbCode t 20 n []).getD []).length

section

variable {t : Tree} {r : NodeId} (h : FullTree t r)
include h

theorem nodeMass_eq {n : NodeId} {w : List Bool} (hw : CodePath t n w) : nodeMass t n = 1 / 2 ^ w.length := by
  rw [nodeMass, climbCode_eq_path h hw, Option.getD_some]

theorem nodeMass_root : nodeMass t r = 1 := by
  rw [nodeMass_eq h (.root r h.root_eq)]
  norm_num

theorem exists_codePath_inner {p : NodeId} (h11 : 11 ≤ p.val) (hp : p ≤ r) : ∃ w, CodePath t p w := by
  rcases hp.eq_or_lt with rfl | hp
  · exact ⟨[], .root p h.root_eq⟩
  · exact exists_codePath_of_parent h ((h.inner_parent p h11).2 hp)

theorem nodeMass_child {p n : NodeId} {b : Bool} (hn : childOf t p b = some n) : nodeMass t n = nodeMass t p / 2 := by
  have hp := ((childOf_eq_iff_of_fullTree h).1 hn).1
  obtain ⟨h11, hpr⟩ := h.parent_range n p hp
  obtain ⟨w, hw⟩ := exists_codePath_inner h h11 hpr
  have hwn : CodePath t n (w ++ [b]) := by
    rw [codePath_iff_nodeFrom h] at hw ⊢
    rw [nodeFrom_concat, hw]
    exact hn
  rw [nodeMass_eq h hwn, nodeMass_eq h hw, List.length_append, List.length_singleton, pow_succ, div_div]

/-- The nodes with parent `p` are its two children. -/
theorem sum_nodeMass_children {p : NodeId} (h11 : 11 ≤ p.val) (hp : p ≤ r) :
    ∑ n ∈ linkedNodes t with t.parent[n] = some p, nodeMass t n = nodeMass t p := by
  obtain ⟨a, b, ha, hb, hab⟩ := h.children p h11 hp
  have hchildren : (linkedNodes t).filter (fun n => t.parent[n] = some p) = {a, b} := by
    ext n
    have hn : n ∈ linkedNodes t ∧ t.parent[n] = some p ↔ t.parent[n] = some p :=
      and_iff_right_of_imp fun hn => mem_linkedNodes.2 (Option.isSome_of_eq_some hn)
    rw [Finset.mem_filter, hn, ← h.child_iff, ha, hb]
    simp [eq_comm]
  rw [hchildren, Finset.sum_pair hab.ne, nodeMass_child h ha, nodeMass_child h hb, add_halves]

theorem sum_nodeMass_linked : ∑ n ∈ linkedNodes t, nodeMass t n = ∑ p ∈ Finset.Icc 11 r, nodeMass t p := by
  have hmaps : ∀ n ∈ linkedNodes t, t.parent[n] ∈ (Finset.Icc 11 r).map .some := by
    intro n hn
    obtain ⟨p, hp⟩ := Option.isSome_iff_exists.1 (mem_linkedNodes.1 hn)
    exact Finset.mem_map.2 ⟨p, Finset.mem_Icc.2 (h.parent_range n p hp), hp.symm⟩
  rw [← Finset.sum_fiberwise_of_maps_to hmaps, Finset.sum_map]
  refine Finset.sum_congr rfl fun p hp => ?_
  obtain ⟨h11, hpr⟩ := Finset.mem_Icc.1 hp
  exact sum_nodeMass_children h h11 hpr

/-- The linked nodes are leaves and the internal nodes below the root. -/
theorem sum_nodeMass_linked_split :
    ∑ n ∈ linkedNodes t, nodeMass t n =
      ((allSyms.filter fun x => t.parent[leafOf x].isSome).map fun x => nodeMass t (leafOf x)).sum +
        ∑ p ∈ Finset.Ico 11 r, nodeMass t p := by
  have hleaves : (linkedNodes t).filter (fun n => n.val < 11) =
      (allSyms.filter fun x => t.parent[leafOf x].isSome).toFinset.image leafOf := by
    ext n
    simp only [Finset.mem_filter, mem_linkedNodes, Finset.mem_image, List.mem_toFinset, List.mem_filter]
    constructor
    · rintro ⟨hn, hlt⟩
      exact ⟨⟨n.val, hlt⟩, ⟨List.mem_finRange _, hn⟩, rfl⟩
    · rintro ⟨x, ⟨-, hx⟩, rfl⟩
      exact ⟨hx, leafOf_lt x⟩
  have hinner : (linkedNodes t).filter (fun n => ¬ n.val < 11) = Finset.Ico 11 r := by
    ext n
    rw [Finset.mem_filter, mem_linkedNodes, Finset.mem_Ico, and_comm]
    exact (and_congr_left' Nat.not_lt).trans (and_congr_right fun h11 => h.inner_parent n h11)
  rw [← Finset.sum_filter_add_sum_filter_not _ fun n => n.val < 11, hleaves, hinner,
    Finset.sum_image leafOf_injective.injOn, List.sum_toFinset _ (allSyms_nodup.filter _)]

theorem sum_nodeMass_leaves :
    ((allSyms.filter fun x => t.parent[leafOf x].isSome).map fun x => nodeMass t (leafOf x)).sum = 1 := by
  have hr : (11 : NodeId) ≤ r := Fin.le_def.2 (by have := h.root_val; simp; omega)
  have hsplit := sum_nodeMass_linked_split h
  rw [sum_nodeMass_linked h, ← Finset.sum_Ico_add_eq_sum_Icc hr, nodeMass_root h] at hsplit
  linarith

end

/-- Settles O31: a code is the path to its leaf, not longer than the climb, with nothing below; the Kraft sum is the mass of the leaves. -/
theorem codesArePrefixFreeAndComplete : Obligations.CodesArePrefixFreeAndComplete := by
  intro t r codes h hc
  refine ⟨fun x hx => ?_, fun x y hxy hx hy hpre => hxy (eq_of_code_isPrefix h hc hx hy hpre), ?_⟩
  · have hne := (code_ne_nil_iff h hc).2 hx
    exact ⟨List.length_pos_iff.2 hne, codePath_length_le h (codePath_code h hc hne)⟩
  · refine Eq.trans (congrArg List.sum ?_) (sum_nodeMass_leaves h)
    have hcoded : (allSyms.filter fun x => codes[x] ≠ []) = allSyms.filter fun x => t.parent[leafOf x].isSome :=
      List.filter_congr fun x _ => Bool.eq_iff_iff.2 (decide_eq_true_iff.trans (code_ne_nil_iff h hc))
    rw [← hcoded]
    refine List.map_congr_left fun x hx => ?_
    exact (nodeMass_eq h (codePath_code h hc (by simpa using (List.mem_filter.1 hx).2))).symm

end Sys2Proof.Machine

/-! ## `DRV` (R201, R202) -/

namespace Sys2Proof.Machine

open Sys2Proof Sys2Proof.Safety

theorem deriveLoop_succeeds {t : Tree} {syms : List Sym} (codes : Vector (List Bool) 11)
    (h : ∀ x ∈ syms, t.parent[leafOf x] ≠ none → codeOf t x ≠ none) : ∃ codes', deriveLoop t syms codes = .ok codes' := by
  induction syms generalizing codes with
  | nil => exact ⟨codes, rfl⟩
  | cons s ss ih =>
    obtain ⟨hs, hss⟩ := List.forall_mem_cons.1 h
    unfold deriveLoop
    split
    · exact ih codes hss
    · next hp =>
      obtain ⟨w, hw⟩ := Option.ne_none_iff_exists'.1 (hs hp)
      rw [hw]
      exact ih _ hss

/-- A symbol without a parent keeps its entry. -/
theorem deriveLoop_keeps {t : Tree} {syms : List Sym} {codes codes' : Vector (List Bool) 11} {x : Sym}
    (h : deriveLoop t syms codes = .ok codes') (hx : t.parent[leafOf x] = none) : codes'[x] = codes[x] := by
  induction syms generalizing codes with
  | nil => cases h; rfl
  | cons s ss ih =>
    unfold deriveLoop at h
    split at h
    · exact ih h
    · next hs =>
      have hne : s ≠ x := fun hsx => hs (hsx ▸ hx)
      split at h
      · cases h
      · rw [ih h, getElem_set_sym, if_neg hne]

theorem deriveCodes_full {t : Tree} {r : NodeId} (h : FullTree t r) : ∃ codes, deriveCodes t = .ok codes ∧ CodesOf t codes := by
  have hcode {x : Sym} (hx : t.parent[leafOf x] ≠ none) : ∃ w, CodePath t (leafOf x) w ∧ codeOf t x = some w := by
    obtain ⟨w, hw⟩ := exists_codePath_of_parent h (Option.ne_none_iff_isSome.1 hx)
    exact ⟨w, hw, climbCode_eq_path h hw⟩
  obtain ⟨codes, hloop⟩ := deriveLoop_succeeds (t := t) (syms := allSyms) (.replicate 11 []) fun x _ hx => by
    obtain ⟨w, -, hw⟩ := hcode hx
    simp [hw]
  refine ⟨codes, by simpa only [deriveCodes, h.variant_full] using hloop, ?_⟩
  rw [CodesOf, h.variant_full]
  intro x
  split
  · next hx => simpa using deriveLoop_keeps hloop hx
  · next hx =>
    obtain ⟨w, hpath, hw⟩ := hcode hx
    have hcodes := (deriveLoop_ok hloop allSyms_nodup).1 x (List.mem_finRange x) hx
    rwa [← Option.some.inj (hw.symm.trans hcodes)]

/-- A legal tree has its code table, which the rule of `DRV` finds. -/
theorem deriveCodes_of_treeWf {t : Tree} (h : TreeWf t) : ∃ codes, deriveCodes t = .ok codes ∧ CodesOf t codes := by
  unfold TreeWf at h
  cases hv : t.variant <;> simp only [hv] at h
  case none | empty => exact ⟨.replicate 11 [], by simp [deriveCodes, hv], by simp [CodesOf, hv]⟩
  case single =>
    obtain ⟨-, ⟨y, hy⟩, -⟩ := h
    have hsym : symOf (leafOf y) = some y := symOf_eq_some.2 rfl
    refine ⟨(Vector.replicate 11 []).set y [false], by simp [deriveCodes, hv, hy, hsym], ?_⟩
    rw [CodesOf, hv]
    intro x
    rw [getElem_set_sym]
    simp [hy, leafOf_injective.eq_iff]
  case full =>
    obtain ⟨r, hfull⟩ := h
    exact deriveCodes_full hfull

theorem exec_drv {s : State} {codes : Vector (List Bool) 11} (hp : s.phase = .built ∨ s.phase = .parsed) (herr : ErrWf s)
    (h : deriveCodes s.tree = .ok codes) :
    exec .drv s = .next { s with
      code := codes
      codeValid := true
      phase := if s.phase = .built then .derived else .parsed
      rsp := 0 } := by
  have hcause := errCause_eq_zero herr (by rcases hp with hp | hp <;> simp [hp])
  rw [exec_eq_answer (i := .drv) nofun nofun (by simpa [phaseTable] using hp), ruleOf, drvRule, h]
  rcases hp with hp | hp <;> simp only [hp, reduceCtorEq, if_true, if_false] <;>
    exact congrArg Host.Outcome.next (respond_zero nofun nofun nofun hcause)

/-- Settles O30: by the variant, the code table of the tree, which `DRV` writes. -/
theorem drvDerivesTheCodes : Obligations.DrvDerivesTheCodes := by
  refine ⟨ruleHead_of_encode nofun nofun rfl, fun s hp herr hwf => ?_⟩
  obtain ⟨codes, hcodes, hof⟩ := deriveCodes_of_treeWf hwf
  exact ⟨codes, exec_drv hp herr hcodes, hof⟩

end Sys2Proof.Machine

/-! ## The commands that fill the bit buffer: `ENC`, `FIN` and `BYT` (R212 to R214, R217) -/

namespace Sys2Proof.Machine

open Sys2Proof Sys2Proof.Safety

/-! ### The answer of a rule that appends or faults (R65, R95) -/

/-- A rule that goes to `u` where its cells fit and faults where they do not. -/
theorem answer_ite_raise {s u v : State} {e : ErrCode} (P : Prop) [Decidable P] (h : u.respond 0 = v) :
    answer (if P then .ok (u, 0) else .error (.raise e)) s = .next (if P then v else faulted e s) := by
  split
  · exact congrArg Host.Outcome.next h
  · exact answer_raise e

/-- What follows an append sees the bits in the buffer, or does not run. -/
theorem bitAppend_bind {α : Type} (bs : List Bool) (s : State) (k : State → Except Stop α) :
    (bitAppend bs s >>= k) =
      if fits s.cfg.bitbufCap s.bitbuf.length bs.length then k { s with bitbuf := s.bitbuf ++ bs }
      else .error (.raise .bitbufFull) := by
  rw [bitAppend_eq]
  split <;> rfl

/-- Where there is something to read a command without data answers with `MORE` alone (R95). -/
theorem respond_zero_more {s : State} (hf : s.phase ≠ .fault) (hm : moreBit s = true) (hc : s.errCause = 0) :
    s.respond 0 = { s with rsp := 0x4000 } := by
  have hr : respWord s 0 = 0x4000 := by
    rw [← beq_eq_false_iff_ne] at hf
    simp [respWord, faultBit, hf, hm, hc]
  rw [State.respond, hr]

/-! ### `ENC` (R212) -/

/-- `ENC`'s loop over symbols that all have a code: the codes fit together or the loop faults. -/
theorem appendCodes_eq {S : List Sym} {s : State} (h : ∀ x ∈ S, s.code[x] ≠ []) :
    appendCodes S s = if fits s.cfg.bitbufCap s.bitbuf.length (S.flatMap fun x => s.code[x]).length then
        .ok { s with bitbuf := s.bitbuf ++ S.flatMap fun x => s.code[x] }
      else .error (.raise .bitbufFull) := by
  induction S generalizing s with
  | nil => simp [appendCodes]
  | cons x xs ih =>
    obtain ⟨hx, hxs⟩ := List.forall_mem_cons.1 h
    rw [appendCodes, if_neg hx, bitAppend_bind, List.flatMap_cons, List.length_append]
    by_cases hfit : fits s.cfg.bitbufCap s.bitbuf.length s.code[x].length = true
    · rw [if_pos hfit]
      refine (ih ?_).trans ?_
      · exact hxs
      · simp only [fits_add, hfit, true_and, List.length_append, List.append_assoc]
    · rw [if_neg hfit, if_neg fun hall => hfit (fits_add.1 hall).1]

theorem appendCodes_append (S R : List Sym) (s : State) : appendCodes (S ++ R) s = appendCodes S s >>= appendCodes R := by
  induction S generalizing s with
  | nil => rfl
  | cons x xs ih =>
    rw [List.cons_append, appendCodes, appendCodes]
    split
    · rfl
    · rw [bitAppend_bind, bitAppend_bind]
      split
      · exact ih _
      · rfl

theorem exec_enc_answer {s : State} (hp : s.phase = .serialized) : exec .enc s = answer (encRule s) s :=
  exec_eq_answer nofun nofun (by simp [phaseTable, hp])

/-- In `SERIALIZED`, with a code for every symbol, `ENC` appends the codes and goes to `ENCODED`. -/
theorem exec_enc_serialized {s : State} (hp : s.phase = .serialized) (herr : ErrWf s) (h : ∀ x ∈ s.symbuf, s.code[x] ≠ []) :
    exec .enc s = .next (if fits s.cfg.bitbufCap s.bitbuf.length (s.symbuf.flatMap fun x => s.code[x]).length then
      { s with bitbuf := s.bitbuf ++ s.symbuf.flatMap (fun x => s.code[x]), phase := .encoded, rsp := 0 }
      else faulted .bitbufFull s) := by
  have hcause := errCause_eq_zero herr (by simp [hp])
  rw [exec_enc_answer hp, encRule, appendCodes_eq h]
  split
  · exact congrArg Host.Outcome.next (respond_zero nofun nofun nofun hcause)
  · exact answer_raise _

/-- Settles O40: the codes before the first symbol without one are appended first, and may be the ones that do not fit. -/
theorem encAppendsTheCodes : Obligations.EncAppendsTheCodes := by
  refine ⟨ruleHead_of_encode nofun nofun rfl, fun s hp herr => ⟨exec_enc_serialized hp herr, ?_⟩⟩
  intro before after x hS hbefore hx
  rw [exec_enc_answer hp, encRule, hS, appendCodes_append, appendCodes_eq hbefore]
  split
  · have hstop : appendCodes (x :: after) { s with bitbuf := s.bitbuf ++ before.flatMap fun y => s.code[y] } =
        .error (.raise .noCode) := if_pos hx
    simp only [bind, Except.bind, hstop, answer_raise]
  · exact answer_raise _

/-! ### `FIN` (R213, R214) -/

/-- The pad bits end the last byte (R213). -/
theorem add_padLength_mod (n : Nat) : (n + padLength n) % 8 = 0 := by
  unfold padLength
  omega

/-- The pad-length written over the placeholder, with the pad bits behind. -/
theorem bitWrite_pad {buf : List Bool} (h : 3 ≤ buf.length) (p : Nat) :
    bitWrite (buf ++ natBits p 0) 0 3 p = natBits 3 p ++ buf.drop 3 ++ List.replicate p false := by
  rw [bitWrite, List.take_zero, List.nil_append, Nat.zero_add, List.drop_append_of_le_length h, natBits_zero,
    List.append_assoc]

/-- `FIN` where the bit buffer holds the placeholder. -/
theorem finRule_eq {s : State} (h : 3 ≤ s.bitbuf.length) :
    finRule s = if fits s.cfg.bitbufCap s.bitbuf.length (padLength s.bitbuf.length) then
        .ok ({ s with
          pad := padLength s.bitbuf.length
          bitbuf := natBits 3 (padLength s.bitbuf.length) ++ s.bitbuf.drop 3 ++
            List.replicate (padLength s.bitbuf.length) false
          ord := 0
          phase := .doneEnc }, 0)
      else .error (.raise .bitbufFull) := by
  have hlen (n : Nat) : ¬ (s.bitbuf ++ natBits n 0).length < 3 := by simp; omega
  simp only [finRule, bitAppend_bind, natBits_length, if_neg (hlen _), bitWrite_pad h]

/-- In `ENCODED` the command `FIN` makes the blob, of which a byte is then left to read. -/
theorem exec_fin_encoded {s : State} (hp : s.phase = .encoded) (herr : ErrWf s) (h : 3 ≤ s.bitbuf.length) :
    exec .fin s = .next (if fits s.cfg.bitbufCap s.bitbuf.length (padLength s.bitbuf.length) then
      { s with
        pad := padLength s.bitbuf.length
        bitbuf := natBits 3 (padLength s.bitbuf.length) ++ s.bitbuf.drop 3 ++
          List.replicate (padLength s.bitbuf.length) false
        ord := 0
        phase := .doneEnc
        rsp := 0x4000 }
      else faulted .bitbufFull s) := by
  have hcause := errCause_eq_zero herr (by simp [hp])
  have hpad := add_padLength_mod s.bitbuf.length
  rw [exec_eq_answer (i := .fin) nofun nofun (by simp [phaseTable, hp]), ruleOf, finRule_eq h]
  refine answer_ite_raise _ (respond_zero_more nofun ?_ hcause)
  simp [moreBit]
  omega

/-- Settles O41: the rule of `FIN`, with the three bits of the pad-length written out. -/
theorem finPadsAndBackfills : Obligations.FinPadsAndBackfills :=
  ⟨ruleHead_of_encode nofun nofun rfl, fun s hp herr h3 =>
    ⟨padLength s.bitbuf.length, rfl, padLength_lt _, add_padLength_mod _, exec_fin_encoded hp herr h3⟩⟩

/-! ### `BYT` (R61, R217) -/

theorem encode_byt (b : Byte) : encode (.byt b) = 0xA000 + b.setWidth 16 := by
  have hop : (0xA000 : Word).toNat = (opcodeOf (.byt b)).toNat * 4096 := by simp [opcodeOf]
  have hop_lt := (opcodeOf (.byt b)).isLt
  have hb := b.isLt
  refine BitVec.eq_of_toNat_eq ?_
  rw [wordIsOpcodeTimes4096PlusOperand, operandOf, BitVec.toNat_add, hop, BitVec.toNat_setWidth]
  omega

/-- In `IDLE` and `LOAD` the command `BYT` appends the bits of its byte. -/
theorem exec_byt {s : State} (hp : s.phase = .idle ∨ s.phase = .load) (herr : ErrWf s) (b : Byte) :
    exec (.byt b) s = .next (if fits s.cfg.bitbufCap s.bitbuf.length 8 then
      { s with bitbuf := s.bitbuf ++ byteBits b, phase := .load, rsp := 0 } else faulted .bitbufFull s) := by
  have hcause := errCause_eq_zero herr (by rcases hp with hp | hp <;> simp [hp])
  rw [exec_eq_answer (i := .byt b) nofun nofun (by simpa [phaseTable] using hp), ruleOf, bytRule, bitAppend_bind,
    byteBits_length]
  exact answer_ite_raise _ (respond_zero nofun nofun nofun hcause)

/-- Settles O42: the bits of a byte are its eight, bit 7 first. -/
theorem bytAppendsEightBits : Obligations.BytAppendsEightBits :=
  ⟨fun b => ruleHead_of_encode nofun nofun (encode_byt b), fun _ b hp herr => exec_byt hp herr b⟩

end Sys2Proof.Machine

/-! ## The stream decoder `DEC` (R220 to R223) -/

namespace Sys2Proof.Machine

open Sys2Proof Sys2Proof.Safety

/-! ### The command `DEC` -/

section

variable {s : State} (hp : s.phase = .parsed)
include hp

theorem exec_dec_answer : exec .dec s = answer (decRule s) s := exec_eq_answer nofun nofun (by simp [phaseTable, hp])

/-- `DEC` of a body that decodes to `S`. -/
theorem exec_dec_decoded (herr : ErrWf s) {S : List Sym}
    (h : decodeBody s.cfg.symbufCap s.tree s.bitbuf s.hdrEnd s.limit = .ok S) :
    exec .dec s = .next { s with symbuf := S, phase := .decoded, rsp := 0 } := by
  have hcause := errCause_eq_zero herr (by simp [hp])
  rw [exec_dec_answer hp, decRule, h]
  exact congrArg Host.Outcome.next (respond_zero nofun nofun nofun hcause)

/-- What `DEC` raises on the body it enters as a fault. -/
theorem exec_dec_fault {e : ErrCode}
    (h : decodeBody s.cfg.symbufCap s.tree s.bitbuf s.hdrEnd s.limit = .error (.raise e)) :
    exec .dec s = .next (faulted e s) := by
  rw [exec_dec_answer hp, decRule, h]
  exact answer_raise e

end

/-! ### The `FULL` body (R220 to R222) -/

theorem symOf_leafOf (x : Sym) : symOf (leafOf x) = some x := symOf_eq_some.2 rfl

section

variable {cap : Option Nat} {t : Tree} {r : NodeId} {at? : Option NodeId} {out : List Sym}

/-- A bit that leads to an internal node, one that more bits lead on from, moves the walk there. -/
theorem decodeFull_inner {b : Bool} {bs v : List Bool} {m n : NodeId} (hb : childOf t (at?.getD r) b = some m) (hv : v ≠ [])
    (hn : nodeFrom t m v = some n) : decodeFull cap t r (b :: bs) at? out = decodeFull cap t r bs (some m) out := by
  have hm : symOf m = none := by
    refine Option.eq_none_iff_forall_ne_some.2 fun x hx => ?_
    rw [symOf_eq_some.1 hx, nodeFrom_leaf hv] at hn
    cases hn
  simp only [decodeFull, hb, hm]

/-- The bits that lead to a leaf put out its symbol, where it fits, and the walk starts again at the root. -/
theorem decodeFull_leaf {w bs : List Bool} {x : Sym} (hw : w ≠ []) (hx : nodeFrom t (at?.getD r) w = some (leafOf x)) :
    decodeFull cap t r (w ++ bs) at? out =
      if fits cap out.length 1 then decodeFull cap t r bs none (out ++ [x]) else .error (.raise .symbufFull) := by
  induction w generalizing at? with
  | nil => exact absurd rfl hw
  | cons b w ih =>
    rw [nodeFrom_cons, Option.bind_eq_some_iff] at hx
    obtain ⟨m, hb, hm⟩ := hx
    by_cases hne : w = []
    · subst hne
      obtain rfl : m = leafOf x := Option.some.inj hm
      simp only [List.singleton_append, decodeFull, hb, symOf_leafOf]
    · rw [List.cons_append, decodeFull_inner hb hne hm]
      exact ih hne hm

/-- A body that ends on the way to a leaf ends inside a symbol. -/
theorem decodeFull_midSymbol {w v : List Bool} {n : NodeId} (hw : w ≠ []) (hv : v ≠ [])
    (hn : nodeFrom t (at?.getD r) (w ++ v) = some n) : decodeFull cap t r w at? out = .error (.raise .midSymbol) := by
  induction w generalizing at? with
  | nil => exact absurd rfl hw
  | cons b w ih =>
    rw [List.cons_append, nodeFrom_cons, Option.bind_eq_some_iff] at hn
    obtain ⟨m, hb, hm⟩ := hn
    rw [decodeFull_inner hb (List.append_ne_nil_of_right_ne_nil w hv) hm]
    by_cases hne : w = []
    · rw [hne, decodeFull]
    · exact ih hne hm

/-- Whole codes put out their symbols, or one symbol too many is met. -/
theorem decodeFull_codes {codes : Vector (List Bool) 11} (h : FullTree t r) (hc : CodesOf t codes) {S : List Sym}
    (hS : ∀ x ∈ S, codes[x] ≠ []) (rest : List Bool) :
    decodeFull cap t r (S.flatMap (fun x => codes[x]) ++ rest) none out =
      if fits cap out.length S.length then decodeFull cap t r rest none (out ++ S) else .error (.raise .symbufFull) := by
  induction S generalizing out with
  | nil => simp
  | cons x xs ih =>
    obtain ⟨hx, hxs⟩ := List.forall_mem_cons.1 hS
    have hleaf := (nodeFrom_leaf_iff h hc).2 ⟨rfl, hx⟩
    rw [List.flatMap_cons, List.append_assoc, decodeFull_leaf hx hleaf, ih hxs, List.length_append, List.length_singleton,
      List.append_assoc, List.singleton_append, List.length_cons, Nat.add_comm xs.length]
    by_cases hfit : fits cap out.length 1 = true
    · simp only [fits_add, hfit, true_and, if_true]
    · rw [if_neg hfit, if_neg fun hall => hfit (fits_add.1 hall).1]

end

/-- `DEC` of a `FULL` body that begins with whole codes (R220). -/
theorem decodeBody_full {cap : Option Nat} {t : Tree} {r : NodeId} {codes : Vector (List Bool) 11} {buf : List Bool}
    {hdrEnd limit : Nat} {S : List Sym} {rest : List Bool} (h : FullTree t r) (hc : CodesOf t codes)
    (hlimit : limit ≤ buf.length) (hS : ∀ x ∈ S, codes[x] ≠ [])
    (hbody : bodyBits buf hdrEnd limit = S.flatMap (fun x => codes[x]) ++ rest) :
    decodeBody cap t buf hdrEnd limit =
      if fits cap 0 S.length then decodeFull cap t r rest none S else .error (.raise .symbufFull) := by
  simp only [decodeBody, h.variant_full, h.root_eq, if_neg (Nat.not_lt.2 hlimit), hbody]
  exact decodeFull_codes h hc hS rest

/-- Settles O43: the walk puts out the symbols of the whole codes, then ends between two symbols or inside one. -/
theorem decWalksTheFullBody : Obligations.DecWalksTheFullBody := by
  intro s r codes S rest hp herr hfull hc hlimit hS hbody
  have hdec := decodeBody_full (cap := s.cfg.symbufCap) hfull hc hlimit hS hbody
  refine ⟨fun hrest hfit => ?_, fun y hne hpre hproper hfit => ?_, fun hfit => ?_⟩
  · rw [if_pos hfit, hrest] at hdec
    exact exec_dec_decoded hp herr hdec
  · obtain ⟨v, hv⟩ := hpre
    have hv0 : v ≠ [] := by rintro rfl; exact hproper (by simpa using hv)
    have hleaf := (nodeFrom_leaf_iff hfull hc).2 ⟨hv.symm, List.append_ne_nil_of_left_ne_nil hne v⟩
    rw [if_pos hfit, decodeFull_midSymbol hne hv0 hleaf] at hdec
    exact exec_dec_fault hp hdec
  · rw [if_neg (by simp [hfit])] at hdec
    exact exec_dec_fault hp hdec

/-! ### The `EMPTY` and the `SINGLE` body (R223) -/

/-- Bits 0 put out the one symbol, or one symbol too many is met. -/
theorem decodeSingle_replicate {cap : Option Nat} (x : Sym) (n : Nat) (rest : List Bool) (out : List Sym) :
    decodeSingle cap (some x) (List.replicate n false ++ rest) out =
      if fits cap out.length n then decodeSingle cap (some x) rest (out ++ List.replicate n x)
      else .error (.raise .symbufFull) := by
  induction n generalizing out with
  | zero => simp
  | succ n ih =>
    rw [List.replicate_succ, List.cons_append, decodeSingle, ih, List.length_append, List.length_singleton, List.append_assoc,
      List.singleton_append, ← List.replicate_succ, Nat.add_comm n]
    by_cases hfit : fits cap out.length 1 = true
    · simp only [fits_add, hfit, true_and, if_true]
    · rw [if_neg hfit, if_neg fun hall => hfit (fits_add.1 hall).1]

/-- `DEC` of a `SINGLE` body that begins with bits 0 (R220). -/
theorem decodeBody_single {cap : Option Nat} {t : Tree} {x : Sym} {buf : List Bool} {hdrEnd limit n : Nat} {rest : List Bool}
    (hv : t.variant = .single) (hr : t.root = some (leafOf x)) (hlimit : limit ≤ buf.length)
    (hbody : bodyBits buf hdrEnd limit = List.replicate n false ++ rest) :
    decodeBody cap t buf hdrEnd limit =
      if fits cap 0 n then decodeSingle cap (some x) rest (List.replicate n x) else .error (.raise .symbufFull) := by
  simp only [decodeBody, hv, hr, if_neg (Nat.not_lt.2 hlimit), hbody, Option.bind_some, symOf_leafOf]
  exact decodeSingle_replicate x n rest []

theorem decodeBody_empty {cap : Option Nat} {t : Tree} {buf : List Bool} {hdrEnd limit : Nat} (hv : t.variant = .empty) :
    decodeBody cap t buf hdrEnd limit = if hdrEnd = limit then .ok [] else .error (.raise .bodyNotEmpty) := by
  simp only [decodeBody, hv]

/-- Settles O44: an `EMPTY` body by its length, a `SINGLE` body by the bit after the zeros. -/
theorem decOfTheDegenerateBodies : Obligations.DecOfTheDegenerateBodies := by
  refine ⟨ruleHead_of_encode nofun nofun rfl, fun s hp herr => ⟨fun hv => ?_, fun x n rest hv hr hlimit hbody => ?_⟩⟩
  · have hdec := decodeBody_empty (cap := s.cfg.symbufCap) (buf := s.bitbuf) (hdrEnd := s.hdrEnd) (limit := s.limit) hv
    split
    · next hend => exact exec_dec_decoded hp herr (hdec.trans (if_pos hend))
    · next hend => exact exec_dec_fault hp (hdec.trans (if_neg hend))
  · have hdec := decodeBody_single (cap := s.cfg.symbufCap) hv hr hlimit hbody
    refine ⟨fun hrest hfit => ?_, fun hrest hfit => ?_, fun hfit => ?_⟩
    · rw [if_pos hfit, hrest] at hdec
      exact exec_dec_decoded hp herr hdec
    · obtain ⟨bs, rfl⟩ := List.head?_eq_some_iff.1 hrest
      rw [if_pos hfit] at hdec
      exact exec_dec_fault hp hdec
    · rw [if_neg (by simp [hfit])] at hdec
      exact exec_dec_fault hp hdec

end Sys2Proof.Machine

/-! ## The blob of a symbol stream (R66, R215) -/

namespace Sys2Proof.Machine

open Sys2Proof Sys2Proof.Safety

/-! ### The tree of a stream and its header -/

theorem treeWf_of_fullTree {t : Tree} {r : NodeId} (h : FullTree t r) : TreeWf t ∧ t.variant ≠ .none := by
  rw [TreeWf, h.variant_full]
  exact ⟨⟨r, h⟩, nofun⟩

/-- `BLD` makes a legal tree from reset registers, whatever the counts (R154, R155). -/
theorem treeWf_buildTree (f : Vector Nat 11) :
    TreeWf (buildTree f Tree.reset) ∧ (buildTree f Tree.reset).variant ≠ .none := by
  match hsyms : presentSyms f with
  | [] =>
    rw [buildTree_of_no_symbol _ hsyms]
    exact ⟨⟨rfl, rfl, rfl, rfl, rfl⟩, nofun⟩
  | [x] =>
    rw [buildTree_of_one_symbol _ hsyms]
    exact ⟨⟨rfl, ⟨x, rfl⟩, rfl, rfl, rfl⟩, nofun⟩
  | x :: y :: syms =>
    have hK : 2 ≤ (presentSyms f).length := by simp [hsyms]
    obtain ⟨t, r, hforest, ht⟩ := buildTree_full hK
    exact ht ▸ treeWf_of_fullTree (hforest.fullTree hK)

/-- Every legal tree but that of no call has a header (R170). -/
theorem exists_headerFields {t : Tree} (h : TreeWf t) (hv : t.variant ≠ .none) : ∃ fs, headerFields t = .ok fs := by
  unfold TreeWf at h
  cases hvar : t.variant <;> simp only [hvar] at h
  case none => exact absurd hvar hv
  case empty => exact ⟨[15], by simp only [headerFields, hvar]⟩
  case single =>
    obtain ⟨-, ⟨x, hx⟩, -⟩ := h
    exact ⟨[14, x.val], by simp only [headerFields, hvar, hx, Option.bind_some, symOf_leafOf]⟩
  case full =>
    obtain ⟨r, hfull⟩ := h
    exact ⟨treeFields t r, headerFields_fullTree hfull⟩

/-! ### Layout and size -/

/-- A blob (R66): pad-length, header fields, body and as many zero bits as the pad-length says. -/
def blobBits (p : Nat) (fs : List Nat) (body : List Bool) : List Bool :=
  natBits 3 p ++ fs.flatMap (natBits 4) ++ body ++ List.replicate p false

@[simp] theorem blobBits_length (p : Nat) (fs : List Nat) (body : List Bool) :
    (blobBits p fs body).length = 3 + 4 * fs.length + body.length + p := by
  simp only [blobBits, List.length_append, natBits_length, flatMap_natBits_length, List.length_replicate]

/-- `FIN` on the placeholder, the fields and the body makes the blob (R214). -/
theorem bitWrite_eq_blobBits {bits : List Bool} {fs : List Nat} {body : List Bool}
    (h : bits = natBits 3 0 ++ fs.flatMap (natBits 4) ++ body) (p : Nat) :
    bitWrite (bits ++ natBits p 0) 0 3 p = blobBits p fs body := by
  have hdrop : bits.drop 3 = fs.flatMap (natBits 4) ++ body := by
    rw [h, List.append_assoc]
    exact List.drop_left' (natBits_length 3 0)
  have hlen : 3 ≤ bits.length := by
    rw [h, List.append_assoc, List.length_append, natBits_length]
    exact Nat.le_add_right 3 _
  rw [bitWrite_pad hlen, hdrop, ← List.append_assoc (natBits 3 p), blobBits]

/-- Every stream has a blob: the header of its tree and the codes of its symbols, in whole bytes. -/
theorem exists_blobBits (S : List Sym) :
    ∃ (fs : List Nat) (codes : Vector (List Bool) 11) (p : Nat),
      headerFields (buildTree (countSyms S) Tree.reset) = .ok fs ∧
        deriveCodes (buildTree (countSyms S) Tree.reset) = .ok codes ∧
        CodesOf (buildTree (countSyms S) Tree.reset) codes ∧
        p < 8 ∧ (blobBits p fs (S.flatMap fun x => codes[x])).length % 8 = 0 ∧
        encodeSymbols S = .ok (blobBits p fs (S.flatMap fun x => codes[x])) := by
  obtain ⟨hwf, hv⟩ := treeWf_buildTree (countSyms S)
  obtain ⟨fs, hfs⟩ := exists_headerFields hwf hv
  obtain ⟨codes, hcodes, hof⟩ := deriveCodes_of_treeWf hwf
  have hblob := encodeSymbols_eq hcodes hfs rfl
  rw [bitWrite_eq_blobBits rfl] at hblob
  refine ⟨fs, codes, _, hfs, hcodes, hof, padLength_lt _, ?_, hblob⟩
  rw [blobBits_length]
  convert add_padLength_mod _ using 3
  simp only [List.length_append, natBits_length, flatMap_natBits_length]

/-- The body of a stream has `LEN` bits for each of the `FREQ` occurrences of a symbol (R212). -/
theorem length_flatMap_codes (S : List Sym) (codes : Vector (List Bool) 11) :
    (S.flatMap fun x => codes[x]).length = bodyLength (countSyms S) codes := by
  simp only [bodyLength, getElem_countSyms]
  calc (S.flatMap fun x => codes[x]).length
    _ = (S.map fun x => codes[x].length).sum := List.length_flatMap
    _ = ∑ x ∈ S.toFinset, S.count x * codes[x].length := Finset.sum_list_map_count S _
    _ = ∑ x : Sym, S.count x * codes[x].length := by
      refine Finset.sum_subset (Finset.subset_univ _) fun x _ hx => ?_
      rw [List.count_eq_zero.2 fun hmem => hx (List.mem_toFinset.2 hmem), Nat.zero_mul]
    _ = (allSyms.map fun x => S.count x * codes[x].length).sum := Fin.sum_univ_def _

/-- Settles O49: every stream has its blob, whose pad bits round the size up to whole bytes. -/
theorem blobLayoutAndSize : Obligations.BlobLayoutAndSize := by
  intro S bits hbits
  obtain ⟨fs, codes, p, hfs, hcodes, -, hp, hmod, hblob⟩ := exists_blobBits S
  obtain rfl : blobBits p fs (S.flatMap fun x => codes[x]) = bits := Except.ok.inj (hblob.symm.trans hbits)
  refine ⟨fs, codes, p, hfs, hcodes, hp, hmod, rfl, ?_⟩
  rw [blobBits_length] at hmod
  rw [bytesOf_length, blobBits_length, blobSize, ← length_flatMap_codes]
  omega

end Sys2Proof.Machine

/-! ## Every symbol stream comes back from its blob (R224)

`PAR` rebuilds the tree of the encoder but for its weights, which no rule of the decode path reads. -/

namespace Sys2Proof.Machine

open Sys2Proof Sys2Proof.Safety

/-! ### The tree without its weights -/

/-- The tree with the weights of the reset registers, as `PAR` leaves them. -/
def blankWeights (t : Tree) : Tree := { t with weight := Vector.replicate 21 0 }

theorem fullTree_blankWeights {t : Tree} {r : NodeId} (h : FullTree t r) : FullTree (blankWeights t) r :=
  { h with
    reaches_root := fun n hn => (climbParents_congr (t := t) (u := blankWeights t) rfl r _ _).trans (h.reaches_root n hn) }

theorem treeWf_blankWeights {t : Tree} (h : TreeWf t) (hv : t.variant ≠ .none) : TreeWf (blankWeights t) := by
  unfold TreeWf at h ⊢
  cases hvar : t.variant <;> simp only [hvar, blankWeights] at h ⊢
  case none => exact absurd hvar hv
  case empty | single => exact h
  case full =>
    obtain ⟨r, hfull⟩ := h
    exact ⟨r, hvar ▸ fullTree_blankWeights hfull⟩

theorem fieldsOf_blankWeights (t : Tree) (ns : List NodeId) : fieldsOf (blankWeights t) ns = fieldsOf t ns := by
  induction ns with
  | nil => rfl
  | cons n ns ih => rw [fieldsOf, fieldsOf, ih]; rfl

theorem headerFields_blankWeights (t : Tree) : headerFields (blankWeights t) = headerFields t := by
  unfold headerFields
  simp only [fieldsOf_blankWeights]
  rfl

theorem codePath_blankWeights {t : Tree} {n : NodeId} {w : List Bool} (h : CodePath t n w) : CodePath (blankWeights t) n w := by
  induction h with
  | root r hr => exact .root r hr
  | step n p w hn hp _ ih => exact .step n p w hn hp ih

theorem codesOf_blankWeights {t : Tree} {codes : Vector (List Bool) 11} (h : CodesOf t codes) :
    CodesOf (blankWeights t) codes := by
  unfold CodesOf at h ⊢
  cases hvar : t.variant <;> simp only [hvar, blankWeights] at h ⊢
  case none | empty | single => exact h
  case full =>
    intro x
    have hx := h x
    split at hx
    · next hnone => rwa [if_pos hnone]
    · next hsome => rw [if_neg hsome, ← hvar]; exact codePath_blankWeights hx

/-! ### `PAR` of a blob -/

/-- What `PAR` answers in `PARSED` is what it found in the blob. -/
theorem parseBlob_of_exec_par {s t : State} (hp : s.phase = .idle ∨ s.phase = .load) (h : exec .par s = .next t)
    (ht : t.phase = .parsed) : parseBlob s.bitbuf s.tree = .ok ⟨t.pad, t.limit, t.hdrEnd, t.tree⟩ := by
  rw [exec_par_answer hp] at h
  rcases answer_next h with ⟨u, d, hr, rfl⟩ | ⟨e, -, rfl⟩
  · obtain ⟨p, hparse, rfl⟩ := parRule_ok hr
    exact hparse
  · cases ht

/-- `PAR` reads back every legal tree with blank weights from its header. -/
theorem parseBlob_header {T : Tree} {fs : List Nat} {p : Nat} {rest buf : List Bool} (h : TreeWf T) (hv : T.variant ≠ .none)
    (hweight : T.weight = Vector.replicate 21 0) (hfs : headerFields T = .ok fs) (hp : p < 8)
    (hbuf : buf = natBits 3 p ++ fs.flatMap (natBits 4) ++ rest) (hlen : 3 + 4 * fs.length + p ≤ buf.length) :
    parseBlob buf Tree.reset = .ok ⟨p, buf.length - p, 3 + 4 * fs.length, T⟩ := by
  let s : State := { State.reset with bitbuf := buf }
  have hidle : s.phase = .idle ∨ s.phase = .load := .inl rfl
  have herr : ErrWf s := ⟨rfl, rfl⟩
  unfold TreeWf at h
  cases hvar : T.variant <;> simp only [hvar] at h
  case none => exact absurd hvar hv
  case empty =>
    obtain ⟨hk, hroot, hnext, hparent, hchild⟩ := h
    obtain rfl : [15] = fs := by simpa [headerFields, hvar] using hfs
    have hT : T = { Tree.reset with variant := .empty, k := 0, root := none } := by cases T; simp_all [Tree.reset]
    have hpar := (parReadsTheDegenerateHeaders s p rest hidle herr hp).1 (by simpa [s] using hbuf) hlen
    rw [hT]
    exact parseBlob_of_exec_par hidle hpar rfl
  case single =>
    obtain ⟨hk, ⟨x, hroot⟩, hnext, hparent, hchild⟩ := h
    obtain rfl : [14, x.val] = fs := by simpa [headerFields, hvar, hroot, symOf_leafOf] using hfs
    have hT : T = { Tree.reset with variant := .single, k := 1, root := some (leafOf x) } := by
      cases T; simp_all [Tree.reset]
    have hpar := (parReadsTheDegenerateHeaders s p rest hidle herr hp).2 x (by simpa [s] using hbuf) hlen
    rw [hT]
    exact parseBlob_of_exec_par hidle hpar rfl
  case full =>
    obtain ⟨r, hfull⟩ := h
    exact parseBlob_of_exec_par hidle
      (parRebuildsEveryFinishedTree s T r fs p rest hidle herr rfl hfull hweight hfs hp hbuf hlen) rfl

/-! ### `DEC` of a body -/

/-- The body of a blob stands between the header and the pad bits. -/
theorem bodyBits_blobBits (p : Nat) (fs : List Nat) (body : List Bool) :
    bodyBits (blobBits p fs body) (3 + 4 * fs.length) ((blobBits p fs body).length - p) = body := by
  have hheader : (natBits 3 p ++ fs.flatMap (natBits 4)).length = 3 + 4 * fs.length := by
    rw [List.length_append, natBits_length, flatMap_natBits_length]
  rw [bodyBits, blobBits_length, Nat.add_sub_cancel, blobBits,
    List.take_left' (by rw [List.length_append, hheader]), List.drop_left' hheader]

/-- `DEC` of the codes of a stream, in the code table of the tree, gives the stream (R220 to R223). -/
theorem decodeBody_codes {t : Tree} {codes : Vector (List Bool) 11} {buf : List Bool} {hdrEnd limit : Nat} {S : List Sym}
    (h : TreeWf t) (hc : CodesOf t codes) (hS : ∀ x ∈ S, codes[x] ≠ []) (hend : hdrEnd ≤ limit)
    (hlimit : limit ≤ buf.length) (hbody : bodyBits buf hdrEnd limit = S.flatMap fun x => codes[x]) :
    decodeBody none t buf hdrEnd limit = .ok S := by
  have hnil (hblank : ∀ x : Sym, codes[x] = []) : S = [] :=
    List.eq_nil_iff_forall_not_mem.2 fun x hx => hS x hx (hblank x)
  unfold TreeWf at h
  have hof := hc
  unfold CodesOf at hof
  cases hvar : t.variant <;> simp only [hvar] at h hof
  case none => simp only [decodeBody, hvar, hnil hof]
  case empty =>
    obtain rfl := hnil hof
    have hlen := congrArg List.length hbody
    simp only [bodyBits, List.length_drop, List.length_take, List.flatMap_nil, List.length_nil] at hlen
    rw [decodeBody_empty hvar, if_pos (by omega)]
  case single =>
    obtain ⟨-, ⟨x, hx⟩, -⟩ := h
    have hone : S = List.replicate S.length x := by
      refine List.eq_replicate_iff.2 ⟨rfl, fun y hy => ?_⟩
      by_contra hne
      exact hS y hy (by rw [hof y, hx, if_neg fun heq => hne (leafOf_injective (Option.some.inj heq)).symm])
    have hbits : bodyBits buf hdrEnd limit = List.replicate S.length false ++ [] := by
      have hcode : codes[x] = [false] := by rw [hof x, if_pos hx]
      rw [hbody, hone, List.flatMap_replicate, hcode]
      simp
    rw [decodeBody_single hvar hx hlimit hbits, ← hone]
    rfl
  case full =>
    obtain ⟨r, hfull⟩ := h
    rw [decodeBody_full (rest := []) hfull hc hlimit hS (by rw [hbody, List.append_nil])]
    rfl

/-- The blob of a stream over a legal tree, read as `PAR` and `DEC` do, gives the stream. -/
theorem decodeSymbols_blobBits {t : Tree} {fs : List Nat} {codes : Vector (List Bool) 11} {S : List Sym} {p : Nat}
    {buf : List Bool} (hbuf : buf = blobBits p fs (S.flatMap fun x => codes[x])) (h : TreeWf t) (hv : t.variant ≠ .none)
    (hfs : headerFields t = .ok fs) (hc : CodesOf t codes) (hS : ∀ x ∈ S, codes[x] ≠ []) (hp : p < 8)
    (hmod : buf.length % 8 = 0) : decodeSymbols (bytesOf buf) = .ok S := by
  have hlen : buf.length = 3 + 4 * fs.length + (S.flatMap fun x => codes[x]).length + p := hbuf ▸ blobBits_length p fs _
  have hparse := parseBlob_header (treeWf_blankWeights h hv) hv rfl ((headerFields_blankWeights t).trans hfs) hp
    (hbuf.trans (List.append_assoc _ _ _)) (by omega)
  have hbody : bodyBits buf (3 + 4 * fs.length) (buf.length - p) = S.flatMap fun x => codes[x] :=
    hbuf ▸ bodyBits_blobBits p fs _
  simp only [decodeSymbols, flatMap_byteBits_bytesOf hmod, hparse]
  exact decodeBody_codes (treeWf_blankWeights h hv) (codesOf_blankWeights hc) hS (by omega) (Nat.sub_le _ _) hbody

theorem decodeSymbols_of_encodeSymbols {S : List Sym} {bits : List Bool} (h : encodeSymbols S = .ok bits) :
    bits.length % 8 = 0 ∧ decodeSymbols (bytesOf bits) = .ok S := by
  obtain ⟨fs, codes, p, hfs, hcodes, hof, hp, hmod, hblob⟩ := exists_blobBits S
  have hbits := Except.ok.inj (h.symm.trans hblob)
  rw [← hbits] at hmod
  exact ⟨hmod, decodeSymbols_blobBits hbits (treeWf_buildTree _).1 (treeWf_buildTree _).2 hfs hof
    (fun _ hx => code_ne_nil_of_mem hcodes hx) hp hmod⟩

end Sys2Proof.Machine

/-! ## The commands of a call in the reference model (R98, R224)

The states of a call: a stream entered between records, a blob entered, and the commands of `ENCODE` and of
`PAR`, `DEC` from there. -/

namespace Sys2Proof.Machine

open Sys2Proof Sys2Proof.Safety

/-! ### Command sequences -/

theorem execAll_append_of_next {is js : List Instr} {s t : State} (h : execAll is s = .next t) :
    execAll (is ++ js) s = execAll js t := by
  induction is generalizing s with
  | nil => cases h; rfl
  | cons i is ih =>
    rw [execAll] at h
    split at h
    · next u hu => exact (execAll_cons_of_next hu).trans (ih h)
    · cases h
    · cases h

theorem KeptByRules.execAll {P : State → Prop} (hP : KeptByRules P) {is : List Instr} {s t : State} (h : P s)
    (ht : execAll is s = .next t) : P t := by
  induction is generalizing s with
  | nil => cases ht; exact h
  | cons i is ih =>
    rw [Machine.execAll] at ht
    split at ht
    · next u hu => exact ih (hP.exec h hu) ht
    · cases ht
    · cases ht

/-! ### States of a run in the reference model -/

/-- What every state of a run in the reference model has: the contents its phase promises, a legal `ERR`, unbounded buffers. -/
structure ReferenceRun (s : State) : Prop where
  holds : PhaseHolds s
  err : ErrWf s
  reference : s.cfg = Config.reference

theorem referenceRun_keptByRules : KeptByRules ReferenceRun where
  port w l s h := ⟨phaseHolds_keptByRules.port w l s h.holds, errWf_keptByRules.port w l s h.err, h.reference⟩
  clear s h := ⟨phaseHolds_keptByRules.clear s h.holds, errWf_keptByRules.clear s h.err, h.reference⟩
  raise e s h := ⟨phaseHolds_keptByRules.raise e s h.holds, errWf_keptByRules.raise e s h.err, h.reference⟩
  rule i s u d h1 h2 hl h hr := by
    obtain ⟨-, -, ⟨-, hcfg⟩, -⟩ := ruleOf_frame h1 h2 hl hr
    exact ⟨phaseHolds_keptByRules.rule i s u d h1 h2 hl h.holds hr, errWf_keptByRules.rule i s u d h1 h2 hl h.err hr,
      hcfg.trans h.reference⟩

/-- `CLR` begins a run from any state. -/
theorem referenceRun_clear {s : State} (h : s.cfg = Config.reference) : ReferenceRun (s.clear.respond 0) :=
  ⟨rfl, ⟨rfl, rfl⟩, h⟩

section

variable {s : State} (h : ReferenceRun s) (len n : Nat)
include h

theorem ReferenceRun.fits_symbuf : fits s.cfg.symbufCap len n = true := by rw [h.reference]; rfl

theorem ReferenceRun.fits_bitbuf : fits s.cfg.bitbufCap len n = true := by rw [h.reference]; rfl

end

/-! ### Entering a stream (R136) -/

/-- The stream `S` has been entered and no record is open. -/
structure StreamEntered (S : List Sym) (s : State) : Prop where
  run : ReferenceRun s
  front : s.phase = .idle ∨ s.phase = .ingest
  closed : s.recOpen = false
  symbuf : s.symbuf = S

theorem streamEntered_clear {s : State} (h : s.cfg = Config.reference) : StreamEntered [] (s.clear.respond 0) :=
  ⟨referenceRun_clear h, .inl rfl, rfl, rfl⟩

theorem StreamEntered.exec_sym {S : List Sym} {s : State} (h : StreamEntered S s) (x : Sym) :
    ∃ t, exec (.sym (BitVec.ofNat 4 x.val)) s = .next t ∧ StreamEntered (S ++ [x]) t := by
  have hsym := (symAppendsOneSymbol.2 s h.front h.run.err).2.2 h.closed x
  rw [if_pos (h.run.fits_symbuf _ _)] at hsym
  exact ⟨_, hsym, referenceRun_keptByRules.exec h.run hsym, .inr rfl, h.closed, congrArg (· ++ [x]) h.symbuf⟩

theorem StreamEntered.execAll_sym {S : List Sym} {s : State} (h : StreamEntered S s) (R : List Sym) :
    ∃ t, execAll (R.map fun x => .sym (BitVec.ofNat 4 x.val)) s = .next t ∧ StreamEntered (S ++ R) t := by
  induction R generalizing S s with
  | nil => exact ⟨s, rfl, by rwa [List.append_nil]⟩
  | cons x xs ih =>
    obtain ⟨t, ht, hentered⟩ := h.exec_sym x
    obtain ⟨u, hu, hall⟩ := ih hentered
    exact ⟨u, (execAll_cons_of_next ht).trans hu, by rwa [List.append_assoc] at hall⟩

/-! ### `ENCODE` (R98) -/

theorem ReferenceRun.exec_rule {i : Instr} {s u : State} {d : Byte} (h1 : i ≠ .stat) (h2 : i ≠ .clr) (h : ReferenceRun s)
    (hp : s.phase ∈ (phaseTable i).map Prod.fst) (hr : ruleOf i s = .ok (u, d)) :
    exec i s = .next (u.respond d) ∧ ReferenceRun (u.respond d) := by
  have hexec : exec i s = .next (u.respond d) := by rw [exec_eq_answer h1 h2 hp, hr]; rfl
  exact ⟨hexec, referenceRun_keptByRules.exec h hexec⟩

/-- `ENCODE` of the stream `S` stands in phase `p`. -/
structure EncodeStage (S : List Sym) (p : Phase) (s : State) : Prop where
  run : ReferenceRun s
  phase : s.phase = p
  symbuf : s.symbuf = S

section

variable {S : List Sym} {s : State}

/-- After `BLD` the tree is that of the stream's counts. -/
theorem EncodeStage.tree_eq {p : Phase} (h : EncodeStage S p s) (hp : p = .built ∨ p = .derived ∨ p = .serialized) :
    s.tree = buildTree (countSyms s.symbuf) Tree.reset := by
  have hholds := h.run.holds
  rcases hp with rfl | rfl | rfl <;> simp only [PhaseHolds, h.phase] at hholds
  · simpa only [builtOf] using congrArg State.tree hholds
  · simpa only [builtOf] using congrArg State.tree hholds.1
  · simpa only [builtOf] using congrArg State.tree hholds.1

theorem StreamEntered.exec_cnt (h : StreamEntered S s) : ∃ t, exec .cnt s = .next t ∧ EncodeStage S .counted t := by
  obtain ⟨hexec, hrun⟩ := h.run.exec_rule (i := .cnt) nofun nofun (by simpa [phaseTable] using h.front)
    (if_neg (by simp [h.closed]))
  exact ⟨_, hexec, hrun, rfl, h.symbuf⟩

theorem EncodeStage.exec_bld (h : EncodeStage S .counted s) : ∃ t, exec .bld s = .next t ∧ EncodeStage S .built t := by
  obtain ⟨hexec, hrun⟩ := h.run.exec_rule (i := .bld) nofun nofun (by simp [phaseTable, h.phase]) rfl
  exact ⟨_, hexec, hrun, rfl, h.symbuf⟩

/-- The tree of the stream has a code table. -/
theorem EncodeStage.exec_drv (h : EncodeStage S .built s) : ∃ t, exec .drv s = .next t ∧ EncodeStage S .derived t := by
  obtain ⟨-, codes, -, -, hcodes, -⟩ := exists_blobBits s.symbuf
  rw [← h.tree_eq (.inl rfl)] at hcodes
  obtain ⟨hexec, hrun⟩ := h.run.exec_rule (i := .drv) nofun nofun (by simp [phaseTable, h.phase])
    (by rw [ruleOf, drvRule, hcodes])
  exact ⟨_, hexec, hrun, if_pos h.phase, h.symbuf⟩

/-- The tree of the stream has a header. -/
theorem EncodeStage.exec_ser (h : EncodeStage S .derived s) : ∃ t, exec .ser s = .next t ∧ EncodeStage S .serialized t := by
  obtain ⟨fs, -, -, hfs, -⟩ := exists_blobBits s.symbuf
  rw [← h.tree_eq (.inr (.inl rfl))] at hfs
  obtain ⟨hexec, hrun⟩ := h.run.exec_rule (i := .ser) nofun nofun (by simp [phaseTable, h.phase])
    ((serRule_eq hfs).trans (if_pos (h.run.fits_bitbuf _ _)))
  exact ⟨_, hexec, hrun, rfl, h.symbuf⟩

/-- Every symbol of the stream has a code. -/
theorem EncodeStage.exec_enc (h : EncodeStage S .serialized s) : ∃ t, exec .enc s = .next t ∧ EncodeStage S .encoded t := by
  have hholds := h.run.holds
  simp only [PhaseHolds, h.phase] at hholds
  obtain ⟨-, hcodes, -⟩ := hholds
  rw [h.tree_eq (.inr (.inr rfl))] at hcodes
  have hexec := exec_enc_serialized h.phase h.run.err fun x hx => code_ne_nil_of_mem hcodes hx
  rw [if_pos (h.run.fits_bitbuf _ _)] at hexec
  exact ⟨_, hexec, referenceRun_keptByRules.exec h.run hexec, rfl, h.symbuf⟩

/-- The placeholder stands in front of the body. -/
theorem EncodeStage.exec_fin (h : EncodeStage S .encoded s) : ∃ t, exec .fin s = .next t ∧ EncodeStage S .doneEnc t := by
  have hholds := h.run.holds
  simp only [PhaseHolds, h.phase] at hholds
  obtain ⟨-, -, fs, -, -, hbits⟩ := hholds
  have h3 : 3 ≤ s.bitbuf.length := by
    rw [hbits, List.append_assoc, List.length_append, natBits_length]
    exact Nat.le_add_right 3 _
  have hexec := exec_fin_encoded h.phase h.run.err h3
  rw [if_pos (h.run.fits_bitbuf _ _)] at hexec
  exact ⟨_, hexec, referenceRun_keptByRules.exec h.run hexec, rfl, h.symbuf⟩

/-- `ENCODE` of an entered stream ends with its blob. -/
theorem StreamEntered.execAll_encode (h : StreamEntered S s) :
    ∃ t, execAll encodeCommands s = .next t ∧ EncodeStage S .doneEnc t ∧ encodeSymbols S = .ok t.bitbuf := by
  obtain ⟨s1, hcnt, h1⟩ := h.exec_cnt
  obtain ⟨s2, hbld, h2⟩ := h1.exec_bld
  obtain ⟨s3, hdrv, h3⟩ := h2.exec_drv
  obtain ⟨s4, hser, h4⟩ := h3.exec_ser
  obtain ⟨s5, henc, h5⟩ := h4.exec_enc
  obtain ⟨s6, hfin, h6⟩ := h5.exec_fin
  have hholds := h6.run.holds
  simp only [PhaseHolds, h6.phase] at hholds
  refine ⟨s6, ?_, h6, h6.symbuf ▸ hholds.2.2.1⟩
  rw [encodeCommands, execAll_cons_of_next hcnt, execAll_cons_of_next hbld, execAll_cons_of_next hdrv,
    execAll_cons_of_next hser, execAll_cons_of_next henc, execAll_cons_of_next hfin, execAll]

end

/-! ### Entering a blob and decoding it (R217, R178, R220) -/

/-- The bits `bits` of a blob have been entered. -/
structure BlobEntered (bits : List Bool) (s : State) : Prop where
  run : ReferenceRun s
  loading : s.phase = .idle ∨ s.phase = .load
  bitbuf : s.bitbuf = bits

theorem blobEntered_clear {s : State} (h : s.cfg = Config.reference) : BlobEntered [] (s.clear.respond 0) :=
  ⟨referenceRun_clear h, .inl rfl, rfl⟩

section

variable {bits : List Bool} {s : State}

theorem BlobEntered.exec_byt (h : BlobEntered bits s) (b : Byte) :
    ∃ t, exec (.byt b) s = .next t ∧ BlobEntered (bits ++ byteBits b) t := by
  have hexec := Machine.exec_byt h.loading h.run.err b
  rw [if_pos (h.run.fits_bitbuf _ _)] at hexec
  exact ⟨_, hexec, referenceRun_keptByRules.exec h.run hexec, .inr rfl, congrArg (· ++ byteBits b) h.bitbuf⟩

theorem BlobEntered.execAll_blob (h : BlobEntered bits s) (bs : List Byte) :
    ∃ t, execAll (blobCommands bs) s = .next t ∧ BlobEntered (bits ++ bs.flatMap byteBits) t := by
  induction bs generalizing bits s with
  | nil => exact ⟨s, rfl, by rwa [List.flatMap_nil, List.append_nil]⟩
  | cons b bs ih =>
    obtain ⟨t, ht, hentered⟩ := h.exec_byt b
    obtain ⟨u, hu, hall⟩ := ih hentered
    exact ⟨u, (execAll_cons_of_next ht).trans hu, by rwa [List.append_assoc] at hall⟩

/-- `PAR` and `DEC` of an entered blob do what the function does. -/
theorem BlobEntered.execAll_par_dec {blob : List Byte} {S : List Sym} (h : BlobEntered (blob.flatMap byteBits) s)
    (hS : decodeSymbols blob = .ok S) :
    ∃ t, execAll [.par, .dec] s = .next t ∧ ReferenceRun t ∧ t.phase = .decoded ∧ t.symbuf = S := by
  have htree : s.tree = Tree.reset := congrArg State.tree (phaseHolds_loading h.run.holds h.loading).1
  unfold decodeSymbols at hS
  split at hS
  · cases hS
  · next p hparse =>
    rw [← h.bitbuf, ← htree] at hparse
    obtain ⟨hpar, hrun⟩ := h.run.exec_rule (i := .par) nofun nofun (by simpa [phaseTable] using h.loading)
      (by rw [ruleOf, parRule, hparse])
    have hcap : s.cfg.symbufCap = none := by rw [h.run.reference]; rfl
    rw [← h.bitbuf, ← hcap] at hS
    have hdec := exec_dec_decoded rfl hrun.err hS
    refine ⟨_, ?_, referenceRun_keptByRules.exec hrun hdec, rfl, rfl⟩
    rw [execAll_cons_of_next hpar, execAll_cons_of_next hdec, execAll]

end

/-- Settles O50: the header gives the tree back, which reads the codes of the body; the commands do what the functions do. -/
theorem symbolRoundTrip : Obligations.SymbolRoundTrip := by
  refine ⟨fun S => ?_, fun S s hcfg => ?_⟩
  · obtain ⟨fs, codes, p, -, -, -, -, -, hblob⟩ := exists_blobBits S
    exact ⟨_, hblob, (decodeSymbols_of_encodeSymbols hblob).2⟩
  · obtain ⟨s1, hsym, h1⟩ := (streamEntered_clear hcfg).execAll_sym S
    obtain ⟨t, hencode, ht, hblob⟩ := h1.execAll_encode
    obtain ⟨hmod, hdecode⟩ := decodeSymbols_of_encodeSymbols hblob
    obtain ⟨s2, hblobCommands, h2⟩ := (blobEntered_clear ht.run.reference).execAll_blob (bytesOf t.bitbuf)
    obtain ⟨u, hdec, -, hu, huS⟩ := h2.execAll_par_dec hdecode
    refine ⟨t, u, ?_, ht.phase, ?_, hu, huS⟩
    · rw [execAll_cons_of_next (t := s.clear.respond 0) rfl, execAll_append_of_next hsym, hencode]
    · rw [execAll_cons_of_next (t := t.clear.respond 0) rfl, execAll_append_of_next hblobCommands, hdec]

end Sys2Proof.Machine

/-! ## The reassembler (R240 to R245)

A stream that `RAS` accepts is a sequence of digit groups, each ended by `SEP`; what the loop does with the groups is said once, for any
symbols after them. A projection is one such group. -/

namespace Sys2Proof.Machine

open Sys2Proof Sys2Proof.Safety

/-! ### Digit groups as symbols (R100) -/

/-- The symbols of digit groups, each ended by `SEP`. -/
def groupStream (gs : List (List (Fin 10))) : List Sym := gs.flatMap fun g => g.map symOfDigit ++ [Sym.sep]

theorem groupStream_cons (g : List (Fin 10)) (gs : List (List (Fin 10))) :
    groupStream (g :: gs) = g.map symOfDigit ++ Sym.sep :: groupStream gs := by
  simp [groupStream]

theorem getLast?_groupStream {gs : List (List (Fin 10))} (h : gs ≠ []) : (groupStream gs).getLast? = some Sym.sep := by
  rw [← List.dropLast_append_getLast h, groupStream, List.flatMap_append, List.flatMap_singleton, ← List.append_assoc,
    List.getLast?_concat]

@[simp] theorem digitOf_symOfDigit (d : Fin 10) : digitOf (symOfDigit d) = some d := dif_pos d.isLt

@[simp] theorem digitOf_sep : digitOf Sym.sep = none := rfl

theorem length_tokens_pos (v : Int) : 0 < (tokens v).length := by
  rw [tokens, List.length_append]
  exact Nat.lt_add_left _ Nat.one_pos

/-! ### The loop of `RAS` over digit groups (R242) -/

section

variable {cap : Option Nat} {recs : List Int} {otok : List Token}

theorem reassembleLoop_digits (ds g : List (Fin 10)) (S : List Sym) :
    reassembleLoop cap (ds.map symOfDigit ++ S) g recs otok = reassembleLoop cap S (g ++ ds) recs otok := by
  induction ds generalizing g with
  | nil => rw [List.map_nil, List.nil_append, List.append_nil]
  | cons d ds ih => simpa [reassembleLoop] using ih (g ++ [d])

theorem reassembleLoop_sep {g : List (Fin 10)} (hg : g ≠ []) (S : List Sym) :
    reassembleLoop cap (Sym.sep :: S) g recs otok = if fits cap otok.length (tokens (groupValue g)).length then
      reassembleLoop cap S [] (recs ++ [groupValue g]) (otok ++ tokens (groupValue g)) else .error (.raise .outFull) := by
  rw [reassembleLoop, digitOf_sep]
  exact if_neg hg

theorem reassembleLoop_empty_group (S : List Sym) :
    reassembleLoop cap (Sym.sep :: S) [] recs otok = .error (.raise .emptyGroup) := rfl

/-- Non-empty groups give their values and tokens, or one group's tokens do not fit. -/
theorem reassembleLoop_groups {gs : List (List (Fin 10))} (h : ∀ g ∈ gs, g ≠ []) (S : List Sym) :
    reassembleLoop cap (groupStream gs ++ S) [] recs otok =
      if fits cap otok.length ((gs.map groupValue).flatMap tokens).length then
        reassembleLoop cap S [] (recs ++ gs.map groupValue) (otok ++ (gs.map groupValue).flatMap tokens)
      else .error (.raise .outFull) := by
  induction gs generalizing recs otok with
  | nil => simp [groupStream]
  | cons g gs ih =>
    obtain ⟨hg, hgs⟩ := List.forall_mem_cons.1 h
    rw [groupStream_cons, List.append_assoc, reassembleLoop_digits, List.nil_append, List.cons_append, reassembleLoop_sep hg,
      ih hgs, List.map_cons, List.flatMap_cons, List.length_append, List.length_append, List.append_assoc, List.append_assoc,
      List.singleton_append]
    by_cases hfit : fits cap otok.length (tokens (groupValue g)).length = true
    · simp only [fits_add, hfit, true_and, if_true]
    · rw [if_neg hfit, if_neg fun hall => hfit (fits_add.1 hall).1]

end

/-! ### `RAS` as a function of the stream (R241, R242) -/

section

variable {cap : Option Nat}

theorem reassemble_unterminated {S : List Sym} (hne : S ≠ []) (hlast : S.getLast? ≠ some Sym.sep) :
    reassemble cap S = .error (.raise .unterminated) := if_pos ⟨hne, hlast⟩

theorem reassemble_terminated {S : List Sym} (h : S ≠ [] → S.getLast? = some Sym.sep) :
    reassemble cap S = reassembleLoop cap S [] [] [] := if_neg fun hbad => hbad.2 (h hbad.1)

theorem reassemble_groups {gs : List (List (Fin 10))} (h : ∀ g ∈ gs, g ≠ []) :
    reassemble cap (groupStream gs) = if fits cap 0 ((gs.map groupValue).flatMap tokens).length then
      .ok (gs.map groupValue, (gs.map groupValue).flatMap tokens) else .error (.raise .outFull) := by
  have hlast : groupStream gs ≠ [] → (groupStream gs).getLast? = some Sym.sep := fun hne =>
    getLast?_groupStream fun hnil => hne (congrArg groupStream hnil)
  rw [reassemble_terminated hlast, ← List.append_nil (groupStream gs)]
  exact reassembleLoop_groups h []

/-- After non-empty groups whose tokens fit, a `SEP` without a digit before it is the fault. -/
theorem reassemble_empty_group {gs : List (List (Fin 10))} (h : ∀ g ∈ gs, g ≠ []) {rest : List Sym}
    (hlast : (groupStream gs ++ Sym.sep :: rest).getLast? = some Sym.sep) :
    reassemble cap (groupStream gs ++ Sym.sep :: rest) =
      .error (.raise (if fits cap 0 ((gs.map groupValue).flatMap tokens).length then .emptyGroup else .outFull)) := by
  rw [reassemble_terminated fun _ => hlast, reassembleLoop_groups h, reassembleLoop_empty_group]
  exact (apply_ite (fun e => Except.error (Stop.raise e)) _ _ _).symm

end

/-! ### The command `RAS` -/

/-- In `DONE_DEC` a command without data answers with `MORE` exactly where a token is left to read (R95). -/
theorem respond_zero_doneDec {s : State} (hp : s.phase = .doneDec) (hc : s.errCause = 0) :
    s.respond 0 = { s with rsp := if s.ord < s.otok.length then 0x4000 else 0 } := by
  have hfault : faultBit s = false := by rw [faultBit, hp]; rfl
  have hmore : moreBit s = decide (s.ord < s.otok.length) := by rw [moreBit, hp]; rfl
  have hr : respWord s 0 = if s.ord < s.otok.length then 0x4000 else 0 := by
    rw [respWord, hfault, hmore, hc]
    split
    · next hread => rw [decide_eq_true hread]; rfl
    · next hread => rw [decide_eq_false hread]; rfl
  rw [State.respond, hr]

section

variable {s : State} (hp : s.phase = .decoded)
include hp

theorem exec_ras_answer : exec .ras s = answer (rasRule s) s := exec_eq_answer nofun nofun (by simp [phaseTable, hp])

/-- `RAS` of a stream that reassembles to the records and tokens of `r`. -/
theorem exec_ras_reassembled (herr : ErrWf s) {r : List Int × List Token}
    (h : reassemble s.cfg.otokCap s.symbuf = .ok r) :
    exec .ras s = .next { s with
      recs := r.1, otok := r.2, ord := 0, phase := .doneDec, rsp := if 0 < r.2.length then 0x4000 else 0 } := by
  have hcause := errCause_eq_zero herr (by simp [hp])
  rw [exec_ras_answer hp, rasRule, h]
  exact congrArg Host.Outcome.next (respond_zero_doneDec rfl hcause)

/-- What `RAS` raises on the stream it enters as a fault. -/
theorem exec_ras_fault {e : ErrCode} (h : reassemble s.cfg.otokCap s.symbuf = .error (.raise e)) :
    exec .ras s = .next (faulted e s) := by
  rw [exec_ras_answer hp, rasRule, h]
  exact answer_raise e

end

/-- There is a token to read exactly where there is a record. -/
theorem length_flatMap_tokens_pos_iff (xs : List Int) : 0 < (xs.flatMap tokens).length ↔ xs ≠ [] := by
  cases xs with
  | nil => simp
  | cons x xs =>
    rw [List.flatMap_cons, List.length_append]
    exact ⟨fun _ => List.cons_ne_nil x xs, fun _ => Nat.add_pos_left (length_tokens_pos x) _⟩

/-- Settles O45: the groups reassemble to their values, whose tokens are left to read. -/
theorem rasReassemblesTheGroups : Obligations.RasReassemblesTheGroups := by
  refine ⟨ruleHead_of_encode nofun nofun rfl, fun s gs hp herr hgs hS => ?_⟩
  have hras := reassemble_groups (cap := s.cfg.otokCap) hgs
  rw [show groupStream gs = s.symbuf from hS.symm] at hras
  split
  · next hfit =>
    rw [if_pos hfit] at hras
    rw [exec_ras_reassembled hp herr hras]
    simp only [length_flatMap_tokens_pos_iff, ne_eq, List.map_eq_nil_iff, ite_not]
  · next hfit =>
    rw [if_neg hfit] at hras
    exact exec_ras_fault hp hras

/-- Settles O46: the last symbol is checked first, then the groups in order. -/
theorem rasRefusesBrokenStreams : Obligations.RasRefusesBrokenStreams := by
  refine fun s hp => ⟨fun hne hlast => ?_, fun gs rest hgs hS hlast => ?_⟩
  · exact exec_ras_fault hp (reassemble_unterminated hne hlast)
  · have hstream : s.symbuf = groupStream gs ++ Sym.sep :: rest := hS
    have hras := reassemble_empty_group (cap := s.cfg.otokCap) hgs (hstream ▸ hlast)
    exact exec_ras_fault hp (hstream ▸ hras)

/-! ### A projection is one digit group (R130, R240) -/

/-- The digit group of an integer's projection: the sign marker, if it is negative, and its digits. -/
def projectedGroup (v : Int) : List (Fin 10) := (if v < 0 then [0] else []) ++ digits v.natAbs

theorem project_eq_projectedGroup (v : Int) : project v = (projectedGroup v).map symOfDigit ++ [Sym.sep] := by
  rw [project, projectedGroup, List.map_append, apply_ite (List.map symOfDigit)]
  rfl

theorem projectAll_eq_groupStream (xs : List Int) : projectAll xs = groupStream (xs.map projectedGroup) := by
  rw [projectAll, groupStream, List.flatMap_map]
  exact congrArg xs.flatMap (funext project_eq_projectedGroup)

theorem digits_ne_nil (n : Nat) : digits n ≠ [] := by
  by_cases hn : n = 0
  · simp [hn]
  · exact fun hnil => hn (by rw [← value_digits n, hnil]; rfl)

theorem projectedGroup_ne_nil (v : Int) : projectedGroup v ≠ [] := List.append_ne_nil_of_right_ne_nil _ (digits_ne_nil _)

/-- A group of at least two digits with a leading 0 is negative. -/
theorem groupValue_zero_cons {g : List (Fin 10)} (h : g ≠ []) : groupValue (0 :: g) = -(value g : Int) := by
  obtain ⟨d, ds, rfl⟩ := List.exists_cons_of_ne_nil h
  rfl

/-- The minimal digits of a number are a group without sign marker. -/
theorem groupValue_digits (n : Nat) : groupValue (digits n) = n := by
  by_cases hn : n = 0
  · subst hn; rfl
  · have hhead := head?_digits_ne_zero hn
    rw [groupValue, value_digits]
    intro d ds hzero
    simp [hzero] at hhead

theorem groupValue_projectedGroup (v : Int) : groupValue (projectedGroup v) = v := by
  unfold projectedGroup
  split
  · rw [List.singleton_append, groupValue_zero_cons (digits_ne_nil _), value_digits]
    omega
  · rw [List.nil_append, groupValue_digits]
    omega

theorem reassemble_projectAll (xs : List Int) : reassemble none (projectAll xs) = .ok (xs, xs.flatMap tokens) := by
  have hne : ∀ g ∈ xs.map projectedGroup, g ≠ [] := List.forall_mem_map.2 fun v _ => projectedGroup_ne_nil v
  have hvalues : (xs.map projectedGroup).map groupValue = xs := by
    simp [Function.comp_def, groupValue_projectedGroup]
  rw [projectAll_eq_groupStream, reassemble_groups hne, hvalues, fits_none, if_pos rfl]

/-- Settles O47: a projection is one group, whose value is the integer; the group `0 0` is not a projection. -/
theorem reassembleInvertsProjection : Obligations.ReassembleInvertsProjection := by
  refine ⟨reassemble_projectAll, fun v => ?_, by decide, by decide⟩
  simpa [projectAll] using reassemble_projectAll [v]

end Sys2Proof.Machine

/-! ## The system commands (R250 to R253) -/

namespace Sys2Proof.Machine

open Sys2Proof Sys2Proof.Safety

/-! ### `STAT` and `CLR` (R250, R251) -/

/-- Settles O14: the response word of the state as it stands, with the data of `STAT`. -/
theorem statReportsStatus : Obligations.StatReportsStatus := by
  refine ⟨decodeInvertsEncode .stat, fun s => ⟨s.respond (statData s), rfl, rfl, ?_⟩⟩
  rw [respond_rsp_toNat, statData_toNat, Nat.add_assoc _ (s.errDetail.toNat * 16)]

/-- The cleared state with the response of `CLR` is the table of R36. -/
theorem clear_respond_zero (s : State) : s.clear.respond 0 = resetItems s := respond_zero nofun nofun nofun rfl

/-- Settles O15: `CLR` clears and answers in every phase. -/
theorem clrRestoresTheResetState : Obligations.ClrRestoresTheResetState :=
  ⟨decodeInvertsEncode .clr, fun s => congrArg Host.Outcome.next (clear_respond_zero s)⟩

/-! ### `RDB` and `RDT` (R252, R253) -/

theorem moreBit_doneEnc {s : State} (hp : s.phase = .doneEnc) : moreBit s = decide (s.ord < s.bitbuf.length / 8) := by
  simp [moreBit, hp]

theorem moreBit_doneDec {s : State} (hp : s.phase = .doneDec) : moreBit s = decide (s.ord < s.otok.length) := by
  simp [moreBit, hp]

/-- Where there is no fault the response is `MORE`, which stands for `P`, and the data (R95). -/
theorem respond_of_no_fault {s : State} {P : Prop} [Decidable P] (hf : s.phase ≠ .fault) (hc : s.errCause = 0)
    (hmore : moreBit s = decide P) (d : Byte) :
    s.respond d = { s with rsp := BitVec.ofNat 16 ((if P then 0x4000 else 0) + d.toNat) } := by
  have hfault : faultBit s = false := beq_eq_false_iff_ne.2 hf
  have hr : respWord s d = BitVec.ofNat 16 ((if P then 0x4000 else 0) + d.toNat) := by
    have hd := d.isLt
    refine BitVec.eq_of_toNat_eq ((respWord_toNat s d).trans ?_)
    rw [hfault, hc, hmore, toNat_decide_mul, BitVec.toNat_ofNat]
    split <;> simp <;> omega
  rw [State.respond, hr]

section

variable {s : State}

theorem exec_rdb_byte (hp : s.phase = .doneEnc) (h : s.ord < s.bitbuf.length / 8) :
    exec .rdb s = .next (State.respond (byteAt s.bitbuf s.ord) { s with ord := s.ord + 1 }) := by
  rw [exec_eq_answer (i := .rdb) nofun nofun (by simp [phaseTable, hp]), ruleOf, rdbRule, if_neg (Nat.not_le.2 h)]
  rfl

theorem exec_rdb_overread (hp : s.phase = .doneEnc) (h : s.bitbuf.length / 8 ≤ s.ord) :
    exec .rdb s = .next (faulted .overread s) := by
  rw [exec_eq_answer (i := .rdb) nofun nofun (by simp [phaseTable, hp]), ruleOf, rdbRule, if_pos h]
  exact answer_raise _

theorem exec_rdt_token (hp : s.phase = .doneDec) {k : Token} (h : s.otok[s.ord]? = some k) :
    exec .rdt s = .next (State.respond (0#4 ++ tokenCode k) { s with ord := s.ord + 1 }) := by
  rw [exec_eq_answer (i := .rdt) nofun nofun (by simp [phaseTable, hp]), ruleOf, rdtRule, h]
  rfl

theorem exec_rdt_overread (hp : s.phase = .doneDec) (h : s.otok.length ≤ s.ord) :
    exec .rdt s = .next (faulted .overread s) := by
  rw [exec_eq_answer (i := .rdt) nofun nofun (by simp [phaseTable, hp]), ruleOf, rdtRule, List.getElem?_eq_none h]
  exact answer_raise _

end

/-- Settles O16: a byte is left or none; `MORE` is that of the state with `ORD` advanced. -/
theorem rdbReadsTheNextByte : Obligations.RdbReadsTheNextByte := by
  refine ⟨ruleHead_of_encode nofun nofun rfl, fun s hp herr => ?_⟩
  have hcause := errCause_eq_zero herr (by simp [hp])
  split
  · next hlt =>
    rw [exec_rdb_byte hp hlt, ← byteAt_toNat]
    exact congrArg Host.Outcome.next
      (respond_of_no_fault (s := { s with ord := s.ord + 1 }) (by simp [hp]) hcause (moreBit_doneEnc hp) _)
  · next hge => exact exec_rdb_overread hp (Nat.not_lt.1 hge)

/-- Settles O17: a token is left or none; `MORE` is that of the state with `ORD` advanced. -/
theorem rdtReadsTheNextToken : Obligations.RdtReadsTheNextToken := by
  refine ⟨ruleHead_of_encode nofun nofun rfl, fun s hp herr => ⟨fun k hk => ?_, exec_rdt_overread hp⟩⟩
  have hcause := errCause_eq_zero herr (by simp [hp])
  rw [exec_rdt_token hp hk, ← toNat_zero_append_nibble]
  exact congrArg Host.Outcome.next
    (respond_of_no_fault (s := { s with ord := s.ord + 1 }) (by simp [hp]) hcause (moreBit_doneDec hp) _)

end Sys2Proof.Machine

/-! ## The host's reading loop (R98)

What the host can read in a state is one list of bytes: those of the blob, or the token codes. `MORE` tells whether any is left behind
`ORD`, and the loop reads just those. -/

namespace Sys2Proof.Machine

open Sys2Proof Sys2Proof.Safety

/-- The data bytes the read command of the phase gives, from `ORD = 0` on. -/
def readable (s : State) : List Byte :=
  match s.phase with
  | .doneEnc => bytesOf s.bitbuf
  | .doneDec => s.otok.map fun k => 0#4 ++ tokenCode k
  | _ => []

/-- `i` is the read command of the phase of `s`. -/
def Reads (i : Instr) (s : State) : Prop := i = .rdb ∧ s.phase = .doneEnc ∨ i = .rdt ∧ s.phase = .doneDec

theorem readable_doneEnc {s : State} (hp : s.phase = .doneEnc) : readable s = bytesOf s.bitbuf := by
  simp only [readable, hp]

theorem readable_doneDec {s : State} (hp : s.phase = .doneDec) :
    readable s = s.otok.map fun k => 0#4 ++ tokenCode k := by
  simp only [readable, hp]

theorem getLsbD_respWord_more (s : State) (d : Byte) : (respWord s d).getLsbD 14 = moreBit s := by
  simp only [respWord, BitVec.getLsbD_append]
  simp

theorem extractLsb'_respWord_data (s : State) (d : Byte) : (respWord s d).extractLsb' 0 8 = d :=
  BitVec.extractLsb'_append_eq_right

section

variable {i : Instr} {s : State} (hi : Reads i s)
include hi

theorem moreBit_of_reads : moreBit s = decide (s.ord < (readable s).length) := by
  rcases hi with ⟨-, hp⟩ | ⟨-, hp⟩
  · rw [moreBit_doneEnc hp, readable_doneEnc hp, bytesOf_length]
  · rw [moreBit_doneDec hp, readable_doneDec hp, List.length_map]

theorem exec_of_reads (h : s.ord < (readable s).length) :
    exec i s = .next (State.respond (readable s)[s.ord] { s with ord := s.ord + 1 }) := by
  rcases hi with ⟨rfl, hp⟩ | ⟨rfl, hp⟩
  · simp only [readable_doneEnc hp, bytesOf_length] at h ⊢
    simpa [bytesOf] using exec_rdb_byte hp h
  · simp only [readable_doneDec hp, List.length_map] at h ⊢
    simpa using exec_rdt_token hp (List.getElem?_eq_getElem h)

/-- With the status bit `MORE` of the state on the port, the loop reads what is left behind `ORD`. -/
theorem readWhileMore_of_reads (hmore : s.rsp.getLsbD 14 = moreBit s) {fuel : Nat}
    (hfuel : (readable s).length ≤ s.ord + fuel) : (readWhileMore i fuel s).1 = (readable s).drop s.ord := by
  induction fuel generalizing s with
  | zero => exact (List.drop_eq_nil_of_le hfuel).symm
  | succ fuel ih =>
    rw [readWhileMore, hmore, moreBit_of_reads hi]
    by_cases hlt : s.ord < (readable s).length
    · have hrest := ih (s := State.respond (readable s)[s.ord] { s with ord := s.ord + 1 }) hi
        (getLsbD_respWord_more _ _) (by simp only [State.respond_ord]; exact hfuel.trans (by omega))
      rw [if_pos (decide_eq_true hlt), exec_of_reads hi hlt, List.drop_eq_getElem_cons hlt]
      exact congrArg₂ List.cons (extractLsb'_respWord_data _ _) hrest
    · rw [if_neg (by simpa using hlt), List.drop_eq_nil_of_le (Nat.not_lt.1 hlt)]

end

end Sys2Proof.Machine

/-! ## The entry point `encode` (R256, R258)

Records entered as text leave the projection of their integers in the stream; `ENCODE` makes the blob of the stream, and the host reads its
bytes. -/

namespace Sys2Proof.Machine

open Sys2Proof Sys2Proof.Safety

/-! ### Command sequences -/

/-- A sequence completes when its first command and then the rest do. -/
theorem execAll_cons_eq_next {i : Instr} {is : List Instr} {s t : State} :
    execAll (i :: is) s = .next t ↔ ∃ u, exec i s = .next u ∧ execAll is u = .next t := by
  rw [execAll]
  cases exec i s <;> simp

/-! ### The functions (R256 to R258) -/

theorem encodeRecords_of_encodeSymbols {xs : List Int} {bits : List Bool} (h : encodeSymbols (projectAll xs) = .ok bits) :
    encodeRecords xs = .ok (bytesOf bits) := by
  rw [encodeRecords, h]; rfl

/-- The stream comes back from the blob, and the integers from the stream. -/
theorem decodeRecords_of_encodeSymbols {xs : List Int} {bits : List Bool} (h : encodeSymbols (projectAll xs) = .ok bits) :
    decodeRecords (bytesOf bits) = .ok xs := by
  simp only [decodeRecords, (decodeSymbols_of_encodeSymbols h).2, bind, Except.bind, reassemble_projectAll]

/-! ### Entering records (R133, R134) -/

theorem StreamEntered.execAll_record {S : List Sym} {s : State} (h : StreamEntered S s) {r : Bool × List (Fin 10)}
    (hr : r.2 ≠ []) : ∃ t, execAll (textCommands r) s = .next t ∧ StreamEntered (S ++ project (textValue r)) t := by
  have hrecord := recordEntryProjectsItsValue s r h.front h.run.err h.closed hr
  rw [if_pos (h.run.fits_symbuf _ _)] at hrecord
  exact ⟨_, hrecord, referenceRun_keptByRules.execAll h.run hrecord, .inr rfl, rfl,
    congrArg (· ++ project (textValue r)) h.symbuf⟩

theorem StreamEntered.execAll_text {S : List Sym} {s : State} (h : StreamEntered S s) {txt : List (Bool × List (Fin 10))}
    (htxt : ∀ r ∈ txt, r.2 ≠ []) :
    ∃ t, execAll (txt.flatMap textCommands) s = .next t ∧ StreamEntered (S ++ projectAll (txt.map textValue)) t := by
  induction txt generalizing S s with
  | nil => exact ⟨s, rfl, by rwa [List.map_nil, projectAll, List.flatMap_nil, List.append_nil]⟩
  | cons r rs ih =>
    obtain ⟨hr, hrs⟩ := List.forall_mem_cons.1 htxt
    obtain ⟨t, ht, hentered⟩ := h.execAll_record hr
    obtain ⟨u, hu, hall⟩ := ih hentered hrs
    refine ⟨u, (execAll_append_of_next ht).trans hu, ?_⟩
    rwa [List.append_assoc] at hall

/-- `CLR`, records and `ENCODE` make the blob of the records' integers, whatever call came before. -/
theorem execAll_encode_text {txt : List (Bool × List (Fin 10))} {s : State} (htxt : ∀ r ∈ txt, r.2 ≠ [])
    (hcfg : s.cfg = Config.reference) :
    ∃ t, execAll (.clr :: (txt.flatMap textCommands ++ encodeCommands)) s = .next t ∧ t.phase = .doneEnc ∧
      encodeSymbols (projectAll (txt.map textValue)) = .ok t.bitbuf := by
  obtain ⟨u, htext, hu⟩ := (streamEntered_clear hcfg).execAll_text htxt
  obtain ⟨t, hencode, ht, hblob⟩ := hu.execAll_encode
  refine ⟨t, ?_, ht.phase, hblob⟩
  rw [execAll_cons_of_next (t := s.clear.respond 0) rfl, execAll_append_of_next htext, hencode]

/-- Settles O51: the blob of a projection decodes to the integers; records as text enter the projection of theirs. -/
theorem recordRoundTrip : Obligations.RecordRoundTrip := by
  refine ⟨fun xs => ?_, fun txt s htxt hcfg => ?_⟩
  · obtain ⟨_, _, _, -, -, -, -, -, hblob⟩ := exists_blobBits (projectAll xs)
    exact ⟨_, encodeRecords_of_encodeSymbols hblob, decodeRecords_of_encodeSymbols hblob⟩
  · obtain ⟨t, ht, hphase, hblob⟩ := execAll_encode_text htxt hcfg
    exact ⟨t, ht, hphase, decodeRecords_of_encodeSymbols hblob⟩

/-! ### The commands of `encode(xs)` (R98) -/

/-- An integer as text: a minus if it is negative, and its minimal digits. -/
def recordText (v : Int) : Bool × List (Fin 10) := (decide (v < 0), digits v.natAbs)

theorem textCommands_recordText (v : Int) : textCommands (recordText v) = recCommands v := by
  simp only [textCommands, recordText, recCommands, decide_eq_true_iff]

theorem textValue_recordText (v : Int) : textValue (recordText v) = v := by
  simp only [textValue, recordText, value_digits, decide_eq_true_iff]
  omega

/-- The commands of `encode(xs)` are `CLR`, the integers as text and `ENCODE`. -/
theorem encodeProgram_eq (xs : List Int) :
    encodeProgram xs = .clr :: ((xs.map recordText).flatMap textCommands ++ encodeCommands) := by
  simp only [encodeProgram, List.flatMap_map, textCommands_recordText]

theorem exec_last_of_execAll {is : List Instr} {i : Instr} {s t : State} (hlast : [i] <:+ is)
    (h : execAll is s = .next t) : ∃ u, exec i u = .next t := by
  obtain ⟨js, rfl⟩ := hlast
  induction js generalizing s with
  | nil =>
    obtain ⟨u, hu, hnil⟩ := execAll_cons_eq_next.1 h
    cases hnil
    exact ⟨s, hu⟩
  | cons j js ih =>
    obtain ⟨_, -, hrest⟩ := execAll_cons_eq_next.1 h
    exact ih hrest

theorem fin_suffix_encodeProgram (xs : List Int) : [.fin] <:+ encodeProgram xs :=
  (by decide : [.fin] <:+ encodeCommands).trans ((List.suffix_append _ _).trans (List.suffix_cons _ _))

/-- `FIN` leaves `ORD` at 0 and the status bits of its next state on the port. -/
theorem exec_fin_ord {s t : State} (h : exec .fin s = .next t) (ht : t.phase ≠ .fault) :
    t.ord = 0 ∧ t.rsp.getLsbD 14 = moreBit t := by
  obtain ⟨u, d, rfl, ⟨hf, -⟩ | ⟨-, hr⟩⟩ := exec_next_respond (i := .fin) nofun h
  · exact absurd hf ht
  · obtain rfl := finRule_ok hr
    exact ⟨rfl, getLsbD_respWord_more _ d⟩

/-- After commands that end with `FIN` the host reads the whole blob. -/
theorem readWhileMore_after_fin {is : List Instr} {s t : State} (hlast : [.fin] <:+ is) (h : execAll is s = .next t)
    (ht : t.phase = .doneEnc) : (readWhileMore .rdb (t.bitbuf.length / 8) t).1 = bytesOf t.bitbuf := by
  obtain ⟨u, hfin⟩ := exec_last_of_execAll hlast h
  obtain ⟨hord, hmore⟩ := exec_fin_ord hfin (by simp [ht])
  have hread := readWhileMore_of_reads (.inl ⟨rfl, ht⟩) hmore (fuel := t.bitbuf.length / 8)
    (by rw [readable_doneEnc ht, bytesOf_length]; exact Nat.le_add_left _ _)
  rwa [readable_doneEnc ht, hord, List.drop_zero] at hread

/-- Settles O52: the integers are entered as text, and the bytes read are those of the blob `ENCODE` makes. -/
theorem encodeCommandsComputeTheBlob : Obligations.EncodeCommandsComputeTheBlob := by
  intro xs s hcfg
  have htext : ∀ r ∈ xs.map recordText, r.2 ≠ [] := List.forall_mem_map.2 fun v _ => digits_ne_nil v.natAbs
  have hvalues : (xs.map recordText).map textValue = xs := by simp [Function.comp_def, textValue_recordText]
  obtain ⟨t, ht, hphase, hblob⟩ := execAll_encode_text htext hcfg
  rw [← encodeProgram_eq] at ht
  rw [hvalues] at hblob
  refine ⟨_, encodeRecords_of_encodeSymbols hblob, ?_⟩
  rw [hostEncode, ht, ← readWhileMore_after_fin (fin_suffix_encodeProgram xs) ht hphase]

end Sys2Proof.Machine

/-! ## The tree of a list of records (R137, R261) -/

namespace Sys2Proof.Machine

open Sys2Proof Sys2Proof.Safety

/-- A projection has a digit and the separator. -/
theorem exists_digit_and_sep_mem_project (v : Int) : ∃ d : Fin 10, symOfDigit d ∈ project v ∧ Sym.sep ∈ project v := by
  obtain ⟨d, hd⟩ := List.exists_mem_of_ne_nil _ (projectedGroup_ne_nil v)
  rw [project_eq_projectedGroup]
  exact ⟨d, List.mem_append_left _ (List.mem_map_of_mem hd), List.mem_append_right _ (List.mem_singleton_self _)⟩

theorem symOfDigit_ne_sep (d : Fin 10) : symOfDigit d ≠ Sym.sep := by
  intro h
  have hdigit := congrArg digitOf h
  simp at hdigit

/-- Two different symbols that occur are two of the symbols counted. -/
theorem two_le_length_presentSyms {S : List Sym} {x y : Sym} (hne : x ≠ y) (hx : x ∈ S) (hy : y ∈ S) :
    2 ≤ (presentSyms (countSyms S)).length := by
  have hmem {z : Sym} (hz : z ∈ S) : z ∈ presentSyms (countSyms S) :=
    mem_presentSyms.2 (by rw [getElem_countSyms]; exact List.count_pos_iff.2 hz)
  have hsub : [x, y] ⊆ presentSyms (countSyms S) := by simp [hmem hx, hmem hy]
  exact (List.subperm_of_subset (by simp [hne]) hsub).length_le

/-- Settles O48: a digit and the separator occur, so the loop of `BLD` runs; no record gives the blob of the `EMPTY` tree. -/
theorem recordsGiveAFullTree : Obligations.RecordsGiveAFullTree := by
  refine ⟨fun xs hxs => ?_, rfl, rfl⟩
  obtain ⟨v, hv⟩ := List.exists_mem_of_ne_nil xs hxs
  obtain ⟨d, hdigit, hsep⟩ := exists_digit_and_sep_mem_project v
  have hK := two_le_length_presentSyms (symOfDigit_ne_sep d) (List.mem_flatMap_of_mem hv hdigit)
    (List.mem_flatMap_of_mem hv hsep)
  obtain ⟨t, r, hforest, ht⟩ := buildTree_full hK
  have hfull := hforest.fullTree hK
  rw [projectAll, ht]
  exact ⟨hfull.variant_full, hfull.root_val.1⟩

end Sys2Proof.Machine

/-! ## The entry point `decode` (R257)

On an entered blob `PAR`, `DEC` and `RAS` do what the functions do: they end with the records, or the first fault met is the function's.
The tree that `PAR` accepts is a legal one, so that the functions never stop for want of a node. -/

namespace Sys2Proof.Machine

open Sys2Proof Sys2Proof.Safety

/-! ### The functions end in no stop of the model (R279) -/

/-- The rule ends with a fault of the spec, not with a stop of the model. -/
def IsRaise (e : Stop) : Prop := ∃ c, e = .raise c

theorem isRaise_raise (c : ErrCode) : IsRaise (.raise c) := ⟨c, rfl⟩

theorem decodeSingle_errorsIn_isRaise (cap : Option Nat) (y : Sym) (bs : List Bool) (out : List Sym) :
    ErrorsIn IsRaise (decodeSingle cap (some y) bs out) := by
  induction bs generalizing out with
  | nil => exact errorsIn_ok out
  | cons b bs ih =>
    cases b
    · rw [decodeSingle]
      split
      · exact ih _
      · exact errorsIn_error (isRaise_raise _)
    · exact errorsIn_error (isRaise_raise _)

/-- `n` is an internal node of the tree with root `r`. -/
def InnerUpTo (r n : NodeId) : Prop := 11 ≤ n.val ∧ n ≤ r

theorem innerUpTo_root {t : Tree} {r : NodeId} (h : FullTree t r) : InnerUpTo r r :=
  ⟨by have := h.root_val; omega, le_rfl⟩

/-- From an internal node of a finished tree every bit leads to a leaf or to another one. -/
theorem exists_childOf_inner {t : Tree} {r p : NodeId} (h : FullTree t r) (hp : InnerUpTo r p) (b : Bool) :
    ∃ m, childOf t p b = some m ∧ (symOf m = none → InnerUpTo r m) := by
  obtain ⟨a, c, ha, hc, -⟩ := h.children p hp.1 hp.2
  obtain ⟨m, hm⟩ : ∃ m, childOf t p b = some m := by
    cases b
    · exact ⟨a, ha⟩
    · exact ⟨c, hc⟩
  refine ⟨m, hm, fun hsym => ?_⟩
  have hinner : 11 ≤ m.val := by simpa [symOf] using hsym
  have hparent := ((childOf_eq_iff_of_fullTree h).1 hm).1
  exact ⟨hinner, ((h.inner_parent m hinner).1 (by simp [hparent])).le⟩

/-- The walk stands on an internal node of the tree as long as bits are left. -/
theorem decodeFull_errorsIn_isRaise {t : Tree} {r : NodeId} (h : FullTree t r) (cap : Option Nat) (bs : List Bool)
    (at? : Option NodeId) (out : List Sym) (hat : InnerUpTo r (at?.getD r)) :
    ErrorsIn IsRaise (decodeFull cap t r bs at? out) := by
  induction bs generalizing at? out with
  | nil =>
    cases at? with
    | none => exact errorsIn_ok out
    | some m => exact errorsIn_error (isRaise_raise _)
  | cons b bs ih =>
    obtain ⟨m, hm, hinner⟩ := exists_childOf_inner h hat b
    simp only [decodeFull, hm]
    split
    · next hsym => exact ih (some m) out (hinner hsym)
    · split
      · exact ih none _ (innerUpTo_root h)
      · exact errorsIn_error (isRaise_raise _)

theorem decodeBody_errorsIn_isRaise {t : Tree} (h : TreeWf t) (cap : Option Nat) {buf : List Bool} (hdrEnd : Nat) {limit : Nat}
    (hlimit : limit ≤ buf.length) : ErrorsIn IsRaise (decodeBody cap t buf hdrEnd limit) := by
  unfold TreeWf at h
  cases hvar : t.variant <;> simp only [hvar] at h
  case none =>
    simp only [decodeBody, hvar]
    exact errorsIn_ok _
  case empty =>
    rw [decodeBody_empty hvar]
    split
    · exact errorsIn_ok _
    · exact errorsIn_error (isRaise_raise _)
  case single =>
    obtain ⟨-, ⟨x, hx⟩, -⟩ := h
    simp only [decodeBody, hvar, if_neg (Nat.not_lt.2 hlimit), hx, Option.bind_some, symOf_leafOf]
    exact decodeSingle_errorsIn_isRaise cap x _ _
  case full =>
    obtain ⟨r, hfull⟩ := h
    simp only [decodeBody, hvar, if_neg (Nat.not_lt.2 hlimit), hfull.root_eq]
    exact decodeFull_errorsIn_isRaise hfull cap _ none [] (innerUpTo_root hfull)

/-- What `PAR` finds in a blob from reset tree registers: a legal tree, and a body within the blob. -/
theorem treeWf_of_parseBlob {buf : List Bool} {p : Parsed} (h : parseBlob buf Tree.reset = .ok p) :
    TreeWf p.tree ∧ p.limit ≤ buf.length := by
  unfold parseBlob at h
  split at h
  · cases h
  · obtain ⟨⟨T, hdrEnd⟩, hT, h⟩ := bind_eq_ok.1 h
    cases h
    exact ⟨(parseHeader_headerOf (Nat.sub_le _ _) hT).1, Nat.sub_le _ _⟩

theorem decodeSymbols_errorsIn_isRaise (blob : List Byte) : ErrorsIn IsRaise (decodeSymbols blob) := by
  unfold decodeSymbols
  split
  · exact errorsIn_error (isRaise_raise _)
  · next p hparse =>
    obtain ⟨hwf, hlimit⟩ := treeWf_of_parseBlob hparse
    exact decodeBody_errorsIn_isRaise hwf none _ hlimit

theorem reassembleLoop_errorsIn_isRaise (cap : Option Nat) (S : List Sym) (g : List (Fin 10)) (recs : List Int) (otok : List Token) :
    ErrorsIn IsRaise (reassembleLoop cap S g recs otok) := by
  fun_induction reassembleLoop cap S g recs otok
  case case1 => exact errorsIn_ok _
  case case2 ih => exact ih
  case case3 => exact errorsIn_error (isRaise_raise _)
  case case4 ih => exact ih
  case case5 => exact errorsIn_error (isRaise_raise _)

theorem reassemble_errorsIn_isRaise (cap : Option Nat) (S : List Sym) : ErrorsIn IsRaise (reassemble cap S) := by
  unfold reassemble
  split
  · exact errorsIn_error (isRaise_raise _)
  · exact reassembleLoop_errorsIn_isRaise cap S _ _ _

/-! ### The tokens are those of the records (R242, R244) -/

theorem reassembleLoop_tokens {cap : Option Nat} {S : List Sym} {g : List (Fin 10)} {recs : List Int} {otok : List Token}
    {r : List Int × List Token} (h : reassembleLoop cap S g recs otok = .ok r) (hotok : otok = recs.flatMap tokens) :
    r.2 = r.1.flatMap tokens := by
  fun_induction reassembleLoop cap S g recs otok
  case case1 => cases h; exact hotok
  case case2 ih => exact ih h hotok
  case case4 ih => exact ih h (by rw [hotok, List.flatMap_append, List.flatMap_singleton])
  all_goals cases h

theorem reassemble_tokens {cap : Option Nat} {S : List Sym} {r : List Int × List Token} (h : reassemble cap S = .ok r) :
    r.2 = r.1.flatMap tokens := by
  unfold reassemble at h
  split at h
  · cases h
  · exact reassembleLoop_tokens h rfl

/-! ### The commands of `decode(blob)` (R98) -/

/-- The faulted state does not depend on the commands that came before. -/
theorem faulted_of_execAll {is : List Instr} {s t : State} (e : ErrCode) (h : execAll is s = .next t) :
    faulted e t = faulted e s := by
  induction is generalizing s with
  | nil => cases h; rfl
  | cons i is ih =>
    obtain ⟨u, hu, hrest⟩ := execAll_cons_eq_next.1 h
    obtain ⟨hinbox, hcfg, -⟩ := phaseAfterEachCommand i s u hu
    rw [ih hrest, faulted, hinbox, hcfg, faulted]

/-- `PAR` and `DEC` of an entered blob meet the fault the function meets. -/
theorem BlobEntered.execAll_par_dec_fault {blob : List Byte} {s : State} {e : ErrCode}
    (h : BlobEntered (blob.flatMap byteBits) s)
    (he : decodeSymbols blob = .error (.raise e)) : execAll [.par, .dec] s = .next (faulted e s) := by
  have htree : s.tree = Tree.reset := congrArg State.tree (phaseHolds_loading h.run.holds h.loading).1
  unfold decodeSymbols at he
  split at he
  · next c hparse =>
    cases he
    rw [← h.bitbuf, ← htree] at hparse
    rw [execAll_cons_of_next (exec_par_blob_fault h.loading hparse), execAll_faulted (by simp)]
  · next p hparse =>
    rw [← h.bitbuf, ← htree] at hparse
    obtain ⟨hpar, -⟩ := h.run.exec_rule (i := .par) nofun nofun (by simpa [phaseTable] using h.loading)
      (by rw [ruleOf, parRule, hparse])
    have hcap : s.cfg.symbufCap = none := by rw [h.run.reference]; rfl
    rw [← h.bitbuf, ← hcap] at he
    rw [execAll_cons_of_next hpar, execAll_cons_of_next (exec_dec_fault rfl he)]
    rfl

theorem ReferenceRun.otokCap_eq_none {s : State} (h : ReferenceRun s) : s.cfg.otokCap = none := by rw [h.reference]; rfl

/-- `RAS` in the reference model ends with the records of the stream and their tokens, none of them read yet. -/
theorem ReferenceRun.exec_ras {s : State} (h : ReferenceRun s) (hp : s.phase = .decoded) {r : List Int × List Token}
    (hr : reassemble none s.symbuf = .ok r) :
    exec .ras s = .next (State.respond 0 { s with recs := r.1, otok := r.2, ord := 0, phase := .doneDec }) := by
  rw [exec_ras_answer hp, rasRule, h.otokCap_eq_none, hr]
  rfl

/-- The commands of `decode(blob)` are those of an entered blob. -/
theorem execAll_decodeProgram {blob : List Byte} {s : State} (hcfg : s.cfg = Config.reference) :
    ∃ t, BlobEntered (blob.flatMap byteBits) t ∧ (∀ e, faulted e t = faulted e s) ∧
      execAll (decodeProgram blob) s = execAll ([.par, .dec] ++ [.ras]) t := by
  obtain ⟨t, hblob, ht⟩ := (blobEntered_clear hcfg).execAll_blob blob
  refine ⟨t, ht, fun e => (faulted_of_execAll e hblob).trans rfl, ?_⟩
  rw [decodeProgram, execAll_cons_of_next (t := s.clear.respond 0) rfl, execAll_append_of_next hblob]
  rfl

/-- The host reads the tokens of the records. -/
theorem hostDecode_of_execAll {blob : List Byte} {s u : State} {otok : List Token} {recs : List Int}
    (h : execAll (decodeProgram blob) s =
      .next (State.respond 0 { u with recs := recs, otok := otok, ord := 0, phase := .doneDec })) :
    hostDecode blob s = some (otok.map fun k => 0#4 ++ tokenCode k) := by
  have hread := readWhileMore_of_reads
    (s := State.respond 0 { u with recs := recs, otok := otok, ord := 0, phase := .doneDec }) (.inr ⟨rfl, rfl⟩)
    (getLsbD_respWord_more _ 0) (fuel := otok.length)
    (by rw [readable_doneDec rfl, List.length_map]; exact Nat.le_add_left _ _)
  rw [hostDecode, h]
  exact congrArg some hread

/-- Settles O53: by the first of the two functions that meets a fault, or by the records if none does. -/
theorem decodeCommandsComputeTheRecords : Obligations.DecodeCommandsComputeTheRecords := by
  intro blob s hcfg
  obtain ⟨t, ht, hfaulted, hprogram⟩ := execAll_decodeProgram (blob := blob) hcfg
  cases hS : decodeSymbols blob with
  | error stop =>
    obtain ⟨e, rfl⟩ := decodeSymbols_errorsIn_isRaise blob stop hS
    refine .inr ⟨e, by rw [decodeRecords, hS]; rfl, ?_⟩
    rw [hprogram, execAll_append_of_next (ht.execAll_par_dec_fault hS), execAll_faulted (by simp), hfaulted]
  | ok S =>
    obtain ⟨u, hu, hrun, hphase, rfl⟩ := ht.execAll_par_dec hS
    rw [execAll_append_of_next hu] at hprogram
    cases hr : reassemble none u.symbuf with
    | error stop =>
      obtain ⟨e, rfl⟩ := reassemble_errorsIn_isRaise none u.symbuf stop hr
      refine .inr ⟨e, by simp only [decodeRecords, hS, hr, bind, Except.bind], ?_⟩
      rw [← hrun.otokCap_eq_none] at hr
      rw [hprogram, execAll_cons_of_next (exec_ras_fault hphase hr), execAll, faulted_of_execAll e hu, hfaulted]
    | ok r =>
      rw [execAll_cons_of_next (hrun.exec_ras hphase hr), execAll] at hprogram
      refine .inl ⟨r.1, _, by simp only [decodeRecords, hS, hr, bind, Except.bind], hprogram, rfl, rfl, ?_⟩
      rw [hostDecode_of_execAll hprogram, reassemble_tokens hr]

end Sys2Proof.Machine

/-! ## The sticky `FAULT` (R276, R280 to R282, R310, R311) -/

namespace Sys2Proof.Machine

open Sys2Proof Sys2Proof.Safety

/-- Settles O9: fault entry makes the faulted state. -/
theorem faultEntryClearsEveryItem : Obligations.FaultEntryClearsEveryItem := raise_eq_faulted

/-- In `FAULT` a command without data answers with the cause alone. -/
theorem respond_zero_of_fault {s : State} (hf : s.phase = .fault) : s.respond 0 = { s with rsp := faultWord s.errCause } := by
  have hfault : faultBit s = true := by simp [faultBit, hf]
  have hmore : moreBit s = false := by simp [moreBit, hf]
  have hcause := s.errCause.isLt
  have hrsp : respWord s 0 = faultWord s.errCause := by
    refine BitVec.eq_of_toNat_eq ((respWord_toNat s 0).trans ?_)
    simp [hfault, hmore, faultWord]
    omega
  rw [State.respond, hrsp]

/-- The sticky fault (R281): a command's own rule does not run. -/
theorem exec_in_fault {i : Instr} {s : State} (h1 : i ≠ .stat) (h2 : i ≠ .clr) (hf : s.phase = .fault) :
    exec i s = .next { s with rsp := faultWord s.errCause } := by
  rw [exec_eq_command h1 h2, command_in_fault hf, respond_zero_of_fault hf]

/-- An ill-formed word does not reach a command (R96, steps 1 and 2). -/
theorem takeCommand_of_illFormed {w : Word} (h : wordWellFormed w = false) (s : State) :
    takeCommand w s = .next (if s.phase = .fault then { s with rsp := faultWord s.errCause } else faulted .reservedBits s) := by
  rw [takeCommand, decode_of_illFormed h]
  refine congrArg Host.Outcome.next ?_
  unfold illFormed
  split
  · next hf => exact respond_zero_of_fault hf
  · exact raise_eq_faulted .reservedBits s

/-- Settles O7: the word is rejected by the decoder, and the phase decides between the sticky fault and `RESERVED_BITS`. -/
theorem illFormedWordRaisesReservedBits : Obligations.IllFormedWordRaisesReservedBits :=
  ⟨⟨rfl, rfl⟩, fun s _ h => takeCommand_of_illFormed h s⟩

/-- Settles O10: the check of the sticky fault comes before every command's own rule, and before `RESERVED_BITS`. -/
theorem faultIsSticky : Obligations.FaultIsSticky := fun s hf =>
  ⟨fun _ h1 h2 => exec_in_fault h1 h2 hf, fun _ h => (takeCommand_of_illFormed h s).trans (by rw [if_pos hf]), _, rfl, rfl⟩

theorem step_of_reset {s : State} {rest : List HostInput} (h : s.inbox = .reset :: rest) :
    step s = .next (resetItems { s with inbox := rest }) := by
  simp only [step, h]
  exact congrArg Host.Outcome.next (clear_respond_zero { s with inbox := rest })

theorem step_of_empty {s : State} (h : s.inbox = []) : step s = .next s := by
  simp only [step, h, waitForHost]

/-- Settles O8: the two rules of the port that take no command word. -/
theorem resetInputClearsAndEmptyPortWaits : Obligations.ResetInputClearsAndEmptyPortWaits := fun _ =>
  ⟨fun _ => step_of_reset, step_of_empty⟩

/-- The one word that leads out of `FAULT` is that of `CLR` (R282). -/
theorem takeCommand_leaves_fault {w : Word} {s t : State} (hf : s.phase = .fault) (h : takeCommand w s = .next t)
    (ht : t.phase ≠ .fault) : w = 0x1000 ∧ t = resetItems s := by
  cases hw : wordWellFormed w
  case false =>
    rw [takeCommand_of_illFormed hw, if_pos hf] at h
    cases h
    exact absurd hf ht
  case true =>
    obtain ⟨i, hi, hword⟩ := (decodeAcceptsExactlyTheWellFormedWords w).1 hw
    rw [takeCommand_of_decode_ok hi] at h
    by_cases h1 : i = .stat
    · subst h1; cases h
      exact absurd hf ht
    by_cases h2 : i = .clr
    · subst h2; cases h
      exact ⟨hword.symm, clear_respond_zero s⟩
    rw [exec_in_fault h1 h2 hf] at h
    cases h
    exact absurd hf ht

/-- Settles O13: by the input taken; waiting leaves nothing, and of all words `CLR`'s alone leads out. -/
theorem faultIsLeftOnlyByClear : Obligations.FaultIsLeftOnlyByClear := by
  intro s t hf h ht
  match hin : s.inbox with
  | [] =>
    rw [step_of_empty hin] at h
    cases h
    exact absurd hf ht
  | .reset :: rest =>
    rw [step_of_reset hin] at h
    cases h
    exact ⟨rest, .inr rfl, rfl⟩
  | .command w :: rest =>
    rw [step_of_command hin] at h
    obtain ⟨rfl, rfl⟩ := takeCommand_leaves_fault (s := { s with inbox := rest }) hf h ht
    exact ⟨rest, .inl rfl, rfl⟩

end Sys2Proof.Machine

/-! ## No step stops (R14, R279)

A step stops only where an own rule does. Of the own rules only those of `DRV`, `SER`, `FIN` and `DEC` can, where the tree registers or the
bit buffer lack what they read; what the phase promises gives them a legal tree and a placeholder. -/

namespace Sys2Proof.Machine

open Sys2Proof Sys2Proof.Safety

/-! ### What the phase promises the reading rules -/

section

variable {s : State}

/-- A parsed header is that of a legal tree, and its body is within the blob. -/
theorem treeWf_of_parsedWell (h : ParsedWell s) : TreeWf s.tree ∧ s.limit ≤ s.bitbuf.length := by
  obtain ⟨-, hparse, -⟩ := h
  exact treeWf_of_parseBlob hparse

theorem treeWf_of_eq_buildTree {f : Vector Nat 11} (h : s.tree = buildTree f Tree.reset) : TreeWf s.tree :=
  h ▸ (treeWf_buildTree f).1

/-- The tree registers are legal in every phase: at reset, of the stream's counts, or of the header parsed (R25, R37). -/
theorem treeWf_of_phaseHolds (h : PhaseHolds s) : TreeWf s.tree := by
  have blank (hreset : s.tree = Tree.reset) : TreeWf s.tree := hreset ▸ rfl
  cases hp : s.phase <;> simp only [PhaseHolds, hp] at h
  case idle | fault | counted => exact blank (congrArg State.tree h)
  case ingest | load => exact blank (congrArg State.tree h.1)
  case built => exact treeWf_of_eq_buildTree (congrArg State.tree h)
  case derived | serialized | encoded | doneEnc => exact treeWf_of_eq_buildTree (congrArg State.tree h.1)
  case parsed => exact (treeWf_of_parsedWell h.2).1
  case decoded | doneDec => exact (treeWf_of_parsedWell h.2.1).1

/-- In `DERIVED` the tree has a header: it is that of the stream's counts. -/
theorem exists_headerFields_derived (h : PhaseHolds s) (hp : s.phase = .derived) : ∃ fs, headerFields s.tree = .ok fs := by
  simp only [PhaseHolds, hp] at h
  have htree : s.tree = buildTree (countSyms s.symbuf) Tree.reset := congrArg State.tree h.1
  obtain ⟨hwf, hv⟩ := treeWf_buildTree (countSyms s.symbuf)
  exact htree ▸ exists_headerFields hwf hv

/-- In `ENCODED` the bit buffer begins with the placeholder of the pad-length. -/
theorem three_le_length_encoded (h : PhaseHolds s) (hp : s.phase = .encoded) : 3 ≤ s.bitbuf.length := by
  simp only [PhaseHolds, hp] at h
  obtain ⟨-, -, fs, -, -, hbits⟩ := h
  rw [hbits, List.append_assoc, List.length_append, natBits_length]
  exact Nat.le_add_right 3 _

end

/-! ### The own rules -/

/-- An append or another check of one condition stops nowhere. -/
theorem errorsIn_ite_raise {α : Type} {P : Prop} [Decidable P] {a : α} {e : ErrCode} :
    ErrorsIn IsRaise (if P then .ok a else .error (.raise e)) := by
  split
  · exact errorsIn_ok a
  · exact errorsIn_error (isRaise_raise e)

theorem symAppend_errorsIn_isRaise (x : Sym) (s : State) : ErrorsIn IsRaise (symAppend x s) := errorsIn_ite_raise

theorem bitAppend_errorsIn_isRaise (bs : List Bool) (s : State) : ErrorsIn IsRaise (bitAppend bs s) := errorsIn_ite_raise

theorem tokEnd_errorsIn_isRaise (s : State) : ErrorsIn IsRaise (tokEnd s) := by
  have close (u : State) : ErrorsIn IsRaise (symAppend Sym.sep u >>= fun v => .ok (clearRecFlags v)) :=
    (symAppend_errorsIn_isRaise _ u).bind fun v _ => errorsIn_ok _
  unfold tokEnd
  dsimp only
  split
  · exact errorsIn_error (isRaise_raise _)
  · split
    · exact close s
    · exact (symAppend_errorsIn_isRaise _ s).bind fun u _ => close u

theorem tokRule_errorsIn_isRaise (t : BitVec 4) (s : State) : ErrorsIn IsRaise (tokRule t s) := by
  unfold tokRule
  dsimp only
  split
  all_goals refine ErrorsIn.bind ?_ fun u _ => errorsIn_ok _
  · exact errorsIn_error (isRaise_raise _)
  · unfold tokMinus
    split
    · exact errorsIn_error (isRaise_raise _)
    · exact errorsIn_ok _
  · rw [tokDigit_eq]
    exact errorsIn_ite_raise
  · exact tokEnd_errorsIn_isRaise s

theorem symRule_errorsIn_isRaise (x : BitVec 4) (s : State) : ErrorsIn IsRaise (symRule x s) := by
  unfold symRule
  split
  · exact errorsIn_error (isRaise_raise _)
  · split
    · exact errorsIn_error (isRaise_raise _)
    · exact (symAppend_errorsIn_isRaise _ s).bind fun u _ => errorsIn_ok _

theorem appendCodes_errorsIn_isRaise (S : List Sym) (s : State) : ErrorsIn IsRaise (appendCodes S s) := by
  induction S generalizing s with
  | nil => exact errorsIn_ok s
  | cons x xs ih =>
    unfold appendCodes
    split
    · exact errorsIn_error (isRaise_raise _)
    · exact (bitAppend_errorsIn_isRaise _ s).bind fun u _ => ih u

/-- In a legal phase the own rule finds everything it reads. -/
theorem ruleOf_errorsIn_isRaise {i : Instr} {s : State} (h : PhaseHolds s) (hl : legalIn i s.phase = true) :
    ErrorsIn IsRaise (ruleOf i s) := by
  cases i
  case stat | clr | bld => exact errorsIn_ok _
  case cnt | par | rdb | rdt =>
    simp only [ruleOf, cntRule, parRule, rdbRule, rdtRule]
    split
    · exact errorsIn_error (isRaise_raise _)
    · exact errorsIn_ok _
  case tok t => exact tokRule_errorsIn_isRaise t s
  case sym x => exact symRule_errorsIn_isRaise x s
  case drv =>
    obtain ⟨codes, hcodes, -⟩ := deriveCodes_of_treeWf (treeWf_of_phaseHolds h)
    rw [ruleOf, drvRule, hcodes]
    exact errorsIn_ok _
  case ser =>
    obtain ⟨fs, hfs⟩ := exists_headerFields_derived h (by simpa [legalIn] using hl)
    rw [ruleOf, serRule_eq hfs]
    exact errorsIn_ite_raise
  case enc => exact (appendCodes_errorsIn_isRaise s.symbuf s).bind fun u _ => errorsIn_ok _
  case fin =>
    rw [ruleOf, finRule_eq (three_le_length_encoded h (by simpa [legalIn] using hl))]
    exact errorsIn_ite_raise
  case byt b => exact (bitAppend_errorsIn_isRaise _ s).bind fun u _ => errorsIn_ok _
  case dec =>
    have hp : s.phase = .parsed := by simpa [legalIn] using hl
    simp only [PhaseHolds, hp] at h
    obtain ⟨hwf, hlimit⟩ := treeWf_of_parsedWell h.2
    rw [ruleOf, decRule]
    split
    · next e he => exact errorsIn_error (decodeBody_errorsIn_isRaise hwf _ _ hlimit e he)
    · exact errorsIn_ok _
  case ras =>
    rw [ruleOf, rasRule]
    split
    · next e he => exact errorsIn_error (reassemble_errorsIn_isRaise _ _ e he)
    · exact errorsIn_ok _

/-! ### One step -/

theorem exists_exec_next {s : State} (h : PhaseHolds s) (i : Instr) : ∃ t, exec i s = .next t := by
  by_cases h1 : i = .stat
  · exact ⟨_, by rw [h1]; rfl⟩
  by_cases h2 : i = .clr
  · exact ⟨_, by rw [h2]; rfl⟩
  match ht : exec i s with
  | .next t => exact ⟨t, rfl⟩
  | .refused r => exact absurd ht exec_not_refused
  | .fault f =>
    rw [exec_eq_command h1 h2] at ht
    obtain ⟨-, hl, hstuck⟩ := command_fault ht
    obtain ⟨e, he⟩ := ruleOf_errorsIn_isRaise h hl _ hstuck
    cases he

theorem exists_takeCommand_next {s : State} (h : PhaseHolds s) (w : Word) : ∃ t, takeCommand w s = .next t := by
  unfold takeCommand
  split
  · exact ⟨_, rfl⟩
  · next i _ => exact exists_exec_next h i

/-- Settles O59: waiting and the reset input always have a next state, and a command word finds what the phase promises. -/
theorem stepNeverStops : Obligations.StepNeverStops := by
  intro s h
  match hin : s.inbox with
  | [] => exact ⟨s, step_of_empty hin⟩
  | .reset :: rest => exact ⟨_, step_of_reset hin⟩
  | .command w :: rest =>
    rw [step_of_command hin]
    exact exists_takeCommand_next (s := { s with inbox := rest }) (phaseHolds_port s.rsp rest h) w

end Sys2Proof.Machine
